-- ==== Sys2Proof/Word.lean ====
section
/-! DEFINITION. The word types of the block (10_state.md R46: `data` 64 bits, `sync_word` 16 bits, sample words
`W` bits, digits `u8`, user nibbles 4 bits). -/

namespace Sys2Proof

/-- Eight bits: a digit pair of a timecode frame (R42, "8-bit unsigned"), and a byte of the model's own
serialisation of the ports (log 7). -/
abbrev Byte := BitVec 8

/-- The lane that carries `sample_in` (R81). Its width is that of the widest legal sample, 32; a block of sample
width `W` reads bits `W-1..0` of it (R83; log 8). -/
abbrev SampleWord := BitVec 32

/-- A 64-bit payload: the register `data`, its copy, or the word `P = rev64(data)` (R34, R65). -/
abbrev Payload := BitVec 64

/-- A user-bit nibble (R42). -/
abbrev Nibble := BitVec 4

end Sys2Proof
end

