-- ==== Sys2Proof/Config.lean ====
section
/-! DEFINITION. The configuration record of 00_scope.md R5 and its well-formedness (R7): the parameters that are
fixed at construction and never written afterwards. Nothing here is a free value: the spec leaves no result open. -/

namespace Sys2Proof

/-- A rational number of samples per second, `num / den` (R5: `FS` is a positive rational; D19). -/
structure Rate where
  num : Nat
  den : Nat
  deriving DecidableEq, Repr

/-- R5: "positive rational". -/
def Rate.positive (r : Rate) : Bool := decide (0 < r.num) && decide (0 < r.den)

/-- The four sample-count thresholds (R5, R160). -/
structure Thresholds where
  minBit  : Nat
  maxBit  : Nat
  minHalf : Nat
  maxHalf : Nat
  deriving DecidableEq, Repr

/-- R7: `0 <= min_half <= max_half < min_bit <= max_bit`. -/
def Thresholds.ordered (t : Thresholds) : Bool :=
  decide (t.minHalf ≤ t.maxHalf) && decide (t.maxHalf < t.minBit) && decide (t.minBit ≤ t.maxBit)

/-- The configuration record `cfg` of R5 (R40: "the block's only control registers"). `N`, `SYNC` and `TOL` are
fixed by the document and are the constants below. -/
structure Config where
  /-- `W`, the sample width in bits. -/
  width  : Nat
  /-- `SIGNED`. -/
  signed : Bool
  /-- `FS`, the sample rate. -/
  fs     : Rate
  /-- `min_bit`, `max_bit`, `min_half`, `max_half`. -/
  thr    : Thresholds
  deriving DecidableEq, Repr

/-- `N`, the history length and the recomputation period (R5). -/
abbrev historyLength : Nat := 255

/-- `SYNC = 0b0011111111111101` (R5, R90). -/
abbrev syncConstant : BitVec 16 := 0b0011111111111101#16

/-- The numerators over 1000 of `(4/5) * (1 - TOL)` and `(4/5) * (1 + TOL)` with `TOL = 2/100` (R5, R271). -/
abbrev bandLow : Nat := 784
/-- See `bandLow`. -/
abbrev bandHigh : Nat := 816

/-- `WF_CFG` (R7). -/
def Config.wf (c : Config) : Bool :=
  (decide (c.width = 8) || decide (c.width = 16) || decide (c.width = 24) || decide (c.width = 32))
    && c.fs.positive && c.thr.ordered

/-- `SMIN` (R6). -/
def Config.smin (c : Config) : Int := if c.signed then -(2 ^ (c.width - 1) : Nat) else 0

/-- `SMAX` (R6). -/
def Config.smax (c : Config) : Int :=
  if c.signed then (2 ^ (c.width - 1) : Nat) - 1 else (2 ^ c.width : Nat) - 1

/-- The configuration that `State.reset` is constructed with: `W = 16`, signed, `FS = 48000`, thresholds
19, 26, 7, 15 (the row 48000 of R163; the configuration of programs P1 to P3 of 95_test_vectors.md).
DESIGN CHOICE (log 1), unsafe: `W`, `SIGNED`, `FS` are the model's arguments and the spec gives them no value. -/
def Config.reference : Config :=
  { width := 16, signed := true, fs := { num := 48000, den := 1 },
    thr := { minBit := 19, maxBit := 26, minHalf := 7, maxHalf := 15 } }

end Sys2Proof
end

