-- ==== Sys2Proof/Syntax.lean ====
section
/-! DEFINITION. The types of 00_scope.md R10, the output frame of 10_state.md R42, the input ports of
30_encoding.md R81, and the operation set of R80: one constructor per row of spec/opcode_table.json. -/

namespace Sys2Proof

/-- The calibrator's classification (R10). `Unknown` also means "no level recorded" in a register (R29, R32).
There is no fourth value (R84). -/
inductive Level where
  | unknown | low | high
  deriving DecidableEq, Repr

/-- A classified level: `Low` or `High` (R87: "A *level* is ... `Low` or `High`"). The operand type of the
operations that are never given `Unknown` (R165, R180; log 12). -/
inductive Wave where
  | low | high
  deriving DecidableEq, Repr

/-- A classified level as a `Level`. -/
def Wave.level : Wave → Level
  | .low => .low
  | .high => .high

/-- The classified level, if there is one. -/
def Level.wave? : Level → Option Wave
  | .unknown => none
  | .low => some .low
  | .high => some .high

/-- The expected event (R10, R183). -/
inductive Event where
  | mustBeSteady | canChangeInMiddle | canChangeInEnd | overdue
  deriving DecidableEq, Repr

/-- The frame-rate classification (R10, R271). -/
inductive Fps where
  | unknown | fps24 | fps25 | fps30
  deriving DecidableEq, Repr

/-- The anomaly codes (R291). -/
inductive Anomaly where
  | none | cal | illegal | overdue
  deriving DecidableEq, Repr

/-- The eight user nibbles `ub[1..8]` (R42, R91). -/
structure UserBits where
  ub1 : Nibble
  ub2 : Nibble
  ub3 : Nibble
  ub4 : Nibble
  ub5 : Nibble
  ub6 : Nibble
  ub7 : Nibble
  ub8 : Nibble
  deriving DecidableEq, Repr

/-- `TimecodeFrame` (R42): a value, held by no register (R278). -/
structure TimecodeFrame where
  hours       : Byte
  minutes     : Byte
  seconds     : Byte
  frames      : Byte
  fps         : Fps
  ub          : UserBits
  payload     : Payload
  sampleCount : Nat
  deriving DecidableEq, Repr

/-- The input ports at one clock edge (R81). `clk` is the step itself. -/
structure Ports where
  rst         : Bool
  sampleValid : Bool
  sampleIn    : SampleWord
  deriving DecidableEq, Repr

/-- The control word `ctl = rst ++ sample_valid` (R81, R82). -/
def Ports.ctl (p : Ports) : BitVec 2 := BitVec.ofBool p.rst ++ BitVec.ofBool p.sampleValid

/-- The operation set (R80). The three commands are what the ports can select (R82); the micro-operations and the
reference functions have no control word of their own and are operations of the same machine (log 5). An operand
is an argument: for a micro-operation, the value the rule that invokes it hands over. -/
inductive Instr where
  /-- `RESET` (R120). -/
  | reset
  /-- `PUSH_SAMPLE s` (R121); the operand is the word on `sample_in` (R83). -/
  | pushSample (sampleIn : SampleWord)
  /-- `IDLE` (R122). -/
  | idle
  /-- `INVALIDATE` (R126). -/
  | invalidate
  /-- `CAL.PUSH(s)` (R140). -/
  | calPush (sampleIn : SampleWord)
  /-- `CAL.RECOMPUTE()` (R141). -/
  | calRecompute
  /-- `CAL.CLASSIFY(s)` (R142). -/
  | calClassify (sampleIn : SampleWord)
  /-- `CAL.INVALIDATE` (R143). -/
  | calInvalidate
  /-- `THR.DERIVE(FS)` (R160). -/
  | thrDerive (fs : Rate)
  /-- `ZD.STEP(level)` (R165). -/
  | zdStep (level : Wave)
  /-- `ZD.RESET` (R166). -/
  | zdReset
  /-- `BSM.STEP(s)` (R180). -/
  | bsmStep (sampleIn : SampleWord)
  /-- `BSM.EXPECT(n, mid)` (R183). -/
  | bsmExpect (n : Nat) (mid : Bool)
  /-- `BSM.RESOLVE(ev, changed, level)` (R184). -/
  | bsmResolve (ev : Event) (changed : Bool) (level : Wave)
  /-- `BSM.INVALIDATE` (R185). -/
  | bsmInvalidate
  /-- `FA.SAMPLE_RECEIVED()` (R210). -/
  | faSampleReceived
  /-- `FA.SHIFT_BIT(b)` (R211). -/
  | faShiftBit (b : Bool)
  /-- `FA.GET_DATA()` (R212). -/
  | faGetData
  /-- `FA.INVALIDATE` (R213). -/
  | faInvalidate
  /-- `FFC.GET_FRAMES(P)` (R232). -/
  | ffcGetFrames (p : Payload)
  /-- `FFC.GET_SECONDS(P)` (R233). -/
  | ffcGetSeconds (p : Payload)
  /-- `FFC.GET_MINUTES(P)` (R234). -/
  | ffcGetMinutes (p : Payload)
  /-- `FFC.GET_HOURS(P)` (R235). -/
  | ffcGetHours (p : Payload)
  /-- `FFC.GET_UB1(P)` (R240). -/
  | ffcGetUb1 (p : Payload)
  /-- `FFC.GET_UB2(P)` (R241). -/
  | ffcGetUb2 (p : Payload)
  /-- `FFC.GET_UB3(P)` (R242). -/
  | ffcGetUb3 (p : Payload)
  /-- `FFC.GET_UB4(P)` (R243). -/
  | ffcGetUb4 (p : Payload)
  /-- `FFC.GET_UB5(P)` (R244). -/
  | ffcGetUb5 (p : Payload)
  /-- `FFC.GET_UB6(P)` (R245). -/
  | ffcGetUb6 (p : Payload)
  /-- `FFC.GET_UB7(P)` (R246). -/
  | ffcGetUb7 (p : Payload)
  /-- `FFC.GET_UB8(P)` (R247). -/
  | ffcGetUb8 (p : Payload)
  /-- `FFC.SET_FRAMES(P, v)` (R250). -/
  | ffcSetFrames (p : Payload) (v : Nat)
  /-- `FFC.SET_SECONDS(P, v)` (R251). -/
  | ffcSetSeconds (p : Payload) (v : Nat)
  /-- `FFC.SET_MINUTES(P, v)` (R252). -/
  | ffcSetMinutes (p : Payload) (v : Nat)
  /-- `FFC.SET_HOURS(P, v)` (R253). -/
  | ffcSetHours (p : Payload) (v : Nat)
  /-- `FFC.SET_UB1(P, v)` (R255). -/
  | ffcSetUb1 (p : Payload) (v : Nat)
  /-- `FFC.SET_UB2(P, v)` (R256). -/
  | ffcSetUb2 (p : Payload) (v : Nat)
  /-- `FFC.SET_UB3(P, v)` (R257). -/
  | ffcSetUb3 (p : Payload) (v : Nat)
  /-- `FFC.SET_UB4(P, v)` (R258). -/
  | ffcSetUb4 (p : Payload) (v : Nat)
  /-- `FFC.SET_UB5(P, v)` (R259). -/
  | ffcSetUb5 (p : Payload) (v : Nat)
  /-- `FFC.SET_UB6(P, v)` (R260). -/
  | ffcSetUb6 (p : Payload) (v : Nat)
  /-- `FFC.SET_UB7(P, v)` (R261). -/
  | ffcSetUb7 (p : Payload) (v : Nat)
  /-- `FFC.SET_UB8(P, v)` (R262). -/
  | ffcSetUb8 (p : Payload) (v : Nat)
  /-- `FPS.CLASSIFY(count)` (R271). -/
  | fpsClassify (count : Nat)
  /-- `TC.BUILD(payload, count)` (R275). -/
  | tcBuild (payload : Payload) (count : Nat)
  /-- `TC.ADVANCE(t)` (R280). -/
  | tcAdvance (t : TimecodeFrame)
  deriving DecidableEq, Repr

end Sys2Proof
end

