-- ==== Sys2Proof/WellFormed.lean ====
section
/-! DEFINITION. Which operands the spec admits, for a block with configuration `c`. The types already exclude the
level `Unknown` where it is never passed (`Wave`). -/

namespace Sys2Proof

/-- R6, R83: the operand is a `W`-bit word. -/
def SampleWord.fits (c : Config) (w : SampleWord) : Bool := decide (w.toNat < 2 ^ c.width)

/-- The operand checks of R83 and R140 (a sample is a `W`-bit word), R160 (`FS` is a positive rational) and R249
(`v` is a `u8`). A user nibble's value is any natural (R255) and so are the other naturals. -/
def Instr.wf (c : Config) : Instr → Bool
  | .reset => true
  | .pushSample w => SampleWord.fits c w
  | .idle => true
  | .invalidate => true
  | .calPush w => SampleWord.fits c w
  | .calRecompute => true
  | .calClassify w => SampleWord.fits c w
  | .calInvalidate => true
  | .thrDerive fs => fs.positive
  | .zdStep _ => true
  | .zdReset => true
  | .bsmStep w => SampleWord.fits c w
  | .bsmExpect _ _ => true
  | .bsmResolve _ _ _ => true
  | .bsmInvalidate => true
  | .faSampleReceived => true
  | .faShiftBit _ => true
  | .faGetData => true
  | .faInvalidate => true
  | .ffcGetFrames _ => true
  | .ffcGetSeconds _ => true
  | .ffcGetMinutes _ => true
  | .ffcGetHours _ => true
  | .ffcGetUb1 _ => true
  | .ffcGetUb2 _ => true
  | .ffcGetUb3 _ => true
  | .ffcGetUb4 _ => true
  | .ffcGetUb5 _ => true
  | .ffcGetUb6 _ => true
  | .ffcGetUb7 _ => true
  | .ffcGetUb8 _ => true
  | .ffcSetFrames _ v => decide (v ≤ 255)
  | .ffcSetSeconds _ v => decide (v ≤ 255)
  | .ffcSetMinutes _ v => decide (v ≤ 255)
  | .ffcSetHours _ v => decide (v ≤ 255)
  | .ffcSetUb1 _ _ => true
  | .ffcSetUb2 _ _ => true
  | .ffcSetUb3 _ _ => true
  | .ffcSetUb4 _ _ => true
  | .ffcSetUb5 _ _ => true
  | .ffcSetUb6 _ _ => true
  | .ffcSetUb7 _ _ => true
  | .ffcSetUb8 _ _ => true
  | .fpsClassify _ => true
  | .tcBuild _ _ => true
  | .tcAdvance _ => true

end Sys2Proof
end

