-- ==== Sys2Proof/Decode.lean ====
section
/-! DEFINITION. The command interface of 30_encoding.md section 2: the control word of R82 and its operand (R83),
the decoder, and after it the encoder. A command is the 2-bit control word plus the sample operand (R97). The spec
lays the two out on ports, not in memory; the one-number form `sample_in ++ ctl` and its bytes are this model's own
serialisation of the ports (log 7). -/

namespace Sys2Proof

/-- A row of the table of R82: the `match` and `mask` of spec/opcode_table.json on `ctl`. -/
structure CtlRow where
  pattern : BitVec 2
  mask    : BitVec 2
  deriving DecidableEq, Repr

/-- `ctl = 0b1x` is `RESET`. -/
def CtlRow.reset : CtlRow := { pattern := 0b10#2, mask := 0b10#2 }
/-- `ctl = 0b01` is `PUSH_SAMPLE`. -/
def CtlRow.pushSample : CtlRow := { pattern := 0b01#2, mask := 0b11#2 }
/-- `ctl = 0b00` is `IDLE`. -/
def CtlRow.idle : CtlRow := { pattern := 0b00#2, mask := 0b11#2 }

/-- Does the control word match the row? -/
def CtlRow.selects (r : CtlRow) (ctl : BitVec 2) : Bool := decide (ctl &&& r.mask = r.pattern)

/-- The command at the ports (R82, R83). `sample_valid` and `sample_in` are ignored when `rst = 1`, `sample_in` when
neither is 1 (R82, R297 (a)). "All four values of `ctl` are defined": the last arm is the row `IDLE`, which is all
that the two rows before it leave. -/
def decodePorts (p : Ports) : Instr :=
  if CtlRow.reset.selects p.ctl then .reset
  else if CtlRow.pushSample.selects p.ctl then .pushSample p.sampleIn
  else .idle

/-- The serialised command: `ctl` in bits 1..0 (the numbering of R82), `sample_in` from bit 2 up (log 7). -/
abbrev CommandWord := BitVec 34

/-- The ports a command word stands for. -/
def portsOfWord (w : CommandWord) : Ports :=
  { rst := w.getLsbD 1, sampleValid := w.getLsbD 0, sampleIn := w.extractLsb' 2 32 }

/-- The command word of the ports. -/
def wordOfPorts (p : Ports) : CommandWord := p.sampleIn ++ p.ctl

/-- Why bytes are no command. -/
inductive DecodeError where
  /-- Not exactly the five bytes of one command word. -/
  | notOneCommand
  /-- A bit above the 34 of the command word is set. -/
  | bitsAboveCommand
  deriving DecidableEq, Repr

/-- The decoder on bytes, least significant byte first: total, rejecting by name (log 7). -/
def decode : List Byte → Except DecodeError Instr
  | [b0, b1, b2, b3, b4] =>
    if b4.toNat < 4 then
      .ok (decodePorts (portsOfWord ((b4 ++ b3 ++ b2 ++ b1 ++ b0 : BitVec 40).setWidth 34)))
    else .error .bitsAboveCommand
  | _ => .error .notOneCommand

/-- The low `8 * k` bits of `w` as `k` bytes, least significant first. -/
def bytesOfNat : Nat → Nat → List Byte
  | 0, _ => []
  | k + 1, w => BitVec.ofNat 8 w :: bytesOfNat k (w / 256)

/-- The instruction of the host's numbering of the table: bit 0 is `ctl[0]`; every bit above `nbits` is 0. -/
def decodeTableWord (nbits w : Nat) : Option Instr :=
  if w < 2 ^ nbits ∧ w < 2 ^ 40 then (decode (bytesOfNat 5 w)).toOption else none

/-- The ports that select a command (R82), written from the same rows. The micro-operations and the reference
functions have none (R80: "never by the host directly"; "no control word selects"). A RESET or IDLE is presented
with `sample_in = 0`, which it ignores. -/
def encodePorts : Instr → Option Ports
  | .reset => some { rst := CtlRow.reset.pattern.getLsbD 1, sampleValid := CtlRow.reset.pattern.getLsbD 0, sampleIn := 0 }
  | .pushSample w =>
    some { rst := CtlRow.pushSample.pattern.getLsbD 1, sampleValid := CtlRow.pushSample.pattern.getLsbD 0, sampleIn := w }
  | .idle => some { rst := CtlRow.idle.pattern.getLsbD 1, sampleValid := CtlRow.idle.pattern.getLsbD 0, sampleIn := 0 }
  | .invalidate => none
  | .calPush _ => none
  | .calRecompute => none
  | .calClassify _ => none
  | .calInvalidate => none
  | .thrDerive _ => none
  | .zdStep _ => none
  | .zdReset => none
  | .bsmStep _ => none
  | .bsmExpect _ _ => none
  | .bsmResolve _ _ _ => none
  | .bsmInvalidate => none
  | .faSampleReceived => none
  | .faShiftBit _ => none
  | .faGetData => none
  | .faInvalidate => none
  | .ffcGetFrames _ => none
  | .ffcGetSeconds _ => none
  | .ffcGetMinutes _ => none
  | .ffcGetHours _ => none
  | .ffcGetUb1 _ => none
  | .ffcGetUb2 _ => none
  | .ffcGetUb3 _ => none
  | .ffcGetUb4 _ => none
  | .ffcGetUb5 _ => none
  | .ffcGetUb6 _ => none
  | .ffcGetUb7 _ => none
  | .ffcGetUb8 _ => none
  | .ffcSetFrames _ _ => none
  | .ffcSetSeconds _ _ => none
  | .ffcSetMinutes _ _ => none
  | .ffcSetHours _ _ => none
  | .ffcSetUb1 _ _ => none
  | .ffcSetUb2 _ _ => none
  | .ffcSetUb3 _ _ => none
  | .ffcSetUb4 _ _ => none
  | .ffcSetUb5 _ _ => none
  | .ffcSetUb6 _ _ => none
  | .ffcSetUb7 _ _ => none
  | .ffcSetUb8 _ _ => none
  | .fpsClassify _ => none
  | .tcBuild _ _ => none
  | .tcAdvance _ => none

/-- The command's bytes. -/
def encode (i : Instr) : Option (List Byte) :=
  (encodePorts i).map fun p => bytesOfNat 5 (wordOfPorts p).toNat

end Sys2Proof
end

