-- ==== Sys2Proof/Machine/State.lean ====
section
/-! DEFINITION. The state record of 10_state.md (R20 to R36), the outputs of a step (R41), why a step can stop,
and the state right after reset (R50). -/

namespace Sys2Proof.Machine

/-- The sample memory `hist` (R20, R60): pairs of an index in `0..254` and the sample stored there, as an integer
(R11). Canonical form (`Memory.wf`): indices strictly rising, none above 254, and no pair that holds what an
unlisted index reads as (log 9). -/
abbrev Memory := List (Nat × Int)

/-- What an index that is not listed reads as: the reset content of R50 ("all 0"). -/
abbrev unlisted : Int := 0

/-- The canonical form from index `from` on. -/
def Memory.wfFrom (start : Nat) : Memory → Bool
  | [] => true
  | (i, v) :: rest => decide (start ≤ i) && decide (i < historyLength) && decide (v ≠ unlisted) && Memory.wfFrom (i + 1) rest

/-- The canonical form. -/
def Memory.wf (m : Memory) : Bool := Memory.wfFrom 0 m

/-- The record a command step returns (R41). -/
structure Out where
  level   : Level
  bit     : Option Bool
  anomaly : Anomaly
  frame   : Option TimecodeFrame
  deriving DecidableEq, Repr

/-- What RESET and IDLE return (R41, R120, R122). -/
def Out.quiet : Out := { level := .unknown, bit := none, anomaly := .none, frame := none }

/-- What BSM.STEP and BSM.RESOLVE return (R180, R184). -/
structure BitResult where
  level   : Level
  bit     : Option Bool
  anomaly : Anomaly
  deriving DecidableEq, Repr

/-- What FA.GET_DATA returns when there is a frame (R212). -/
structure RawFrame where
  payload     : Payload
  sampleCount : Nat
  deriving DecidableEq, Repr

/-- What a micro-operation or a reference function returns when it is run on its own (log 4). -/
inductive Ret where
  /-- No result (the operations that only change state). -/
  | unit
  /-- CAL.PUSH, CAL.CLASSIFY. -/
  | level (l : Level)
  /-- THR.DERIVE. -/
  | thresholds (t : Thresholds)
  /-- ZD.STEP: a lock event or not. -/
  | lock (b : Bool)
  /-- BSM.EXPECT. -/
  | event (e : Event)
  /-- BSM.STEP, BSM.RESOLVE. -/
  | bitResult (r : BitResult)
  /-- FA.GET_DATA. -/
  | rawFrame (f : Option RawFrame)
  /-- FFC.GET_FRAMES, SECONDS, MINUTES, HOURS. -/
  | digits (v : Byte)
  /-- FFC.GET_UB1 to FFC.GET_UB8. -/
  | nibble (v : Nibble)
  /-- The setters. -/
  | payload (p : Payload)
  /-- FPS.CLASSIFY. -/
  | fps (f : Fps)
  /-- TC.BUILD, TC.ADVANCE. -/
  | frame (t : TimecodeFrame)
  deriving DecidableEq, Repr

/-- The phases of R30 and R127: functions of the state, not state. -/
inductive Phase where
  | calibrating | searching | locked
  deriving DecidableEq, Repr

/-- The machine. The first sixteen fields are the whole state record of 10_state.md; then the configuration
(log 1), the commands still to come (log 2), the outputs of the last command (log 3), and the result of an operation run on
its own (log 4). -/
structure State where
  /-- `hist[0..254]` (R20). -/
  hist       : Memory
  /-- `hist_cursor` (R21; an unbounded natural, R46). -/
  histCursor : Nat
  /-- `cal_count` (R22). -/
  calCount   : Nat
  /-- `cal_min` (R23). -/
  calMin     : Int
  /-- `cal_max` (R24). -/
  calMax     : Int
  /-- `cal_thr` (R25). -/
  calThr     : Int
  /-- `cal_valid` (R26). -/
  calValid   : Bool
  /-- `locked` (R27). -/
  locked     : Bool
  /-- `bit_count` (R28). -/
  bitCount   : Nat
  /-- `last_level` (R29). -/
  lastLevel  : Level
  /-- `mid_seen` (R31). -/
  midSeen    : Bool
  /-- `zd_level` (R32). -/
  zdLevel    : Level
  /-- `zd_count` (R33). -/
  zdCount    : Nat
  /-- `data` (R34). -/
  data       : Payload
  /-- `sync_word` (R35). -/
  syncWord   : BitVec 16
  /-- `fdsc` (R36). -/
  fdsc       : Nat
  /-- `cfg` (R5, R40): no operation writes it. -/
  cfg        : Config
  /-- The ports at the coming clock edges, the next one first; when none is left the ports are idle. -/
  stimulus   : List Ports
  /-- The outputs of the last command step. -/
  out        : Out
  /-- The result of the last micro-operation or reference function run on its own. -/
  ret        : Ret
  deriving DecidableEq, Repr

/-- The block itself has no fault: "There is no fatal/unrecoverable error in the core" (R290), "Nothing in this block
is `stuck`" (93_implementation_defined.md). The anomalies of R291 are next states. -/
inductive Fault where
  /-- Raised by `execCalPush`, `execBsmStep` and `execPushSample` in a state whose `hist_cursor` is above 254, where
  `MemWrite(hist_cursor, 1, s)` names no location (R11, R62). No state that meets `Inv` is one. Safe (log 21). -/
  | noSuchRingLocation
  deriving DecidableEq, Repr

/-- Why a step can answer nothing. -/
inductive Refusal where
  /-- Raised by `exec` alone, for an instruction that has no meaning yet. Safe. -/
  | notModelled (mnemonic : String)
  /-- Raised by `step` and `construct`: the configuration fails `WF_CFG` (R7: "A model should refuse a
  configuration that fails `WF_CFG`"; 93 U2). Safe (log 10). -/
  | illFormedConfig
  /-- Raised by `execThrDerive`: the operand is not a positive rational (R160). Safe (log 13). -/
  | rateNotPositive
  /-- Raised by `execTcAdvance`: a field that would be incremented holds 255 (R280 (d): "A model refuses outside
  it"; 93 U6). Safe. -/
  | advanceOutsideDomain
  deriving DecidableEq, Repr

/-- Every field of 10_state.md at its RESET value (R50), for the configuration `c`; no command presented yet. -/
def State.resetWith (c : Config) : State :=
  { hist := [], histCursor := 0, calCount := 0, calMin := 0, calMax := 0, calThr := 0, calValid := false
    locked := false, bitCount := 0, lastLevel := .unknown, midSeen := false, zdLevel := .unknown, zdCount := 0
    data := 0, syncWord := 0, fdsc := 0
    cfg := c, stimulus := [], out := Out.quiet, ret := .unit }

/-- The machine right after RESET (R50), in the reference configuration (log 1). -/
def State.reset : State := State.resetWith Config.reference

end Sys2Proof.Machine
end

