-- ==== Sys2Proof/Machine/Operands.lean ====
section
/-! DEFINITION. Operand forms and value computations: samples as integers (R9, R83), truncating division (R9), the
payload word (R65), fields of the payload (R231, R249), the half-sync signature (R93). -/

namespace Sys2Proof.Machine

/-- `int(s)` (R9, R83): bits `W-1..0` of the lane, as a two's-complement number when `SIGNED`, as a natural when not. -/
def sampleInt (c : Config) (w : SampleWord) : Int :=
  let u := w.toNat % 2 ^ c.width
  if c.signed && decide (2 ^ (c.width - 1) ≤ u) then (u : Int) - (2 ^ c.width : Nat) else u

/-- The word on the sample lane that denotes `v`: `v mod 2^W` (R98). -/
def sampleWord (c : Config) (v : Int) : SampleWord :=
  BitVec.ofNat 32 (v % (2 ^ c.width : Nat)).toNat

/-- `tdiv(a, b)` (R9): division truncating toward zero. PRESUMED (log 14), unsafe: the spec marks the rounding as
general knowledge (93 G1). -/
def tdiv (a b : Int) : Int := Int.tdiv a b

/-- The least element of a non-empty list (R11). -/
def listMin : List Int → Int
  | [] => 0
  | x :: xs => xs.foldl (fun a b => if b < a then b else a) x

/-- The greatest element of a non-empty list (R11). -/
def listMax : List Int → Int
  | [] => 0
  | x :: xs => xs.foldl (fun a b => if a < b then b else a) x

/-- `rev64(x)` (R11): bit `i` of the result is bit `63 - i` of `x`. -/
def rev64 (x : Payload) : Payload := x.reverse

/-- `FIELD_GET(P, lo, w)` (R231): `P[lo+w-1 : lo]` as a natural. -/
def fieldGet (p : Payload) (lo w : Nat) : Nat := (p.extractLsb' lo w).toNat

/-- The bits `lo+w-1 .. lo` set, all others clear. -/
def fieldMask (lo w : Nat) : Payload := BitVec.ofNat 64 (2 ^ w - 1) <<< lo

/-- `FIELD_SET(P, lo, w, v)` (R231): `v mod 2^w` in `P[lo+w-1 : lo]`, all other bits as they were. -/
def fieldSet (p : Payload) (lo w v : Nat) : Payload :=
  (p &&& ~~~ fieldMask lo w) ||| (BitVec.ofNat 64 (v % 2 ^ w) <<< lo)

/-- `units` of `SPLIT(v)` (R249). -/
def splitUnits (v : Nat) : Nat := v % 10

/-- `tens` of `SPLIT(v)` (R249). -/
def splitTens (v : Nat) : Nat := (v - v % 10) / 10

/-- A two-digit quantity (R94): `units + 10 * tens`, a `u8`; units are 4 bits at `lo`, tens `w` bits at `hi`. -/
def digitsGet (p : Payload) (lo hi w : Nat) : Byte := BitVec.ofNat 8 (fieldGet p lo 4 + 10 * fieldGet p hi w)

/-- Encode of a two-digit quantity (R94): units first, then tens, each cut to its field. -/
def digitsSet (p : Payload) (lo hi w v : Nat) : Payload :=
  fieldSet (fieldSet p lo 4 (splitUnits v)) hi w (splitTens v)

/-- A user nibble (R240 to R247). -/
def nibbleGet (p : Payload) (lo : Nat) : Nibble := p.extractLsb' lo 4

/-- `SIG(data)` (R93): `data[15:8] = 0x3F` and `data[7:0] = 0xFD`. -/
def sig (data : Payload) : Bool :=
  decide (data.extractLsb' 8 8 = 0x3F#8) && decide (data.extractLsb' 0 8 = 0xFD#8)

end Sys2Proof.Machine
end

