-- ==== Sys2Proof/Machine/Flags.lean ====
section
/-! DEFINITION. The block's three flags (R45) and the per-step `changed` (R182): how each is computed. -/

namespace Sys2Proof.Machine

/-- `SMIN <= v <= SMAX` (R6). -/
def representable (c : Config) (v : Int) : Bool := decide (c.smin ≤ v) && decide (v ≤ c.smax)

/-- `cal_valid` after a recomputation (R141): both bounds and the midpoint are representable (D34). -/
def validFlag (c : Config) (mn mx th : Int) : Bool :=
  representable c mn && representable c mx && representable c th

/-- `changed` of COUNT_AND_COMPARE (R182). -/
def levelChanged (last level : Level) : Bool := decide (last ≠ .unknown) && decide (level ≠ last)

/-- The lock event of ZD.STEP at a change sample (R165): the run that ended has a full bit's length. -/
def fullBitRun (c : Config) (run : Nat) : Bool := decide (c.thr.minBit ≤ run) && decide (run ≤ c.thr.maxBit)

/-- `mid_seen` after a sample inside the half-bit window (R184): set by a change, else as it was. -/
def midSeenAfter (midSeen changed : Bool) : Bool := midSeen || changed

/-- The phase (R30): `locked = 1` is the locked phase; else `cal_valid` decides between searching and calibrating.
DESIGN CHOICE (log 19), safe: where `cal_valid = 0` and `locked = 1` two conditions of R30 hold at once; the model
answers the locked phase. No state that meets `Inv` is one. -/
def phase (s : State) : Phase :=
  if s.locked then .locked else if s.calValid then .searching else .calibrating

end Sys2Proof.Machine
end

