-- ==== Sys2Proof/Machine/Ops.lean ====
section
/-! DEFINITION. The shared operations: MemRead and MemWrite on the ring (R11, R68), the INVALIDATE cascade and its
parts (R126, R143, R166, R185, R213), `raise Invalidate` (R11), which is this block's taking of an exception (R299),
and the writing of results.

There is no return from an invalidation: "There is no return operation" (R301). Recovery is the ordinary per-sample
sequence run from the invalidated state. -/

namespace Sys2Proof.Machine

/-- `MemRead(i, 1)` (R11): the sample at index `i`. -/
def memRead : Memory → Nat → Int
  | [], _ => unlisted
  | (j, v) :: rest, i => if i = j then v else memRead rest i

/-- `MemWrite(i, 1, v)` (R11), keeping the canonical form (log 9). -/
def memWrite : Memory → Nat → Int → Memory
  | [], i, v => if v = unlisted then [] else [(i, v)]
  | (j, u) :: rest, i, v =>
    if i < j then (if v = unlisted then (j, u) :: rest else (i, v) :: (j, u) :: rest)
    else if i = j then (if v = unlisted then rest else (j, v) :: rest)
    else (j, u) :: memWrite rest i v

/-- The 255 entries in index order (R68: "255 reads `MemRead(i, 1)`, `i = 0..254`"). Irreducible, so that no proof
evaluates the scan by accident; the kernel evaluates it as any definition. -/
@[irreducible] def ringContents (m : Memory) : List Int := (List.range historyLength).map (memRead m)

/-- The next write index, `(hist_cursor + 1) mod 255` (R140). -/
def cursorNext (i : Nat) : Nat := (i + 1) % historyLength

/-- CAL.INVALIDATE (R143): `hist` and `hist_cursor` stay (D33). -/
def calInvalidate (s : State) : State :=
  { s with calMin := 0, calMax := 0, calThr := 0, calCount := 0, calValid := false }

/-- ZD.RESET (R166). -/
def zdReset (s : State) : State := { s with zdLevel := .unknown, zdCount := 0 }

/-- BSM.INVALIDATE (R185), with ZD.RESET. -/
def bsmInvalidate (s : State) : State :=
  zdReset { s with locked := false, bitCount := 0, lastLevel := .unknown, midSeen := false }

/-- FA.INVALIDATE (R213). -/
def faInvalidate (s : State) : State := { s with data := 0, syncWord := 0, fdsc := 0 }

/-- INVALIDATE (R126): the three parts, "so their order does not matter". -/
def invalidate (s : State) : State := faInvalidate (bsmInvalidate (calInvalidate s))

/-- `raise Invalidate(code)` (R11, R184, R299): INVALIDATE, no bit, the code reported, and the level as classified
before. Nothing is saved (R299) and control goes nowhere (R300). -/
def raiseInvalidate (code : Anomaly) (level : Level) (s : State) : BitResult × State :=
  ({ level := level, bit := none, anomaly := code }, invalidate s)

/-- A command's outputs (R41). -/
def setOut (o : Out) (s : State) : State := { s with out := o }

/-- The outcome `t` of an operation that writes the ring at `hist_cursor` (R140), if the ring has that location: "What is
fixed: ring indices `0..254`, nothing else" (R62; log 21). -/
def writesRing (s t : State) : Host.Outcome State Fault Refusal :=
  if s.histCursor < historyLength then .next t else .fault .noSuchRingLocation

/-- The result of an operation run on its own (log 4). -/
def setRet (r : Ret) (s : State) : State := { s with ret := r }

end Sys2Proof.Machine
end

