-- ==== Sys2Proof/Machine/Calibrator.lean ====
section
/-! DEFINITION. The Amplitude Calibrator, 41_calibrator.md. -/

namespace Sys2Proof.Machine

/-- CAL.RECOMPUTE (R141). -/
def calRecompute (s : State) : State :=
  let mn := listMin (ringContents s.hist)
  let mx := listMax (ringContents s.hist)
  let th := tdiv mn 2 + tdiv mx 2
  { s with calMin := mn, calMax := mx, calThr := th, calValid := validFlag s.cfg mn mx th }

/-- CAL.CLASSIFY (R142): ties resolve to `Low`. -/
def calClassify (x : Int) (s : State) : Level :=
  if s.calValid = false then .unknown else if s.calThr < x then .high else .low

/-- CAL.PUSH up to the count (R140): store, advance the cursor, count. -/
def calStore (x : Int) (s : State) : State :=
  { s with hist := memWrite s.hist s.histCursor x, histCursor := cursorNext s.histCursor, calCount := s.calCount + 1 }

/-- The recomputation of CAL.PUSH (R140): when the count reaches 255. -/
def calWrap (s : State) : State :=
  if s.calCount = historyLength then calRecompute { s with calCount := 0 } else s

/-- CAL.PUSH (R140): the classification uses the threshold as it stands after a recomputation (D7). -/
def calPush (x : Int) (s : State) : Level × State :=
  let s' := calWrap (calStore x s)
  (calClassify x s', s')

/-- CAL.PUSH (R140). -/
def execCalPush (w : SampleWord) (s : State) : Host.Outcome State Fault Refusal :=
  let r := calPush (sampleInt s.cfg w) s
  writesRing s (setRet (.level r.1) r.2)

/-- CAL.RECOMPUTE (R141). -/
def execCalRecompute (s : State) : Host.Outcome State Fault Refusal := .next (setRet .unit (calRecompute s))

/-- CAL.CLASSIFY (R142). -/
def execCalClassify (w : SampleWord) (s : State) : Host.Outcome State Fault Refusal :=
  .next (setRet (.level (calClassify (sampleInt s.cfg w) s)) s)

/-- CAL.INVALIDATE (R143). -/
def execCalInvalidate (s : State) : Host.Outcome State Fault Refusal := .next (setRet .unit (calInvalidate s))

end Sys2Proof.Machine
end

