-- ==== Sys2Proof/Machine/Synchronizer.lean ====
section
/-! DEFINITION. The thresholds and the Zero Detector, 42_synchronizer.md. -/

namespace Sys2Proof.Machine

/-- `floor(FS * k / d)` for a bit-duration bound of `k / d` seconds. -/
def floorScaled (fs : Rate) (k d : Nat) : Nat := fs.num * k / (fs.den * d)

/-- `ceil(FS * k / d)`. -/
def ceilScaled (fs : Rate) (k d : Nat) : Nat := (fs.num * k + (fs.den * d - 1)) / (fs.den * d)

/-- THR.DERIVE (R160, R161, R162), with `TMIN = 1217/3000000` and `TMAX = 1592/3000000` seconds: outward rounding,
the half-bit bounds halved and then widened by two samples, the lower one clamped at 0 (natural subtraction; D9). -/
def thrDerive (fs : Rate) : Thresholds :=
  { minBit := floorScaled fs 1217 3000000
    maxBit := ceilScaled fs 1592 3000000
    minHalf := floorScaled fs 1217 6000000 - 2
    maxHalf := ceilScaled fs 1592 6000000 + 2 }

/-- A configuration whose thresholds are derived from its rate (R5, R160). -/
def derivedConfig (width : Nat) (signed : Bool) (fs : Rate) : Config :=
  { width := width, signed := signed, fs := fs, thr := thrDerive fs }

/-- Construction (R5, R7, R323): a configuration that fails `WF_CFG` is refused, any other gives the RESET state. -/
def construct (c : Config) : Host.Outcome State Fault Refusal :=
  if c.wf then .next (State.resetWith c) else .refused .illFormedConfig

/-- ZD.STEP (R165): the first classified sample only records the level; a change tests the run that ended; a run
past `max_bit` restarts the count. -/
def zdStep (level : Wave) (s : State) : Bool × State :=
  if s.zdLevel = .unknown then (false, { s with zdLevel := level.level, zdCount := 0 })
  else
    let run := s.zdCount + 1
    if level.level ≠ s.zdLevel then (fullBitRun s.cfg run, { s with zdLevel := level.level, zdCount := 0 })
    else if s.cfg.thr.maxBit < run then (false, { s with zdCount := 0 })
    else (false, { s with zdCount := run })

/-- THR.DERIVE (R160). -/
def execThrDerive (fs : Rate) (s : State) : Host.Outcome State Fault Refusal :=
  if fs.positive then .next (setRet (.thresholds (thrDerive fs)) s) else .refused .rateNotPositive

/-- ZD.STEP (R165): the caller sets `locked`, not this operation. -/
def execZdStep (level : Wave) (s : State) : Host.Outcome State Fault Refusal :=
  let r := zdStep level s
  .next (setRet (.lock r.1) r.2)

/-- ZD.RESET (R166). -/
def execZdReset (s : State) : Host.Outcome State Fault Refusal := .next (setRet .unit (zdReset s))

end Sys2Proof.Machine
end

