-- ==== Sys2Proof/Machine/BitMachine.lean ====
section
/-! DEFINITION. The Bit-Level State Machine, 43_bit_state_machine.md. -/

namespace Sys2Proof.Machine

/-- LOCK (R181): `mid_seen` is not written. -/
def lockOn (s : State) : State := { s with bitCount := 0, lastLevel := .unknown, locked := true }

/-- COUNT_AND_COMPARE (R182). -/
def countAndCompare (level : Wave) (s : State) : Bool × State :=
  (levelChanged s.lastLevel level.level, { s with bitCount := s.bitCount + 1, lastLevel := level.level })

/-- BSM.EXPECT (R183): the tests in the rule's order. -/
def bsmExpect (t : Thresholds) (n : Nat) (mid : Bool) : Event :=
  if n < t.minHalf then .mustBeSteady
  else if n ≤ t.maxHalf then (if mid then .mustBeSteady else .canChangeInMiddle)
  else if n < t.minBit then .mustBeSteady
  else if n ≤ t.maxBit then .canChangeInEnd
  else .overdue

/-- No bit and no anomaly (R184). -/
def noBit (level : Wave) : BitResult := { level := level.level, bit := none, anomaly := .none }

/-- BSM.RESOLVE (R184): strict invalidation. -/
def bsmResolve (ev : Event) (changed : Bool) (level : Wave) (s : State) : BitResult × State :=
  match ev with
  | .overdue => raiseInvalidate .overdue level.level s
  | .mustBeSteady => if changed then raiseInvalidate .illegal level.level s else (noBit level, s)
  | .canChangeInMiddle => (noBit level, { s with midSeen := midSeenAfter s.midSeen changed })
  | .canChangeInEnd =>
    if changed then
      ({ level := level.level, bit := some s.midSeen, anomaly := .none }, { s with bitCount := 0, midSeen := false })
    else (noBit level, s)

/-- Steps 3 to 5 of BSM.STEP (R180), on a locked block. -/
def bsmTrack (level : Wave) (s : State) : BitResult × State :=
  let r := countAndCompare level s
  bsmResolve (bsmExpect r.2.cfg.thr r.2.bitCount r.2.midSeen) r.1 level r.2

/-- Step 2 of BSM.STEP (R180): while not locked the zero detector decides; on a lock event fall through (D14). -/
def bsmClassified (level : Wave) (s : State) : BitResult × State :=
  if s.locked then bsmTrack level s
  else
    let r := zdStep level s
    if r.1 then bsmTrack level (lockOn r.2) else (noBit level, r.2)

/-- BSM.STEP (R180). -/
def bsmStep (x : Int) (s : State) : BitResult × State :=
  let r := calPush x s
  match r.1.wave? with
  | none => ({ level := .unknown, bit := none, anomaly := .cal }, r.2)
  | some level => bsmClassified level r.2

/-- BSM.STEP (R180). -/
def execBsmStep (w : SampleWord) (s : State) : Host.Outcome State Fault Refusal :=
  let r := bsmStep (sampleInt s.cfg w) s
  writesRing s (setRet (.bitResult r.1) r.2)

/-- BSM.EXPECT (R183). -/
def execBsmExpect (n : Nat) (mid : Bool) (s : State) : Host.Outcome State Fault Refusal :=
  .next (setRet (.event (bsmExpect s.cfg.thr n mid)) s)

/-- BSM.RESOLVE (R184). -/
def execBsmResolve (ev : Event) (changed : Bool) (level : Wave) (s : State) : Host.Outcome State Fault Refusal :=
  let r := bsmResolve ev changed level s
  .next (setRet (.bitResult r.1) r.2)

/-- BSM.INVALIDATE (R185). -/
def execBsmInvalidate (s : State) : Host.Outcome State Fault Refusal := .next (setRet .unit (bsmInvalidate s))

end Sys2Proof.Machine
end

