-- ==== Sys2Proof/Machine/FrameAssembler.lean ====
section
/-! DEFINITION. The Frame Assembler, 44_frame_assembler.md. -/

namespace Sys2Proof.Machine

/-- FA.SAMPLE_RECEIVED (R210). -/
def faSampleReceived (s : State) : State := { s with fdsc := if sig s.data then 0 else s.fdsc + 1 }

/-- FA.SHIFT_BIT (R211): `data <- data[62:0] ++ b`, `sync_word <- sync_word[14:0] ++ data[63]`. -/
def faShiftBit (b : Bool) (s : State) : State :=
  { s with
    data := (s.data.extractLsb' 0 63 ++ BitVec.ofBool b : BitVec (63 + 1))
    syncWord := (s.syncWord.extractLsb' 0 15 ++ BitVec.ofBool (s.data.getLsbD 63) : BitVec (15 + 1)) }

/-- FA.GET_DATA (R212): value copies, no side effect. DEDUCED (log 20), unsafe: the two leading zeros of the sync word may
be the zeros that RESET or INVALIDATE left (R64: "count as 0"), so a frame can come after 78 bits, where R213 (corner
cases) says that "at least 80 decoded bits" are needed; the registers are followed. -/
def faGetData (s : State) : Option RawFrame :=
  if s.syncWord = syncConstant then some { payload := s.data, sampleCount := s.fdsc } else none

/-- FA.SAMPLE_RECEIVED (R210). -/
def execFaSampleReceived (s : State) : Host.Outcome State Fault Refusal := .next (setRet .unit (faSampleReceived s))

/-- FA.SHIFT_BIT (R211). -/
def execFaShiftBit (b : Bool) (s : State) : Host.Outcome State Fault Refusal := .next (setRet .unit (faShiftBit b s))

/-- FA.GET_DATA (R212). -/
def execFaGetData (s : State) : Host.Outcome State Fault Refusal := .next (setRet (.rawFrame (faGetData s)) s)

/-- FA.INVALIDATE (R213). -/
def execFaInvalidate (s : State) : Host.Outcome State Fault Refusal := .next (setRet .unit (faInvalidate s))

end Sys2Proof.Machine
end

