-- ==== Sys2Proof/Machine/FieldCodec.lean ====
section
/-! DEFINITION. The Frame Field Codec, 45_field_codec.md: pure functions of a payload word `P` in the indexing of
R91. "No operation of this file reads or writes any register" (R230): each meaning only records its result. -/

namespace Sys2Proof.Machine

/-- FFC.GET_FRAMES (R232): `P[3:0] + 10 * P[9:8]`. -/
def ffcGetFrames (p : Payload) : Byte := digitsGet p 0 8 2

/-- FFC.GET_SECONDS (R233): `P[19:16] + 10 * P[26:24]`. -/
def ffcGetSeconds (p : Payload) : Byte := digitsGet p 16 24 3

/-- FFC.GET_MINUTES (R234): `P[35:32] + 10 * P[42:40]`. -/
def ffcGetMinutes (p : Payload) : Byte := digitsGet p 32 40 3

/-- FFC.GET_HOURS (R235): `P[51:48] + 10 * P[57:56]`. -/
def ffcGetHours (p : Payload) : Byte := digitsGet p 48 56 2

/-- FFC.GET_UB1 (R240): `P[7:4]`. -/
def ffcGetUb1 (p : Payload) : Nibble := nibbleGet p 4

/-- FFC.GET_UB2 (R241): `P[15:12]`. -/
def ffcGetUb2 (p : Payload) : Nibble := nibbleGet p 12

/-- FFC.GET_UB3 (R242): `P[23:20]`. -/
def ffcGetUb3 (p : Payload) : Nibble := nibbleGet p 20

/-- FFC.GET_UB4 (R243): `P[31:28]`. -/
def ffcGetUb4 (p : Payload) : Nibble := nibbleGet p 28

/-- FFC.GET_UB5 (R244): `P[39:36]`. -/
def ffcGetUb5 (p : Payload) : Nibble := nibbleGet p 36

/-- FFC.GET_UB6 (R245): `P[47:44]`. -/
def ffcGetUb6 (p : Payload) : Nibble := nibbleGet p 44

/-- FFC.GET_UB7 (R246): `P[55:52]`. -/
def ffcGetUb7 (p : Payload) : Nibble := nibbleGet p 52

/-- FFC.GET_UB8 (R247): `P[63:60]`. -/
def ffcGetUb8 (p : Payload) : Nibble := nibbleGet p 60

/-- FFC.SET_FRAMES (R250): units into `P[3:0]`, tens into `P[9:8]`. -/
def ffcSetFrames (p : Payload) (v : Nat) : Payload := digitsSet p 0 8 2 v

/-- FFC.SET_SECONDS (R251): units into `P[19:16]`, tens into `P[26:24]`. -/
def ffcSetSeconds (p : Payload) (v : Nat) : Payload := digitsSet p 16 24 3 v

/-- FFC.SET_MINUTES (R252): units into `P[35:32]`, tens into `P[42:40]`. -/
def ffcSetMinutes (p : Payload) (v : Nat) : Payload := digitsSet p 32 40 3 v

/-- FFC.SET_HOURS (R253): units into `P[51:48]`, tens into `P[57:56]`. -/
def ffcSetHours (p : Payload) (v : Nat) : Payload := digitsSet p 48 56 2 v

/-- FFC.SET_UB1 (R255): `v mod 16` into `P[7:4]`. -/
def ffcSetUb1 (p : Payload) (v : Nat) : Payload := fieldSet p 4 4 v

/-- FFC.SET_UB2 (R256): `v mod 16` into `P[15:12]`. -/
def ffcSetUb2 (p : Payload) (v : Nat) : Payload := fieldSet p 12 4 v

/-- FFC.SET_UB3 (R257): `v mod 16` into `P[23:20]`. -/
def ffcSetUb3 (p : Payload) (v : Nat) : Payload := fieldSet p 20 4 v

/-- FFC.SET_UB4 (R258): `v mod 16` into `P[31:28]`. -/
def ffcSetUb4 (p : Payload) (v : Nat) : Payload := fieldSet p 28 4 v

/-- FFC.SET_UB5 (R259): `v mod 16` into `P[39:36]`. -/
def ffcSetUb5 (p : Payload) (v : Nat) : Payload := fieldSet p 36 4 v

/-- FFC.SET_UB6 (R260): `v mod 16` into `P[47:44]`. -/
def ffcSetUb6 (p : Payload) (v : Nat) : Payload := fieldSet p 44 4 v

/-- FFC.SET_UB7 (R261): `v mod 16` into `P[55:52]`. -/
def ffcSetUb7 (p : Payload) (v : Nat) : Payload := fieldSet p 52 4 v

/-- FFC.SET_UB8 (R262): `v mod 16` into `P[63:60]`. -/
def ffcSetUb8 (p : Payload) (v : Nat) : Payload := fieldSet p 60 4 v

/-- FFC.GET_FRAMES (R232). -/
def execFfcGetFrames (p : Payload) (s : State) : Host.Outcome State Fault Refusal := .next (setRet (.digits (ffcGetFrames p)) s)

/-- FFC.GET_SECONDS (R233). -/
def execFfcGetSeconds (p : Payload) (s : State) : Host.Outcome State Fault Refusal := .next (setRet (.digits (ffcGetSeconds p)) s)

/-- FFC.GET_MINUTES (R234). -/
def execFfcGetMinutes (p : Payload) (s : State) : Host.Outcome State Fault Refusal := .next (setRet (.digits (ffcGetMinutes p)) s)

/-- FFC.GET_HOURS (R235). -/
def execFfcGetHours (p : Payload) (s : State) : Host.Outcome State Fault Refusal := .next (setRet (.digits (ffcGetHours p)) s)

/-- FFC.GET_UB1 (R240). -/
def execFfcGetUb1 (p : Payload) (s : State) : Host.Outcome State Fault Refusal := .next (setRet (.nibble (ffcGetUb1 p)) s)

/-- FFC.GET_UB2 (R241). -/
def execFfcGetUb2 (p : Payload) (s : State) : Host.Outcome State Fault Refusal := .next (setRet (.nibble (ffcGetUb2 p)) s)

/-- FFC.GET_UB3 (R242). -/
def execFfcGetUb3 (p : Payload) (s : State) : Host.Outcome State Fault Refusal := .next (setRet (.nibble (ffcGetUb3 p)) s)

/-- FFC.GET_UB4 (R243). -/
def execFfcGetUb4 (p : Payload) (s : State) : Host.Outcome State Fault Refusal := .next (setRet (.nibble (ffcGetUb4 p)) s)

/-- FFC.GET_UB5 (R244). -/
def execFfcGetUb5 (p : Payload) (s : State) : Host.Outcome State Fault Refusal := .next (setRet (.nibble (ffcGetUb5 p)) s)

/-- FFC.GET_UB6 (R245). -/
def execFfcGetUb6 (p : Payload) (s : State) : Host.Outcome State Fault Refusal := .next (setRet (.nibble (ffcGetUb6 p)) s)

/-- FFC.GET_UB7 (R246). -/
def execFfcGetUb7 (p : Payload) (s : State) : Host.Outcome State Fault Refusal := .next (setRet (.nibble (ffcGetUb7 p)) s)

/-- FFC.GET_UB8 (R247). -/
def execFfcGetUb8 (p : Payload) (s : State) : Host.Outcome State Fault Refusal := .next (setRet (.nibble (ffcGetUb8 p)) s)

/-- FFC.SET_FRAMES (R250). -/
def execFfcSetFrames (p : Payload) (v : Nat) (s : State) : Host.Outcome State Fault Refusal := .next (setRet (.payload (ffcSetFrames p v)) s)

/-- FFC.SET_SECONDS (R251). -/
def execFfcSetSeconds (p : Payload) (v : Nat) (s : State) : Host.Outcome State Fault Refusal := .next (setRet (.payload (ffcSetSeconds p v)) s)

/-- FFC.SET_MINUTES (R252). -/
def execFfcSetMinutes (p : Payload) (v : Nat) (s : State) : Host.Outcome State Fault Refusal := .next (setRet (.payload (ffcSetMinutes p v)) s)

/-- FFC.SET_HOURS (R253). -/
def execFfcSetHours (p : Payload) (v : Nat) (s : State) : Host.Outcome State Fault Refusal := .next (setRet (.payload (ffcSetHours p v)) s)

/-- FFC.SET_UB1 (R255). -/
def execFfcSetUb1 (p : Payload) (v : Nat) (s : State) : Host.Outcome State Fault Refusal := .next (setRet (.payload (ffcSetUb1 p v)) s)

/-- FFC.SET_UB2 (R256). -/
def execFfcSetUb2 (p : Payload) (v : Nat) (s : State) : Host.Outcome State Fault Refusal := .next (setRet (.payload (ffcSetUb2 p v)) s)

/-- FFC.SET_UB3 (R257). -/
def execFfcSetUb3 (p : Payload) (v : Nat) (s : State) : Host.Outcome State Fault Refusal := .next (setRet (.payload (ffcSetUb3 p v)) s)

/-- FFC.SET_UB4 (R258). -/
def execFfcSetUb4 (p : Payload) (v : Nat) (s : State) : Host.Outcome State Fault Refusal := .next (setRet (.payload (ffcSetUb4 p v)) s)

/-- FFC.SET_UB5 (R259). -/
def execFfcSetUb5 (p : Payload) (v : Nat) (s : State) : Host.Outcome State Fault Refusal := .next (setRet (.payload (ffcSetUb5 p v)) s)

/-- FFC.SET_UB6 (R260). -/
def execFfcSetUb6 (p : Payload) (v : Nat) (s : State) : Host.Outcome State Fault Refusal := .next (setRet (.payload (ffcSetUb6 p v)) s)

/-- FFC.SET_UB7 (R261). -/
def execFfcSetUb7 (p : Payload) (v : Nat) (s : State) : Host.Outcome State Fault Refusal := .next (setRet (.payload (ffcSetUb7 p v)) s)

/-- FFC.SET_UB8 (R262). -/
def execFfcSetUb8 (p : Payload) (v : Nat) (s : State) : Host.Outcome State Fault Refusal := .next (setRet (.payload (ffcSetUb8 p v)) s)

end Sys2Proof.Machine
end

