-- ==== Sys2Proof/Machine/FrameRate.lean ====
section
/-! DEFINITION. The Frame-Rate Estimator and the timecode value, 46_frame_rate_timecode.md. -/

namespace Sys2Proof.Machine

/-- The test of R271 for rate `r`: `784 * FS <= 1000 * count * r <= 816 * FS`, both ends inside, over `FS = num/den`
multiplied out (D19). -/
def inBand (fs : Rate) (count r : Nat) : Bool :=
  decide (bandLow * fs.num ≤ 1000 * count * r * fs.den) && decide (1000 * count * r * fs.den ≤ bandHigh * fs.num)

/-- FPS.CLASSIFY (R271). -/
def fpsClassify (c : Config) (count : Nat) : Fps :=
  if inBand c.fs count 24 then .fps24
  else if inBand c.fs count 25 then .fps25
  else if inBand c.fs count 30 then .fps30
  else .unknown

/-- TC.BUILD (R275). -/
def tcBuild (c : Config) (payload : Payload) (count : Nat) : TimecodeFrame :=
  let p := rev64 payload
  { hours := ffcGetHours p, minutes := ffcGetMinutes p, seconds := ffcGetSeconds p, frames := ffcGetFrames p
    fps := fpsClassify c count
    ub := { ub1 := ffcGetUb1 p, ub2 := ffcGetUb2 p, ub3 := ffcGetUb3 p, ub4 := ffcGetUb4 p
            ub5 := ffcGetUb5 p, ub6 := ffcGetUb6 p, ub7 := ffcGetUb7 p, ub8 := ffcGetUb8 p }
    payload := payload, sampleCount := count }

/-- The rollover modulus of a rate (R280). -/
def fpsModulus : Fps → Option Nat
  | .unknown => none
  | .fps24 => some 24
  | .fps25 => some 25
  | .fps30 => some 30

/-- The increment of a `u8` digit field: not defined on 255 (R280 (d)). -/
def digitInc (v : Byte) : Option Byte := if v.toNat ≤ 254 then some (v + 1) else none

/-- TC.ADVANCE (R280): "reaches" is equality, hours has no modulus, under `Unknown` no rollover (D29). `none` where a
field that the rule increments holds 255. -/
def tcAdvance (t : TimecodeFrame) : Option TimecodeFrame :=
  match digitInc t.frames with
  | none => none
  | some f =>
    if fpsModulus t.fps ≠ some f.toNat then some { t with frames := f }
    else
      match digitInc t.seconds with
      | none => none
      | some sec =>
        if sec.toNat ≠ 60 then some { t with frames := 0, seconds := sec }
        else
          match digitInc t.minutes with
          | none => none
          | some m =>
            if m.toNat ≠ 60 then some { t with frames := 0, seconds := 0, minutes := m }
            else
              match digitInc t.hours with
              | none => none
              | some h => some { t with frames := 0, seconds := 0, minutes := 0, hours := h }

/-- FPS.CLASSIFY (R271). -/
def execFpsClassify (count : Nat) (s : State) : Host.Outcome State Fault Refusal :=
  .next (setRet (.fps (fpsClassify s.cfg count)) s)

/-- TC.BUILD (R275). -/
def execTcBuild (payload : Payload) (count : Nat) (s : State) : Host.Outcome State Fault Refusal :=
  .next (setRet (.frame (tcBuild s.cfg payload count)) s)

/-- TC.ADVANCE (R280): outside its domain the model refuses (R280 (d), 93 U6). -/
def execTcAdvance (t : TimecodeFrame) (s : State) : Host.Outcome State Fault Refusal :=
  match tcAdvance t with
  | some t' => .next (setRet (.frame t') s)
  | none => .refused .advanceOutsideDomain

end Sys2Proof.Machine
end

