-- ==== Sys2Proof/Machine/Commands.lean ====
section
/-! DEFINITION. The three commands and INVALIDATE, 40_commands.md. -/

namespace Sys2Proof.Machine

/-- RESET (R120): `MemWrite(i, 1, 0)` at every index, which leaves the memory with nothing listed (every index reads
as 0), the cursor at 0, INVALIDATE. -/
def resetBlock (s : State) : State := invalidate { s with hist := [], histCursor := 0 }

/-- Step 3 of PUSH_SAMPLE (R121): a decoded bit is shifted in, and FA.GET_DATA is polled once, only then (D16). -/
def assemble (bit : Option Bool) (s : State) : Option RawFrame × State :=
  match bit with
  | some b => (faGetData (faShiftBit b s), faShiftBit b s)
  | none => (none, s)

/-- PUSH_SAMPLE (R121): FA.SAMPLE_RECEIVED on the pre-step `data`, then BSM.STEP, then the assembler, then TC.BUILD. -/
def pushSample (x : Int) (s : State) : State :=
  let r := bsmStep x (faSampleReceived s)
  let g := assemble r.1.bit r.2
  setOut { level := r.1.level, bit := r.1.bit, anomaly := r.1.anomaly
           frame := g.1.map fun f => tcBuild g.2.cfg f.payload f.sampleCount } g.2

/-- RESET (R120). -/
def execReset (s : State) : Host.Outcome State Fault Refusal := .next (setOut Out.quiet (resetBlock s))

/-- PUSH_SAMPLE (R121) of the sample on `sample_in` (R83). -/
def execPushSample (w : SampleWord) (s : State) : Host.Outcome State Fault Refusal :=
  writesRing s (pushSample (sampleInt s.cfg w) s)

/-- IDLE (R122): no state changes. -/
def execIdle (s : State) : Host.Outcome State Fault Refusal := .next (setOut Out.quiet s)

/-- INVALIDATE (R126). -/
def execInvalidate (s : State) : Host.Outcome State Fault Refusal := .next (setRet .unit (invalidate s))

end Sys2Proof.Machine
end

