-- ==== Sys2Proof/Machine/Dispatch.lean ====
section
/-! DEFINITION. One arm per instruction. -/

namespace Sys2Proof.Machine

def exec (i : Instr) (s : State) : Host.Outcome State Fault Refusal :=
  match i with
  | .reset => Sys2Proof.Machine.execReset s
  | .pushSample sampleIn => Sys2Proof.Machine.execPushSample sampleIn s
  | .idle => Sys2Proof.Machine.execIdle s
  | .invalidate => Sys2Proof.Machine.execInvalidate s
  | .calPush sampleIn => Sys2Proof.Machine.execCalPush sampleIn s
  | .calRecompute => Sys2Proof.Machine.execCalRecompute s
  | .calClassify sampleIn => Sys2Proof.Machine.execCalClassify sampleIn s
  | .calInvalidate => Sys2Proof.Machine.execCalInvalidate s
  | .thrDerive fs => Sys2Proof.Machine.execThrDerive fs s
  | .zdStep level => Sys2Proof.Machine.execZdStep level s
  | .zdReset => Sys2Proof.Machine.execZdReset s
  | .bsmStep sampleIn => Sys2Proof.Machine.execBsmStep sampleIn s
  | .bsmExpect n mid => Sys2Proof.Machine.execBsmExpect n mid s
  | .bsmResolve ev changed level => Sys2Proof.Machine.execBsmResolve ev changed level s
  | .bsmInvalidate => Sys2Proof.Machine.execBsmInvalidate s
  | .faSampleReceived => Sys2Proof.Machine.execFaSampleReceived s
  | .faShiftBit b => Sys2Proof.Machine.execFaShiftBit b s
  | .faGetData => Sys2Proof.Machine.execFaGetData s
  | .faInvalidate => Sys2Proof.Machine.execFaInvalidate s
  | .ffcGetFrames p => Sys2Proof.Machine.execFfcGetFrames p s
  | .ffcGetSeconds p => Sys2Proof.Machine.execFfcGetSeconds p s
  | .ffcGetMinutes p => Sys2Proof.Machine.execFfcGetMinutes p s
  | .ffcGetHours p => Sys2Proof.Machine.execFfcGetHours p s
  | .ffcGetUb1 p => Sys2Proof.Machine.execFfcGetUb1 p s
  | .ffcGetUb2 p => Sys2Proof.Machine.execFfcGetUb2 p s
  | .ffcGetUb3 p => Sys2Proof.Machine.execFfcGetUb3 p s
  | .ffcGetUb4 p => Sys2Proof.Machine.execFfcGetUb4 p s
  | .ffcGetUb5 p => Sys2Proof.Machine.execFfcGetUb5 p s
  | .ffcGetUb6 p => Sys2Proof.Machine.execFfcGetUb6 p s
  | .ffcGetUb7 p => Sys2Proof.Machine.execFfcGetUb7 p s
  | .ffcGetUb8 p => Sys2Proof.Machine.execFfcGetUb8 p s
  | .ffcSetFrames p v => Sys2Proof.Machine.execFfcSetFrames p v s
  | .ffcSetSeconds p v => Sys2Proof.Machine.execFfcSetSeconds p v s
  | .ffcSetMinutes p v => Sys2Proof.Machine.execFfcSetMinutes p v s
  | .ffcSetHours p v => Sys2Proof.Machine.execFfcSetHours p v s
  | .ffcSetUb1 p v => Sys2Proof.Machine.execFfcSetUb1 p v s
  | .ffcSetUb2 p v => Sys2Proof.Machine.execFfcSetUb2 p v s
  | .ffcSetUb3 p v => Sys2Proof.Machine.execFfcSetUb3 p v s
  | .ffcSetUb4 p v => Sys2Proof.Machine.execFfcSetUb4 p v s
  | .ffcSetUb5 p v => Sys2Proof.Machine.execFfcSetUb5 p v s
  | .ffcSetUb6 p v => Sys2Proof.Machine.execFfcSetUb6 p v s
  | .ffcSetUb7 p v => Sys2Proof.Machine.execFfcSetUb7 p v s
  | .ffcSetUb8 p v => Sys2Proof.Machine.execFfcSetUb8 p v s
  | .fpsClassify count => Sys2Proof.Machine.execFpsClassify count s
  | .tcBuild payload count => Sys2Proof.Machine.execTcBuild payload count s
  | .tcAdvance t => Sys2Proof.Machine.execTcAdvance t s

end Sys2Proof.Machine
end

