-- ==== Sys2Proof/Machine/Stimulus.lean ====
section
/-! DEFINITION. The stimulus notation of 30_encoding.md section 9 (R98, R99): the lines, the assembler's
pseudo-commands and what they expand to. It is the assembler's, not the block's; it states what a host presents. -/

namespace Sys2Proof.Machine

/-- The lines of R98 and the pseudo-commands of R99. `BITS` takes its string as the list of bits. -/
inductive Line where
  | reset
  | push (v : Int)
  | idle
  | amp (hi lo : Int)
  | level (w : Wave)
  | pushN (n : Nat) (v : Int)
  | hold (n : Nat)
  | tog
  | zero (n : Nat)
  | one (a b : Nat)
  | bits (n a b : Nat) (bs : List Bool)
  | syncW (n a b : Nat)
  | frame (n a b : Nat) (p : Payload)
  deriving DecidableEq, Repr

/-- What the assembler keeps (R99): `HI`, `LO` and the current wave level `lv`. -/
structure Assembler where
  hi : Int
  lo : Int
  lv : Wave
  deriving DecidableEq, Repr

/-- The other level. -/
def otherWave : Wave → Wave
  | .low => .high
  | .high => .low

/-- `val(lv)`. -/
def asmVal (a : Assembler) : Int :=
  match a.lv with
  | .high => a.hi
  | .low => a.lo

/-- `PUSH v` (R98): `(0b01, v mod 2^W)`. DESIGN CHOICE (log 18), unsafe: "must lie in `SMIN..SMAX`" (R98) says nothing
of another `v`; the model presents `v mod 2^W` for it too, also where `.amp`, `PUSHN` or `HOLD` bring it. -/
def pushPorts (c : Config) (v : Int) : Ports := { rst := false, sampleValid := true, sampleIn := sampleWord c v }

/-- `RESET` (R98). -/
def resetPorts : Ports := { rst := true, sampleValid := false, sampleIn := 0 }

/-- `IDLE` (R98): also what the ports hold when the host presents nothing (log 2). -/
def idlePorts : Ports := { rst := false, sampleValid := false, sampleIn := 0 }

/-- `TOG`. -/
def asmTog (a : Assembler) : Assembler := { a with lv := otherWave a.lv }

/-- `HOLD n`. -/
def holdPorts (c : Config) (a : Assembler) (n : Nat) : List Ports := List.replicate n (pushPorts c (asmVal a))

/-- `ZERO n` and `ONE a, b` (R99): one bit of the line code of R87. -/
def bitPorts (c : Config) (n a b : Nat) (asm : Assembler) (bit : Bool) : List Ports × Assembler :=
  if bit then
    (holdPorts c (asmTog asm) a ++ holdPorts c (asmTog (asmTog asm)) b, asmTog (asmTog asm))
  else (holdPorts c (asmTog asm) n, asmTog asm)

/-- `BITS n, a, b, "..."`. -/
def bitsPorts (c : Config) (n a b : Nat) : Assembler → List Bool → List Ports × Assembler
  | asm, [] => ([], asm)
  | asm, x :: xs =>
    let r := bitPorts c n a b asm x
    let rest := bitsPorts c n a b r.2 xs
    (r.1 ++ rest.1, rest.2)

/-- The sync word in transmission order (R89). -/
def syncBits : List Bool :=
  [false, false, true, true, true, true, true, true, true, true, true, true, true, true, false, true]

/-- `P[0], P[1], ..., P[63]` (R89, R99). -/
def payloadBits (p : Payload) : List Bool := (List.range 64).map fun k => p.getLsbD k

/-- The expansion of one line (R98, R99). DESIGN CHOICE (log 22), unsafe: the rule's `.amp` has "`HI > LO`" (R99) and it
says nothing of another pair; the model keeps any pair, and `val(lv)` is then `HI` for `High` and `LO` for `Low` all the same. -/
def expandLine (c : Config) (asm : Assembler) : Line → List Ports × Assembler
  | .reset => ([resetPorts], asm)
  | .push v => ([pushPorts c v], asm)
  | .idle => ([idlePorts], asm)
  | .amp hi lo => ([], { asm with hi := hi, lo := lo })
  | .level w => ([], { asm with lv := w })
  | .pushN n v => (List.replicate n (pushPorts c v), asm)
  | .hold n => (holdPorts c asm n, asm)
  | .tog => ([], asmTog asm)
  | .zero n => bitPorts c n 0 0 asm false
  | .one a b => bitPorts c 0 a b asm true
  | .bits n a b bs => bitsPorts c n a b asm bs
  | .syncW n a b => bitsPorts c n a b asm syncBits
  | .frame n a b p => bitsPorts c n a b asm (payloadBits p ++ syncBits)

/-- The ports of a whole stimulus, line by line. -/
def expand (c : Config) : Assembler → List Line → List Ports
  | _, [] => []
  | asm, l :: ls =>
    let r := expandLine c asm l
    r.1 ++ expand c r.2 ls

end Sys2Proof.Machine
end

