-- ==== Sys2Proof/Machine/Step.lean ====
section
/-! DEFINITION. One step (R12): one clock edge, one command (R81, R340). -/

namespace Sys2Proof.Machine

/-- The ports at this clock edge (log 2). -/
def currentPorts (s : State) : Ports := s.stimulus.headD idlePorts

/-- The clock edge is over: the next entry of the stimulus is at the ports. -/
def advanceStimulus (s : State) : State := { s with stimulus := s.stimulus.tail }

/-- One step (R12, R81). A configuration that fails `WF_CFG` is refused (R7, 93 U2; log 10). -/
def step (s : State) : Host.Outcome State Fault Refusal :=
  if s.cfg.wf then exec (decodePorts (currentPorts s)) (advanceStimulus s) else .refused .illFormedConfig

/-- `s` with the command word `w` of `nbits` bits as the command at the ports at the next clock edge, before the
commands already there. Bits from `nbits` up are 0; a command word has 34 bits (log 7). -/
def State.withFetchWord (s : State) (nbits w : Nat) : State :=
  { s with stimulus := portsOfWord (BitVec.ofNat 34 (w % 2 ^ nbits)) :: s.stimulus }

end Sys2Proof.Machine
end

