-- ==== Sys2Proof/Machine/Outputs.lean ====
section
/-! DEFINITION. What stands on the output ports after a step: the code assignments (R84, R85, R86, R291), the frame
format (R95), the status outputs (R43, R307). -/

namespace Sys2Proof.Machine

/-- R84; the code `0b11` is reserved and never produced. -/
def levelCode : Level → BitVec 2
  | .unknown => 0b00#2
  | .low => 0b01#2
  | .high => 0b10#2

/-- R85: internal, on no port. -/
def eventCode : Event → BitVec 2
  | .mustBeSteady => 0b00#2
  | .canChangeInMiddle => 0b01#2
  | .canChangeInEnd => 0b10#2
  | .overdue => 0b11#2

/-- R86. -/
def fpsCode : Fps → BitVec 2
  | .unknown => 0b00#2
  | .fps24 => 0b01#2
  | .fps25 => 0b10#2
  | .fps30 => 0b11#2

/-- R291. -/
def anomalyCode : Anomaly → BitVec 2
  | .none => 0b00#2
  | .cal => 0b01#2
  | .illegal => 0b10#2
  | .overdue => 0b11#2

/-- The frame fields on the ports while `frame_valid_o = 1` (R95). -/
structure FrameWires where
  hoursO   : Byte
  minutesO : Byte
  secondsO : Byte
  framesO  : Byte
  fpsO     : BitVec 2
  ubO      : BitVec 32
  payloadO : Payload
  countO   : Nat
  deriving DecidableEq, Repr

/-- `ub_o` (R95): `ub_o[4k-1 : 4k-4] = ub[k]`. -/
def ubWord (u : UserBits) : BitVec 32 :=
  u.ub8 ++ u.ub7 ++ u.ub6 ++ u.ub5 ++ u.ub4 ++ u.ub3 ++ u.ub2 ++ u.ub1

/-- The output ports. An output that R95 leaves unspecified in a step is `none` there: the model has no such wire
(93 U4; log 15). -/
structure OutputPorts where
  levelO      : BitVec 2
  anomalyO    : BitVec 2
  bitValidO   : Bool
  bitO        : Option Bool
  frameValidO : Bool
  frameO      : Option FrameWires
  lockedO     : Bool
  calValidO   : Bool
  thrO        : Int
  deriving DecidableEq, Repr

/-- A frame on the ports (R95). -/
def frameWires (t : TimecodeFrame) : FrameWires :=
  { hoursO := t.hours, minutesO := t.minutes, secondsO := t.seconds, framesO := t.frames, fpsO := fpsCode t.fps
    ubO := ubWord t.ub, payloadO := t.payload, countO := t.sampleCount }

/-- The output ports after a step (R95 of `Out`; R43 of the state). -/
def outputPorts (s : State) : OutputPorts :=
  { levelO := levelCode s.out.level, anomalyO := anomalyCode s.out.anomaly
    bitValidO := s.out.bit.isSome, bitO := s.out.bit
    frameValidO := s.out.frame.isSome, frameO := s.out.frame.map frameWires
    lockedO := s.locked, calValidO := s.calValid, thrO := s.calThr }

end Sys2Proof.Machine
end

