-- ==== Sys2Proof/Safety.lean ====
section
/-! DEFINITION. The terms claims are written in: the invariant of the states a run can reach (10_state.md R47 and the
ranges of R20 to R36), a sequence of operations, what an invalidation leaves, the line code of a bit, polarity. -/

namespace Sys2Proof.Machine

/-- Every location of the ring holds a sample: an integer in SMIN..SMAX (R6, R20). -/
def ringInRange (s : State) : Prop := ∀ i < 255, s.cfg.smin ≤ memRead s.hist i ∧ memRead s.hist i ≤ s.cfg.smax

/-- The bounds and the threshold are in SMIN..SMAX (R23, R24, R25). -/
def boundsInRange (s : State) : Prop :=
  (s.cfg.smin ≤ s.calMin ∧ s.calMin ≤ s.cfg.smax) ∧ (s.cfg.smin ≤ s.calMax ∧ s.calMax ≤ s.cfg.smax) ∧
    (s.cfg.smin ≤ s.calThr ∧ s.calThr ≤ s.cfg.smax)

/-- The states between steps: `WF_CFG` (R7); the memory in canonical form (log 9) with samples in it (R20);
`hist_cursor` (R21) and `cal_count` in 0..254 (R22); bounds in range (R23 to R25); before calibration no lock and no zero-detector record
(R25, R32, R127); `zd_count <= max_bit`; while locked `bit_count <= max_bit` and a level is recorded; while not
locked the registers of R47 are zero. -/
structure Inv (s : State) : Prop where
  cfg_wf : s.cfg.wf = true
  mem_wf : Memory.wf s.hist = true
  cursor_lt : s.histCursor < 255
  ring : ringInRange s
  count_lt : s.calCount < 255
  bounds : boundsInRange s
  calibrating : s.calValid = false → s.locked = false ∧ s.zdLevel = .unknown ∧ s.zdCount = 0 ∧ s.calThr = 0
  zd_le : s.zdCount ≤ s.cfg.thr.maxBit
  locked_le : s.locked = true → s.bitCount ≤ s.cfg.thr.maxBit ∧ s.lastLevel ≠ .unknown
  unlocked : s.locked = false →
    s.bitCount = 0 ∧ s.midSeen = false ∧ s.lastLevel = .unknown ∧ s.data = 0 ∧ s.syncWord = 0

/-- Run operations one after another; stop at the first that stops. -/
def execAll : List Instr → State → Host.Outcome State Fault Refusal
  | [], s => .next s
  | i :: is, s =>
    match exec i s with
    | .next t => execAll is t
    | .fault f => .fault f
    | .refused r => .refused r

/-- The ports that present the samples `ws`, one per clock edge. -/
def pushes (ws : List SampleWord) : List Ports :=
  ws.map fun w => { rst := false, sampleValid := true, sampleIn := w }

/-- `u` with every register at its INVALIDATE value: the INVALIDATE column of R50. -/
def invalidated (u : State) : State :=
  { u with calCount := 0, calMin := 0, calMax := 0, calThr := 0, calValid := false, locked := false, bitCount := 0
           lastLevel := .unknown, midSeen := false, zdLevel := .unknown, zdCount := 0, data := 0, syncWord := 0
           fdsc := 0 }

/-- A bit on the line (R87, R190): one run of `len` samples, or two runs of `a` and `b` samples. -/
inductive BitShape where
  | zero (len : Nat)
  | one (a b : Nat)
  deriving DecidableEq, Repr

/-- The bit's value. -/
def BitShape.value : BitShape → Bool
  | .zero _ => false
  | .one _ _ => true

/-- The lengths R190 asks for, a bit whose first sample is counted as number `off` (R182: 0 in mid-stream, 1 right
after a lock). A run has at least one sample. -/
def BitShape.legal (t : Thresholds) (off : Nat) : BitShape → Prop
  | .zero len => t.minBit ≤ len + off ∧ len + off ≤ t.maxBit ∧ 1 ≤ len
  | .one a b => (t.minHalf ≤ a + off ∧ a + off ≤ t.maxHalf) ∧ (t.minBit ≤ a + b + off ∧ a + b + off ≤ t.maxBit) ∧ 1 ≤ a

/-- The samples of a bit after its first one, at level `x`, with the first sample of the next bit. -/
def BitShape.rest (x : Wave) : BitShape → List Wave
  | .zero len => List.replicate (len - 1) x ++ [otherWave x]
  | .one a b => List.replicate (a - 1) x ++ List.replicate b (otherWave x) ++ [x]

/-- The level of the next bit's first sample. -/
def BitShape.nextWave (x : Wave) : BitShape → Wave
  | .zero _ => otherWave x
  | .one _ _ => x

/-- The samples of a sequence of bits, without the first sample of the first one. -/
def lineSamples : Wave → List BitShape → List Wave
  | _, [] => []
  | x, b :: bs => b.rest x ++ lineSamples (b.nextWave x) bs

/-- The level after a sequence of bits. -/
def lineEnd : Wave → List BitShape → Wave
  | x, [] => x
  | x, b :: bs => lineEnd (b.nextWave x) bs

/-- Classified samples through steps 2 to 5 of BSM.STEP, one after another: the results and the state. -/
def classifiedRun : List Wave → State → List BitResult × State
  | [], s => ([], s)
  | v :: vs, s =>
    let r := bsmClassified v s
    let rest := classifiedRun vs r.2
    (r.1 :: rest.1, rest.2)

/-- A level seen with inverted polarity. -/
def flipLevel : Level → Level
  | .unknown => .unknown
  | .low => .high
  | .high => .low

/-- A state whose recorded levels are seen with inverted polarity. -/
def flipState (s : State) : State := { s with lastLevel := flipLevel s.lastLevel, zdLevel := flipLevel s.zdLevel }

end Sys2Proof.Machine
end

