-- ==== Sys2Proof/Certificates/Slice0/Obligations.lean ====
section
/-! DEFINITION. The statements about the LTC bit decoder, from the numbered rules of spec/. An equation
`exec i s = .next { s with … }` says what the operation writes AND its frame: every field not named is unchanged.
`ret` is the model's own record of what an operation returned (log 4), `out` the outputs of the last command (log 3),
`stimulus` the commands still to come (log 2). -/

open Sys2Proof Sys2Proof.Machine

/-! ## The command interface -/

/-- R82: the control word `ctl = rst ++ sample_valid`. `rst = 1` is RESET whatever `sample_valid` and `sample_in` are,
`0b01` is PUSH_SAMPLE of `sample_in`, `0b00` is IDLE: every control word is a command. -/
def Obligations.ControlWordSelectsTheCommand : Prop :=
  ∀ p : Ports,
    p.ctl.toNat = 2 * p.rst.toNat + p.sampleValid.toNat ∧
    (p.rst = true → decodePorts p = .reset) ∧
    (p.rst = false → p.sampleValid = true → decodePorts p = .pushSample p.sampleIn) ∧
    (p.rst = false → p.sampleValid = false → decodePorts p = .idle)

/-- Words written out from the control word of R82 and the samples of program P1 (95_test_vectors.md): `(0b10, -)`,
`(0b01, 0x0064)`, `(0b01, 0xFF9C)`, `(0b00, -)`. The layout of a word in bytes is the model's choice (log 7). -/
def Obligations.WrittenOutWordsDecode : Prop :=
  decode [0x02#8, 0x00#8, 0x00#8, 0x00#8, 0x00#8] = .ok .reset ∧
  decode [0x03#8, 0x00#8, 0x00#8, 0x00#8, 0x00#8] = .ok .reset ∧
  decode [0x91#8, 0x01#8, 0x00#8, 0x00#8, 0x00#8] = .ok (.pushSample 0x0064#32) ∧
  decode [0x71#8, 0xFE#8, 0x03#8, 0x00#8, 0x00#8] = .ok (.pushSample 0xFF9C#32) ∧
  decode [0x00#8, 0x00#8, 0x00#8, 0x00#8, 0x00#8] = .ok .idle ∧
  decodeTableWord 8 2 = some .reset ∧ decodeTableWord 8 1 = some (.pushSample 0#32) ∧ decodeTableWord 8 0 = some .idle

/-- Encoding and decoding agree: a command has bytes and they decode to it, with every operand; an operation that is
no command has none; and bytes that decode differ from the encoding only in bits the command ignores. The byte
layout is the model's choice (log 7). -/
def Obligations.EncodedCommandsDecodeBack : Prop :=
  (∀ i : Instr, ((i = .reset ∨ i = .idle ∨ ∃ w, i = .pushSample w) → ∃ bs, encode i = some bs ∧ decode bs = .ok i) ∧
    (¬ (i = .reset ∨ i = .idle ∨ ∃ w, i = .pushSample w) → encode i = none)) ∧
  (∀ (bs : List Byte) (i : Instr), decode bs = .ok i → ∃ cs, encode i = some cs ∧ decode cs = .ok i) ∧
  (∀ (bs : List Byte) (w : SampleWord), decode bs = .ok (.pushSample w) → encode (.pushSample w) = some bs)

/-- One step is the command at the ports (R12, R81), with the clock edge's entry of the stimulus used up; when the
host presents nothing the ports are idle (log 2). -/
def Obligations.StepRunsTheDecodedCommand : Prop :=
  ∀ s : State, s.cfg.wf = true →
    (∀ p rest, s.stimulus = p :: rest → step s = exec (decodePorts p) { s with stimulus := rest }) ∧
    (s.stimulus = [] → step s = exec .idle s)

/-- R7: `WF_CFG`, and a configuration that fails it is refused, at construction and at every step. A configuration
that satisfies it is constructed. -/
def Obligations.IllFormedConfigurationIsRefused : Prop :=
  ∀ c : Config,
    (c.wf = true ↔ (c.width = 8 ∨ c.width = 16 ∨ c.width = 24 ∨ c.width = 32) ∧ 0 < c.fs.num ∧ 0 < c.fs.den ∧
      c.thr.minHalf ≤ c.thr.maxHalf ∧ c.thr.maxHalf < c.thr.minBit ∧ c.thr.minBit ≤ c.thr.maxBit) ∧
    (c.wf = false → construct c = .refused .illFormedConfig ∧
      ∀ s : State, s.cfg = c → step s = .refused .illFormedConfig) ∧
    (c.wf = true → construct c = .next (State.resetWith c))

/-- Nothing stops the block (R290, 93: "Nothing in this block is `stuck`"): with a well-formed configuration and the
cursor in the ring (R21) every step has a next state, in the same configuration and with the cursor in the ring. -/
def Obligations.EveryStepCompletes : Prop :=
  ∀ s : State, s.cfg.wf = true → s.histCursor < 255 →
    ∃ t, step s = .next t ∧ t.cfg = s.cfg ∧ t.stimulus = s.stimulus.tail ∧ t.histCursor < 255

/-! ## Commands -/

/-- R120: RESET from any state whatever: the RESET column of R50, the configuration as it was, and priority over
`sample_valid`. -/
def Obligations.ResetErasesEveryState : Prop :=
  (∀ s : State, exec .reset s = .next
    { hist := [], histCursor := 0, calCount := 0, calMin := 0, calMax := 0, calThr := 0, calValid := false,
      locked := false, bitCount := 0, lastLevel := .unknown, midSeen := false, zdLevel := .unknown, zdCount := 0,
      data := 0, syncWord := 0, fdsc := 0, cfg := s.cfg, stimulus := s.stimulus,
      out := { level := .unknown, bit := none, anomaly := .none, frame := none }, ret := s.ret }) ∧
  (∀ i, memRead [] i = 0) ∧
  (∀ v w, decodePorts { rst := true, sampleValid := v, sampleIn := w } = .reset)

/-- R122: IDLE changes no state, and any number of IDLE steps before a push has no effect on the result. -/
def Obligations.IdleLeavesNoTrace : Prop :=
  (∀ s : State, exec .idle s = .next { s with out := { level := .unknown, bit := none, anomaly := .none, frame := none } }) ∧
  (∀ (s : State) (k : Nat) (w : SampleWord), s.cfg.wf = true →
    Host.Core.run core (k + 1)
        { s with stimulus := List.replicate k { rst := false, sampleValid := false, sampleIn := 0 } ++ pushes [w] } =
      Host.Core.run core 1 { s with stimulus := pushes [w] })

/-- R121: PUSH_SAMPLE is its micro-operations in the order of the rule: FA.SAMPLE_RECEIVED on the state as it was,
BSM.STEP, and, only when a bit was emitted, FA.SHIFT_BIT, FA.GET_DATA and TC.BUILD. The cursor is in the ring (R21). -/
def Obligations.PushSampleIsItsSequence : Prop :=
  ∀ (s : State) (w : SampleWord), s.histCursor < 255 → ∃ s1 s2 r,
    exec .faSampleReceived s = .next s1 ∧ exec (.bsmStep w) s1 = .next s2 ∧ s2.ret = .bitResult r ∧
    (r.bit = none → exec (.pushSample w) s = .next
      { s2 with ret := s.ret, out := { level := r.level, bit := none, anomaly := r.anomaly, frame := none } }) ∧
    (∀ b, r.bit = some b → ∃ s3 s4 g,
      exec (.faShiftBit b) s2 = .next s3 ∧ exec .faGetData s3 = .next s4 ∧ s4.ret = .rawFrame g ∧
      (g = none → exec (.pushSample w) s = .next
        { s4 with ret := s.ret, out := { level := r.level, bit := some b, anomaly := r.anomaly, frame := none } }) ∧
      (∀ f, g = some f → ∃ s5 t, exec (.tcBuild f.payload f.sampleCount) s4 = .next s5 ∧ s5.ret = .frame t ∧
        exec (.pushSample w) s = .next
          { s4 with ret := s.ret, out := { level := r.level, bit := some b, anomaly := r.anomaly, frame := some t } }))

/-- What a push's outputs can be (40_commands.md R121 corner cases (b), (d); 60_exceptions.md R293, R297 (c)): a frame
only with a bit, a bit only without anomaly, an unclassified sample exactly with `A_CAL` and then no bit. -/
def Obligations.PushOutputsAreConsistent : Prop :=
  ∀ (s : State) (w : SampleWord), s.histCursor < 255 → ∃ t, exec (.pushSample w) s = .next t ∧
    (t.out.frame.isSome = true → t.out.bit.isSome = true) ∧
    (t.out.bit.isSome = true → t.out.anomaly = .none ∧ t.locked = true) ∧
    (t.out.anomaly = .cal ↔ t.out.level = .unknown) ∧
    (t.out.level = .unknown → t.out.bit = none ∧ t.out.frame = none)

/-- R143, R166, R185, R213: what each part of the cascade writes, and nothing else. -/
def Obligations.InvalidationOfEachComponent : Prop :=
  ∀ s : State,
    exec .calInvalidate s = .next
      { s with calMin := 0, calMax := 0, calThr := 0, calCount := 0, calValid := false, ret := .unit } ∧
    exec .zdReset s = .next { s with zdLevel := .unknown, zdCount := 0, ret := .unit } ∧
    exec .bsmInvalidate s = .next
      { s with locked := false, bitCount := 0, lastLevel := .unknown, midSeen := false, zdLevel := .unknown,
               zdCount := 0, ret := .unit } ∧
    exec .faInvalidate s = .next { s with data := 0, syncWord := 0, fdsc := 0, ret := .unit }

/-- R126: INVALIDATE is the three component invalidations, in any order; every register but `hist` and
`hist_cursor` at its zero value. -/
def Obligations.InvalidateIsTheUnionOfItsParts : Prop :=
  ∀ s : State,
    exec .invalidate s = .next
      { s with calMin := 0, calMax := 0, calThr := 0, calCount := 0, calValid := false, locked := false, bitCount := 0,
               lastLevel := .unknown, midSeen := false, zdLevel := .unknown, zdCount := 0, data := 0, syncWord := 0,
               fdsc := 0, ret := .unit } ∧
    ∀ l : List Instr, List.Perm l [.calInvalidate, .bsmInvalidate, .faInvalidate] → execAll l s = exec .invalidate s

/-! ## The calibrator and its memory -/

/-- SMIN and SMAX (R6); a sample word denotes the integer of that range that is congruent to the word's low `W` bits
modulo `2^W`, its sign or zero extension (R83); and every integer of the range is the value of the word `v mod 2^W`, as a
stimulus encodes it (R98). That bits of the 32-bit lane above `W` do not count is the model's choice (log 8). -/
def Obligations.SampleWordDenotesOneInteger : Prop :=
  ∀ c : Config, c.wf = true →
    (c.signed = true → c.smin = -(2 ^ (c.width - 1)) ∧ c.smax = 2 ^ (c.width - 1) - 1) ∧
    (c.signed = false → c.smin = 0 ∧ c.smax = 2 ^ c.width - 1) ∧
    (∀ w : SampleWord, c.smin ≤ sampleInt c w ∧ sampleInt c w ≤ c.smax ∧
      ∃ k : Int, sampleInt c w = (w.toNat % 2 ^ c.width : Nat) + k * (2 ^ c.width : Nat)) ∧
    (∀ v : Int, c.smin ≤ v → v ≤ c.smax → sampleInt c (sampleWord c v) = v ∧ SampleWord.fits c (sampleWord c v) = true)

/-- R140: CAL.PUSH stores the sample at the cursor and nowhere else, advances the cursor modulo 255, counts, and at
the 255th push returns the count to 0 and performs CAL.RECOMPUTE; it returns CAL.CLASSIFY with the threshold as it then
stands. The cursor is in the ring (R21). -/
def Obligations.CalPushStoresCountsAndClassifies : Prop :=
  ∀ (s : State) (w : SampleWord), Memory.wf s.hist = true → s.histCursor < 255 → ∃ m u l,
    (∀ j, memRead m j = if j = s.histCursor then sampleInt s.cfg w else memRead s.hist j) ∧
    Memory.wf m = true ∧
    (s.calCount + 1 ≠ 255 →
      u = { s with hist := m, histCursor := u.histCursor, calCount := s.calCount + 1, ret := .level l }) ∧
    (s.calCount + 1 = 255 → ∃ v, exec .calRecompute { s with hist := m, calCount := 0 } = .next v ∧
      u = { v with histCursor := u.histCursor, ret := .level l }) ∧
    u.histCursor = (s.histCursor + 1) % 255 ∧
    exec (.calPush w) s = .next u ∧ exec (.calClassify w) u = .next u

/-- R141: CAL.RECOMPUTE takes the true minimum and maximum of the 255 entries, the threshold is the sum of their
halves, each truncated toward zero (R9; the rounding is the spec's general knowledge, log 14), and `cal_valid` says
that all three are representable. -/
def Obligations.RecomputeTakesTheExtremes : Prop :=
  ∀ s : State, ∃ mn mx th : Int,
    (∃ i < 255, memRead s.hist i = mn) ∧ (∀ i < 255, mn ≤ memRead s.hist i) ∧
    (∃ i < 255, memRead s.hist i = mx) ∧ (∀ i < 255, memRead s.hist i ≤ mx) ∧
    th = mn.sign * (mn.natAbs / 2 : Nat) + mx.sign * (mx.natAbs / 2 : Nat) ∧
    exec .calRecompute s = .next
      { s with calMin := mn, calMax := mx, calThr := th, ret := .unit
               calValid := decide ((s.cfg.smin ≤ mn ∧ mn ≤ s.cfg.smax) ∧ (s.cfg.smin ≤ mx ∧ mx ≤ s.cfg.smax) ∧
                 (s.cfg.smin ≤ th ∧ th ≤ s.cfg.smax)) }

/-- With samples in the ring every recomputation makes the threshold valid, and it lies within one unit of the bounds
(41_calibrator.md, R141's derived sentence; D34). -/
def Obligations.EveryRecomputationIsValid : Prop :=
  ∀ s : State, s.cfg.wf = true → ringInRange s → ∃ t, exec .calRecompute s = .next t ∧ t.calValid = true ∧
    boundsInRange t ∧ t.calMin ≤ t.calMax ∧ t.calMin - 1 ≤ t.calThr ∧ t.calThr ≤ t.calMax + 1

/-- R142: `Unknown` while invalid; else `High` iff the sample is above the threshold; ties resolve to `Low`. -/
def Obligations.ClassifyComparesWithTheThreshold : Prop :=
  ∀ (s : State) (w : SampleWord),
    (s.calValid = false → exec (.calClassify w) s = .next { s with ret := .level .unknown }) ∧
    (s.calValid = true → s.calThr < sampleInt s.cfg w → exec (.calClassify w) s = .next { s with ret := .level .high }) ∧
    (s.calValid = true → sampleInt s.cfg w ≤ s.calThr → exec (.calClassify w) s = .next { s with ret := .level .low })

/-- Calibration not ready (60_exceptions.md R293): a push that is not the 255th of a calibrating block reports `A_CAL`; the
sample is recorded, the cursor, `cal_count` and `fdsc` advance, and nothing else moves. -/
def Obligations.UnclassifiedPushOnlyRecordsTheSample : Prop :=
  ∀ (s : State) (w : SampleWord), Inv s → s.calValid = false → s.calCount + 1 < 255 → ∃ m : Memory,
    (∀ j, memRead m j = if j = s.histCursor then sampleInt s.cfg w else memRead s.hist j) ∧
    exec (.pushSample w) s = .next
      { s with hist := m, histCursor := (s.histCursor + 1) % 255, calCount := s.calCount + 1, fdsc := s.fdsc + 1
               out := { level := .unknown, bit := none, anomaly := .cal, frame := none } }

/-- Dead time (41_calibrator.md R145, derived): from a state as RESET or INVALIDATE leaves the calibrator, pushes 1 to
254 return `Unknown` and report `A_CAL` with no bit and no frame; push 255 returns `Low` or `High`. -/
def Obligations.DeadTimeIs254Pushes : Prop :=
  ∀ (s : State) (ws : List SampleWord), s.cfg.wf = true → Memory.wf s.hist = true → s.histCursor < 255 →
    s.calCount = 0 → s.calValid = false → ws ≠ [] → ws.length ≤ 255 →
    ∃ t, Host.Core.run core ws.length { s with stimulus := pushes ws } = .next t ∧
      (ws.length < 255 → t.out = { level := .unknown, bit := none, anomaly := .cal, frame := none } ∧
        t.calCount = ws.length ∧ t.calValid = false) ∧
      (ws.length = 255 → t.out.level ≠ .unknown)

/-- The first calibration window (41_calibrator.md R146, 10_state.md R48, derived): 255 pushes after RESET or INVALIDATE
leave the bounds at the minimum and maximum of exactly those samples and the threshold at the sum of their halves, each
truncated toward zero (R9; the rounding is the spec's general knowledge, log 14), whatever the ring and its cursor held
before. Later windows are `EveryBlockOf255PushesIsItsWindow`. -/
def Obligations.WindowIsTheLast255Pushes : Prop :=
  ∀ (s : State) (ws : List SampleWord), s.cfg.wf = true → Memory.wf s.hist = true → s.histCursor < 255 →
    s.calCount = 0 → s.calValid = false → s.locked = false → ws.length = 255 →
    ∃ t, Host.Core.run core 255 { s with stimulus := pushes ws } = .next t ∧
      (∃ w ∈ ws, t.calMin = sampleInt s.cfg w) ∧ (∀ w ∈ ws, t.calMin ≤ sampleInt s.cfg w) ∧
      (∃ w ∈ ws, t.calMax = sampleInt s.cfg w) ∧ (∀ w ∈ ws, sampleInt s.cfg w ≤ t.calMax) ∧
      t.calThr = t.calMin.tdiv 2 + t.calMax.tdiv 2 ∧ t.calValid = true ∧ t.calCount = 0

/-! ## Thresholds and the zero detector -/

/-- R161, R162: the four thresholds of a positive rate: `min_bit` the floor of `FS * TMIN`, `max_bit` the ceiling of
`FS * TMAX`, and for the half bit the floor and ceiling of the halves, widened by two samples and clamped at 0. -/
def Obligations.ThresholdsAreRoundedOutward : Prop :=
  ∀ (s : State) (fs : Rate), 0 < fs.num → 0 < fs.den → ∃ (t : Thresholds) (h k : Nat),
    exec (.thrDerive fs) s = .next { s with ret := .thresholds t } ∧
    t.minBit * (3000000 * fs.den) ≤ fs.num * 1217 ∧ fs.num * 1217 < (t.minBit + 1) * (3000000 * fs.den) ∧
    fs.num * 1592 ≤ t.maxBit * (3000000 * fs.den) ∧ t.maxBit * (3000000 * fs.den) < fs.num * 1592 + 3000000 * fs.den ∧
    h * (6000000 * fs.den) ≤ fs.num * 1217 ∧ fs.num * 1217 < (h + 1) * (6000000 * fs.den) ∧
    fs.num * 1592 ≤ k * (6000000 * fs.den) ∧ k * (6000000 * fs.den) < fs.num * 1592 + 6000000 * fs.den ∧
    (t.minHalf : Int) = max 0 ((h : Int) - 2) ∧ t.maxHalf = k + 2

/-- A rate that is not positive is refused (42_synchronizer.md R160: "a positive rational"; the refusal is the model's
choice, log 13). -/
def Obligations.NonPositiveRateIsRefused : Prop :=
  ∀ (s : State) (fs : Rate), ¬ (0 < fs.num ∧ 0 < fs.den) → exec (.thrDerive fs) s = .refused .rateNotPositive

/-- From 32000 samples per second up, the derived thresholds are ordered as `WF_CFG` asks (00_scope.md R7; derived from
R161 and R162), so every legal sample width is constructed. -/
def Obligations.DerivedConfigurationIsWellFormedFrom32kHz : Prop :=
  ∀ (fs : Rate) (width : Nat) (signed : Bool), 0 < fs.den → 32000 * fs.den ≤ fs.num →
    width = 8 ∨ width = 16 ∨ width = 24 ∨ width = 32 → (derivedConfig width signed fs).wf = true

/-- R165: the four outcomes of ZD.STEP. -/
def Obligations.ZeroDetectorStep : Prop :=
  ∀ (s : State) (v : Wave),
    (s.zdLevel = .unknown →
      exec (.zdStep v) s = .next { s with zdLevel := v.level, zdCount := 0, ret := .lock false }) ∧
    (s.zdLevel ≠ .unknown → v.level ≠ s.zdLevel → exec (.zdStep v) s = .next
      { s with zdLevel := v.level, zdCount := 0,
               ret := .lock (decide (s.cfg.thr.minBit ≤ s.zdCount + 1 ∧ s.zdCount + 1 ≤ s.cfg.thr.maxBit)) }) ∧
    (s.zdLevel = v.level → s.cfg.thr.maxBit < s.zdCount + 1 →
      exec (.zdStep v) s = .next { s with zdCount := 0, ret := .lock false }) ∧
    (s.zdLevel = v.level → s.zdCount + 1 ≤ s.cfg.thr.maxBit →
      exec (.zdStep v) s = .next { s with zdCount := s.zdCount + 1, ret := .lock false })

/-- Lock position and false lock (42_synchronizer.md R168 and R165 (c), 70_reset_and_hazards.md R334, derived): after a
change sample, a steady stretch of `L` samples ended by a change signals a lock exactly when `L mod (max_bit + 1)` lies in
`min_bit..max_bit`; for `L <= max_bit` that is the full-bit run of R168. -/
def Obligations.SteadyStretchLocksByItsLength : Prop :=
  ∀ (s : State) (x : Wave) (len : Nat), s.cfg.wf = true → s.zdLevel = x.level → s.zdCount = 0 → 1 ≤ len →
    execAll (List.replicate (len - 1) (.zdStep x) ++ [.zdStep (otherWave x)]) s = .next
      { s with zdLevel := (otherWave x).level, zdCount := 0,
               ret := .lock (decide (s.cfg.thr.minBit ≤ len % (s.cfg.thr.maxBit + 1))) }

/-! ## The bit state machine -/

/-- R183: BSM.EXPECT, the tests in the document's order for any thresholds; and under `WF_CFG` the five zones, each
event exactly in its own. -/
def Obligations.ExpectedEventZones : Prop :=
  ∀ (s : State) (n : Nat) (mid : Bool), ∃ e,
    exec (.bsmExpect n mid) s = .next { s with ret := .event e } ∧
    e = (if n < s.cfg.thr.minHalf then Event.mustBeSteady
         else if n ≤ s.cfg.thr.maxHalf then (if mid then .mustBeSteady else .canChangeInMiddle)
         else if n < s.cfg.thr.minBit then .mustBeSteady
         else if n ≤ s.cfg.thr.maxBit then .canChangeInEnd else .overdue) ∧
    (s.cfg.wf = true →
      (e = .overdue ↔ s.cfg.thr.maxBit < n) ∧
      (e = .canChangeInEnd ↔ s.cfg.thr.minBit ≤ n ∧ n ≤ s.cfg.thr.maxBit) ∧
      (e = .canChangeInMiddle ↔ (s.cfg.thr.minHalf ≤ n ∧ n ≤ s.cfg.thr.maxHalf) ∧ mid = false) ∧
      (e = .mustBeSteady ↔ n < s.cfg.thr.minHalf ∨ ((s.cfg.thr.minHalf ≤ n ∧ n ≤ s.cfg.thr.maxHalf) ∧ mid = true) ∨
        (s.cfg.thr.maxHalf < n ∧ n < s.cfg.thr.minBit)))

/-- R184: BSM.RESOLVE, every event with and without a change. -/
def Obligations.ResolveTable : Prop :=
  ∀ (s : State) (v : Wave) (changed : Bool),
    exec (.bsmResolve .overdue changed v) s = .next
      { invalidated s with ret := .bitResult { level := v.level, bit := none, anomaly := .overdue } } ∧
    exec (.bsmResolve .mustBeSteady true v) s = .next
      { invalidated s with ret := .bitResult { level := v.level, bit := none, anomaly := .illegal } } ∧
    exec (.bsmResolve .mustBeSteady false v) s = .next
      { s with ret := .bitResult { level := v.level, bit := none, anomaly := .none } } ∧
    exec (.bsmResolve .canChangeInMiddle true v) s = .next
      { s with midSeen := true, ret := .bitResult { level := v.level, bit := none, anomaly := .none } } ∧
    exec (.bsmResolve .canChangeInMiddle false v) s = .next
      { s with ret := .bitResult { level := v.level, bit := none, anomaly := .none } } ∧
    exec (.bsmResolve .canChangeInEnd true v) s = .next
      { s with bitCount := 0, midSeen := false,
               ret := .bitResult { level := v.level, bit := some s.midSeen, anomaly := .none } } ∧
    exec (.bsmResolve .canChangeInEnd false v) s = .next
      { s with ret := .bitResult { level := v.level, bit := none, anomaly := .none } }

/-- R180, R181, R182: BSM.STEP is CAL.PUSH; then, while not locked, ZD.STEP and on a lock event LOCK; then
COUNT_AND_COMPARE, BSM.EXPECT and BSM.RESOLVE on the same sample. The cursor is in the ring (R21). -/
def Obligations.BitMachineStepIsItsFiveSteps : Prop :=
  ∀ (s : State) (w : SampleWord), s.histCursor < 255 → ∃ s1 l t r, exec (.calPush w) s = .next s1 ∧ s1.ret = .level l ∧
    exec (.bsmStep w) s = .next t ∧ t.ret = .bitResult r ∧ r.level = l ∧
    (l = .unknown → exec (.bsmStep w) s = .next
      { s1 with ret := .bitResult { level := .unknown, bit := none, anomaly := .cal } }) ∧
    ∀ v : Wave, l = v.level →
      let finish := fun u : State => ∃ e u', exec (.bsmExpect (u.bitCount + 1) u.midSeen) u = .next u' ∧ u'.ret = .event e ∧
        exec (.bsmStep w) s = exec (.bsmResolve e (decide (u.lastLevel ≠ .unknown ∧ v.level ≠ u.lastLevel)) v)
          { u with bitCount := u.bitCount + 1, lastLevel := v.level }
      (s.locked = true → finish s1) ∧
      (s.locked = false → ∃ s2 b, exec (.zdStep v) s1 = .next s2 ∧ s2.ret = .lock b ∧
        (b = false → exec (.bsmStep w) s = .next
          { s2 with ret := .bitResult { level := v.level, bit := none, anomaly := .none } }) ∧
        (b = true → finish { s2 with bitCount := 0, lastLevel := .unknown, locked := true }))

/-- While locked, a sample past `max_bit` is reported as `A_OVERDUE` whether or not the level changed (R295), and an
illegal change at or before it as `A_ILLEGAL` (R294); either leaves every register at its INVALIDATE value, with the sample in
its place in the ring (R299, which the spec derives). -/
def Obligations.IllegalOrLateChangeInvalidates : Prop :=
  ∀ (s s1 : State) (w : SampleWord) (v : Wave), s.locked = true → exec (.calPush w) s = .next s1 → s1.ret = .level v.level →
    let n := s.bitCount + 1
    let th := s.cfg.thr
    (s.cfg.wf = true → th.maxBit < n → exec (.pushSample w) s = .next
      { invalidated s1 with ret := s.ret, out := { level := v.level, bit := none, anomaly := .overdue, frame := none } }) ∧
    (s.cfg.wf = true → n ≤ th.maxBit → s.lastLevel ≠ .unknown → s.lastLevel ≠ v.level →
      (n < th.minHalf ∨ ((th.minHalf ≤ n ∧ n ≤ th.maxHalf) ∧ s.midSeen = true) ∨ (th.maxHalf < n ∧ n < th.minBit)) →
      exec (.pushSample w) s = .next
        { invalidated s1 with ret := s.ret, out := { level := v.level, bit := none, anomaly := .illegal, frame := none } })

/-- Who can invalidate (60_exceptions.md R292, derived): a push on a block that is not locked reports neither
`A_ILLEGAL` nor `A_OVERDUE`, also in the step that acquires lock, and so never leaves the searching phase for the calibrating one. -/
def Obligations.NothingInvalidatesBeforeLock : Prop :=
  ∀ (s : State) (w : SampleWord), Inv s → s.locked = false → ∃ t, exec (.pushSample w) s = .next t ∧
    t.out.anomaly ≠ .illegal ∧ t.out.anomaly ≠ .overdue ∧ t.out.bit = none ∧ (s.calValid = true → t.calValid = true) ∧
    (t.locked = true → t.bitCount = 1 ∧ t.lastLevel = t.out.level ∧ t.midSeen = false)

/-- Decoding a clean stream (43_bit_state_machine.md R190, derived): from a bit boundary (`bit_count = 0`), a lock
sample (`bit_count = 1`) or any other within-bit count, a sequence of bits of legal lengths, the first one measured with that count, yields exactly those bits, each
at the change sample that begins the next bit, with no anomaly, and no register but the level tracker and the within-bit counter moves.
The first clause ties the classified samples to BSM.STEP. -/
def Obligations.CleanStreamDecodesToItsBits : Prop :=
  (∀ (s s1 : State) (w : SampleWord) (v : Wave), exec (.calPush w) s = .next s1 → s1.ret = .level v.level →
    exec (.bsmStep w) s = .next { (bsmClassified v s1).2 with ret := .bitResult (bsmClassified v s1).1 }) ∧
  (∀ (s : State) (x : Wave) (first : BitShape) (more : List BitShape), s.cfg.wf = true → s.locked = true →
    s.midSeen = false → s.lastLevel = x.level →
    first.legal s.cfg.thr s.bitCount → (∀ b ∈ more, b.legal s.cfg.thr 0) →
    let r := classifiedRun (lineSamples x (first :: more)) s
    r.1.filterMap (fun q => q.bit) = (first :: more).map BitShape.value ∧
    (∀ q ∈ r.1, q.anomaly = .none) ∧
    r.2 = { s with lastLevel := (lineEnd x (first :: more)).level, bitCount := 0 })

/-- Polarity carries no information (30_encoding.md R87, derived): the same samples with both levels exchanged give the
same bits and anomalies, and the same state with its levels exchanged. -/
def Obligations.PolarityDoesNotMatter : Prop :=
  ∀ (vs : List Wave) (s : State),
    ((classifiedRun (vs.map otherWave) (flipState s)).1.map fun q => (q.bit, q.anomaly)) =
      ((classifiedRun vs s).1.map fun q => (q.bit, q.anomaly)) ∧
    (classifiedRun (vs.map otherWave) (flipState s)).2 = flipState (classifiedRun vs s).2

/-! ## The frame assembler -/

/-- R210, R212: FA.SAMPLE_RECEIVED resets the count while `data[15:8] = 0x3F` and `data[7:0] = 0xFD`, else increments
it; FA.GET_DATA returns the copies exactly when `sync_word = 0x3FFD`. -/
def Obligations.SampleCountAndFramePoll : Prop :=
  ∀ s : State,
    (s.data.toNat % 65536 = 0x3FFD → exec .faSampleReceived s = .next { s with fdsc := 0, ret := .unit }) ∧
    (s.data.toNat % 65536 ≠ 0x3FFD → exec .faSampleReceived s = .next { s with fdsc := s.fdsc + 1, ret := .unit }) ∧
    (s.syncWord.toNat = 0x3FFD → exec .faGetData s = .next
      { s with ret := .rawFrame (some { payload := s.data, sampleCount := s.fdsc }) }) ∧
    (s.syncWord.toNat ≠ 0x3FFD → exec .faGetData s = .next { s with ret := .rawFrame none })

/-- R211, R64: FA.SHIFT_BIT moves every bit of the 80-bit chain `sync_word ++ data` one position up, the new bit in at
`data[0]`; so after any number of shifts position `i` holds the bit shifted in `i` shifts before the last, and older positions
what stood in the chain before, moved up. -/
def Obligations.ShiftChainHoldsTheLastEightyBits : Prop :=
  (∀ (s : State) (b : Bool), ∃ d y, exec (.faShiftBit b) s = .next { s with data := d, syncWord := y, ret := .unit } ∧
    (∀ i < 64, d.getLsbD i = if i = 0 then b else s.data.getLsbD (i - 1)) ∧
    (∀ i < 16, y.getLsbD i = if i = 0 then s.data.getLsbD 63 else s.syncWord.getLsbD (i - 1))) ∧
  (∀ (s : State) (bs : List Bool), ∃ t, execAll (bs.map .faShiftBit) s = .next t ∧
    t = { s with data := t.data, syncWord := t.syncWord, ret := t.ret } ∧
    ∀ i < 80, (t.syncWord ++ t.data).getLsbD i =
      if i < bs.length then bs.reverse.getD i false else (s.syncWord ++ s.data).getLsbD (i - bs.length))

/-- Frame recognition (44_frame_assembler.md R216, derived): after 80 shifts from any state FA.GET_DATA returns a frame
exactly when the first sixteen of the bits are the sync word of R89; its payload word `rev64(data)` then holds the 64 bits
that followed, the first at index 0, and its count is `fdsc`. -/
def Obligations.FrameIsSyncWordThenPayload : Prop :=
  ∀ (s : State) (bs : List Bool), bs.length = 80 → ∃ t g,
    execAll (bs.map .faShiftBit) s = .next t ∧ exec .faGetData t = .next { t with ret := .rawFrame g } ∧
    (g.isSome = true ↔ bs.take 16 = syncBits) ∧
    (∀ f, g = some f → f.sampleCount = s.fdsc ∧ f.payload = t.data ∧
      ∀ k, (hk : k < 64) → (rev64 f.payload).getLsbD k = bs.getD (16 + k) false)

/-! ## The field codec -/

/-- R232 to R235: the digit getters are `units + 10 * tens` of their fields, as an integer that fits the `u8`. -/
def Obligations.DigitGettersReadTheirFields : Prop :=
  ∀ (s : State) (p : Payload), ∃ f sec m h : Byte,
    exec (.ffcGetFrames p) s = .next { s with ret := .digits f } ∧
    f.toNat = p.toNat % 2 ^ 4 + 10 * (p.toNat / 2 ^ 8 % 2 ^ 2) ∧
    exec (.ffcGetSeconds p) s = .next { s with ret := .digits sec } ∧
    sec.toNat = p.toNat / 2 ^ 16 % 2 ^ 4 + 10 * (p.toNat / 2 ^ 24 % 2 ^ 3) ∧
    exec (.ffcGetMinutes p) s = .next { s with ret := .digits m } ∧
    m.toNat = p.toNat / 2 ^ 32 % 2 ^ 4 + 10 * (p.toNat / 2 ^ 40 % 2 ^ 3) ∧
    exec (.ffcGetHours p) s = .next { s with ret := .digits h } ∧
    h.toNat = p.toNat / 2 ^ 48 % 2 ^ 4 + 10 * (p.toNat / 2 ^ 56 % 2 ^ 2) ∧
    f.toNat ≤ 45 ∧ sec.toNat ≤ 85 ∧ m.toNat ≤ 85 ∧ h.toNat ≤ 45

/-- R240 to R247: the eight user nibbles, `P[7:4]` up to `P[63:60]`. -/
def Obligations.NibbleGettersReadTheirFields : Prop :=
  ∀ (s : State) (p : Payload), ∃ n1 n2 n3 n4 n5 n6 n7 n8 : Nibble,
    (exec (.ffcGetUb1 p) s = .next { s with ret := .nibble n1 } ∧ n1.toNat = p.toNat / 2 ^ 4 % 16) ∧
    (exec (.ffcGetUb2 p) s = .next { s with ret := .nibble n2 } ∧ n2.toNat = p.toNat / 2 ^ 12 % 16) ∧
    (exec (.ffcGetUb3 p) s = .next { s with ret := .nibble n3 } ∧ n3.toNat = p.toNat / 2 ^ 20 % 16) ∧
    (exec (.ffcGetUb4 p) s = .next { s with ret := .nibble n4 } ∧ n4.toNat = p.toNat / 2 ^ 28 % 16) ∧
    (exec (.ffcGetUb5 p) s = .next { s with ret := .nibble n5 } ∧ n5.toNat = p.toNat / 2 ^ 36 % 16) ∧
    (exec (.ffcGetUb6 p) s = .next { s with ret := .nibble n6 } ∧ n6.toNat = p.toNat / 2 ^ 44 % 16) ∧
    (exec (.ffcGetUb7 p) s = .next { s with ret := .nibble n7 } ∧ n7.toNat = p.toNat / 2 ^ 52 % 16) ∧
    (exec (.ffcGetUb8 p) s = .next { s with ret := .nibble n8 } ∧ n8.toNat = p.toNat / 2 ^ 60 % 16)

/-- R250 to R253: a digit setter writes `v mod 10` into its units field and `(v - v mod 10) / 10` into its tens field,
each keeping only the field's low bits, and no other bit of `P`; the getter then reads `v` up to 39 or 79, and above
that its units with the tens cut to their field. -/
def Obligations.DigitSettersWriteTheirFields : Prop :=
  ∀ (s : State) (p : Payload) (v : Nat),
    let digitBits := fun (lo hi w : Nat) (q : Payload) => ∀ i < 64, q.getLsbD i =
      if lo ≤ i ∧ i < lo + 4 then (v % 10).testBit (i - lo)
      else if hi ≤ i ∧ i < hi + w then ((v - v % 10) / 10).testBit (i - hi) else p.getLsbD i
    let readsBack := fun (m limit : Nat) (d : Byte) =>
      d.toNat = v % 10 + 10 * ((v - v % 10) / 10 % m) ∧ (v ≤ limit → d.toNat = v)
    (∃ q d, exec (.ffcSetFrames p v) s = .next { s with ret := .payload q } ∧ digitBits 0 8 2 q ∧
      exec (.ffcGetFrames q) s = .next { s with ret := .digits d } ∧ readsBack 4 39 d) ∧
    (∃ q d, exec (.ffcSetSeconds p v) s = .next { s with ret := .payload q } ∧ digitBits 16 24 3 q ∧
      exec (.ffcGetSeconds q) s = .next { s with ret := .digits d } ∧ readsBack 8 79 d) ∧
    (∃ q d, exec (.ffcSetMinutes p v) s = .next { s with ret := .payload q } ∧ digitBits 32 40 3 q ∧
      exec (.ffcGetMinutes q) s = .next { s with ret := .digits d } ∧ readsBack 8 79 d) ∧
    (∃ q d, exec (.ffcSetHours p v) s = .next { s with ret := .payload q } ∧ digitBits 48 56 2 q ∧
      exec (.ffcGetHours q) s = .next { s with ret := .digits d } ∧ readsBack 4 39 d)

/-- R255 to R262: a nibble setter writes `v mod 16` into its field and no other bit of `P`. -/
def Obligations.NibbleSettersWriteTheirFields : Prop :=
  ∀ (s : State) (p : Payload) (v : Nat),
    let nibbleBits := fun (lo : Nat) (q : Payload) => ∀ i < 64, q.getLsbD i =
      if lo ≤ i ∧ i < lo + 4 then v.testBit (i - lo) else p.getLsbD i
    (∃ q, exec (.ffcSetUb1 p v) s = .next { s with ret := .payload q } ∧ nibbleBits 4 q) ∧
    (∃ q, exec (.ffcSetUb2 p v) s = .next { s with ret := .payload q } ∧ nibbleBits 12 q) ∧
    (∃ q, exec (.ffcSetUb3 p v) s = .next { s with ret := .payload q } ∧ nibbleBits 20 q) ∧
    (∃ q, exec (.ffcSetUb4 p v) s = .next { s with ret := .payload q } ∧ nibbleBits 28 q) ∧
    (∃ q, exec (.ffcSetUb5 p v) s = .next { s with ret := .payload q } ∧ nibbleBits 36 q) ∧
    (∃ q, exec (.ffcSetUb6 p v) s = .next { s with ret := .payload q } ∧ nibbleBits 44 q) ∧
    (∃ q, exec (.ffcSetUb7 p v) s = .next { s with ret := .payload q } ∧ nibbleBits 52 q) ∧
    (∃ q, exec (.ffcSetUb8 p v) s = .next { s with ret := .payload q } ∧ nibbleBits 60 q)

/-- Round trip of the codec (45_field_codec.md R265, derived): all twelve setters applied to 0, then every getter:
nibbles exactly, digit pairs as `units + 10 * (tens mod 4)` or `(tens mod 8)`, so exactly up to 39 and 79. -/
def Obligations.CodecRoundTrip : Prop :=
  ∀ (h m sec f : Nat) (n1 n2 n3 n4 n5 n6 n7 n8 : Nibble),
    let digits := ffcSetHours (ffcSetMinutes (ffcSetSeconds (ffcSetFrames 0 f) sec) m) h
    let low := ffcSetUb4 (ffcSetUb3 (ffcSetUb2 (ffcSetUb1 digits n1.toNat) n2.toNat) n3.toNat) n4.toNat
    let p := ffcSetUb8 (ffcSetUb7 (ffcSetUb6 (ffcSetUb5 low n5.toNat) n6.toNat) n7.toNat) n8.toNat
    (ffcGetHours p).toNat = h % 10 + 10 * (h / 10 % 4) ∧ (ffcGetMinutes p).toNat = m % 10 + 10 * (m / 10 % 8) ∧
    (ffcGetSeconds p).toNat = sec % 10 + 10 * (sec / 10 % 8) ∧ (ffcGetFrames p).toNat = f % 10 + 10 * (f / 10 % 4) ∧
    (h ≤ 39 → (ffcGetHours p).toNat = h) ∧ (m ≤ 79 → (ffcGetMinutes p).toNat = m) ∧
    (sec ≤ 79 → (ffcGetSeconds p).toNat = sec) ∧ (f ≤ 39 → (ffcGetFrames p).toNat = f) ∧
    ffcGetUb1 p = n1 ∧ ffcGetUb2 p = n2 ∧ ffcGetUb3 p = n3 ∧ ffcGetUb4 p = n4 ∧
    ffcGetUb5 p = n5 ∧ ffcGetUb6 p = n6 ∧ ffcGetUb7 p = n7 ∧ ffcGetUb8 p = n8

/-! ## Frame rate and timecode -/

/-- R271: FPS.CLASSIFY answers a rate exactly when the count lies in that rate's band, both ends inside, and `Unknown`
exactly when it lies in none: the bands are disjoint. -/
def Obligations.RateIsTheBandOfTheCount : Prop :=
  ∀ (s : State) (count : Nat), 0 < s.cfg.fs.num → 0 < s.cfg.fs.den → ∃ f,
    exec (.fpsClassify count) s = .next { s with ret := .fps f } ∧
    let band := fun r : Nat =>
      784 * s.cfg.fs.num ≤ 1000 * count * r * s.cfg.fs.den ∧ 1000 * count * r * s.cfg.fs.den ≤ 816 * s.cfg.fs.num
    (f = .fps24 ↔ band 24) ∧ (f = .fps25 ↔ band 25) ∧ (f = .fps30 ↔ band 30) ∧
    (f = .unknown ↔ ¬ band 24 ∧ ¬ band 25 ∧ ¬ band 30)

/-- R275: TC.BUILD reads every digit pair and nibble from `P = rev64(payload)` by its getter and the rate from the count
by FPS.CLASSIFY; the payload and the count are copied. -/
def Obligations.BuildCollectsTheFields : Prop :=
  ∀ (s : State) (d : Payload) (count : Nat), ∃ (t : TimecodeFrame) (p : Payload),
    (∀ i < 64, p.getLsbD i = d.getLsbD (63 - i)) ∧
    exec (.tcBuild d count) s = .next { s with ret := .frame t } ∧
    exec (.ffcGetHours p) s = .next { s with ret := .digits t.hours } ∧
    exec (.ffcGetMinutes p) s = .next { s with ret := .digits t.minutes } ∧
    exec (.ffcGetSeconds p) s = .next { s with ret := .digits t.seconds } ∧
    exec (.ffcGetFrames p) s = .next { s with ret := .digits t.frames } ∧
    exec (.fpsClassify count) s = .next { s with ret := .fps t.fps } ∧
    exec (.ffcGetUb1 p) s = .next { s with ret := .nibble t.ub.ub1 } ∧
    exec (.ffcGetUb2 p) s = .next { s with ret := .nibble t.ub.ub2 } ∧
    exec (.ffcGetUb3 p) s = .next { s with ret := .nibble t.ub.ub3 } ∧
    exec (.ffcGetUb4 p) s = .next { s with ret := .nibble t.ub.ub4 } ∧
    exec (.ffcGetUb5 p) s = .next { s with ret := .nibble t.ub.ub5 } ∧
    exec (.ffcGetUb6 p) s = .next { s with ret := .nibble t.ub.ub6 } ∧
    exec (.ffcGetUb7 p) s = .next { s with ret := .nibble t.ub.ub7 } ∧
    exec (.ffcGetUb8 p) s = .next { s with ret := .nibble t.ub.ub8 } ∧
    t.payload = d ∧ t.sampleCount = count

/-- R280: TC.ADVANCE, every carry: frames always; seconds when frames reaches the modulus of the rate; minutes when
seconds reaches 60; hours when minutes reaches 60, with no modulus. A field that would be incremented and holds 255 is
outside the domain and refused (R280 (d)). -/
def Obligations.AdvanceCarries : Prop :=
  ∀ (s : State) (t : TimecodeFrame),
    let rolls := (t.fps = .fps24 ∧ t.frames.toNat + 1 = 24) ∨ (t.fps = .fps25 ∧ t.frames.toNat + 1 = 25) ∨
      (t.fps = .fps30 ∧ t.frames.toNat + 1 = 30)
    (t.frames.toNat = 255 → exec (.tcAdvance t) s = .refused .advanceOutsideDomain) ∧
    (t.frames.toNat < 255 → ¬ rolls →
      exec (.tcAdvance t) s = .next { s with ret := .frame { t with frames := BitVec.ofNat 8 (t.frames.toNat + 1) } }) ∧
    (rolls → t.seconds.toNat = 255 → exec (.tcAdvance t) s = .refused .advanceOutsideDomain) ∧
    (rolls → t.seconds.toNat < 255 → t.seconds.toNat + 1 ≠ 60 → exec (.tcAdvance t) s = .next
      { s with ret := .frame { t with frames := 0, seconds := BitVec.ofNat 8 (t.seconds.toNat + 1) } }) ∧
    (rolls → t.seconds.toNat + 1 = 60 → t.minutes.toNat = 255 →
      exec (.tcAdvance t) s = .refused .advanceOutsideDomain) ∧
    (rolls → t.seconds.toNat + 1 = 60 → t.minutes.toNat < 255 → t.minutes.toNat + 1 ≠ 60 →
      exec (.tcAdvance t) s = .next
        { s with ret := .frame { t with frames := 0, seconds := 0, minutes := BitVec.ofNat 8 (t.minutes.toNat + 1) } }) ∧
    (rolls → t.seconds.toNat + 1 = 60 → t.minutes.toNat + 1 = 60 → t.hours.toNat = 255 →
      exec (.tcAdvance t) s = .refused .advanceOutsideDomain) ∧
    (rolls → t.seconds.toNat + 1 = 60 → t.minutes.toNat + 1 = 60 → t.hours.toNat < 255 →
      exec (.tcAdvance t) s = .next
        { s with ret := .frame { t with frames := 0, seconds := 0, minutes := 0,
                                        hours := BitVec.ofNat 8 (t.hours.toNat + 1) } })

/-- TC.ADVANCE adds one frame to a valid time (46_frame_rate_timecode.md R280, derived): with frames below the rate and
seconds and minutes below 60, the total number of frames grows by one, the result is again such a time, and the other fields are
copied. -/
def Obligations.AdvanceAddsOneFrame : Prop :=
  ∀ (s : State) (t : TimecodeFrame) (r : Nat),
    (t.fps = .fps24 ∧ r = 24) ∨ (t.fps = .fps25 ∧ r = 25) ∨ (t.fps = .fps30 ∧ r = 30) →
    t.frames.toNat < r → t.seconds.toNat < 60 → t.minutes.toNat < 60 → t.hours.toNat < 255 → ∃ u : TimecodeFrame,
      exec (.tcAdvance t) s = .next { s with ret := .frame u } ∧
      ((u.hours.toNat * 60 + u.minutes.toNat) * 60 + u.seconds.toNat) * r + u.frames.toNat =
        ((t.hours.toNat * 60 + t.minutes.toNat) * 60 + t.seconds.toNat) * r + t.frames.toNat + 1 ∧
      u.frames.toNat < r ∧ u.seconds.toNat < 60 ∧ u.minutes.toNat < 60 ∧
      u.fps = t.fps ∧ u.ub = t.ub ∧ u.payload = t.payload ∧ u.sampleCount = t.sampleCount

/-! ## Outputs -/

/-- The output ports (10_state.md R43; 30_encoding.md R84, R86, R95; 60_exceptions.md R291): the codes, the valid
strobes, the packing of the user bits, and the status outputs of the state. -/
def Obligations.OutputPortFormat : Prop :=
  ∀ s : State,
    ((outputPorts s).lockedO = s.locked ∧ (outputPorts s).calValidO = s.calValid ∧ (outputPorts s).thrO = s.calThr) ∧
    (outputPorts s).levelO.toNat = (match s.out.level with | .unknown => 0 | .low => 1 | .high => 2) ∧
    (outputPorts s).anomalyO.toNat = (match s.out.anomaly with | .none => 0 | .cal => 1 | .illegal => 2 | .overdue => 3) ∧
    ((outputPorts s).bitValidO = true ↔ ∃ b, s.out.bit = some b ∧ (outputPorts s).bitO = some b) ∧
    ((outputPorts s).frameValidO = true ↔ ∃ t, s.out.frame = some t) ∧
    (∀ t, s.out.frame = some t → ∃ o, (outputPorts s).frameO = some o ∧
      o.hoursO = t.hours ∧ o.minutesO = t.minutes ∧ o.secondsO = t.seconds ∧ o.framesO = t.frames ∧
      o.fpsO.toNat = (match t.fps with | .unknown => 0 | .fps24 => 1 | .fps25 => 2 | .fps30 => 3) ∧
      o.payloadO = t.payload ∧ o.countO = t.sampleCount ∧
      o.ubO.toNat = t.ub.ub1.toNat + 2 ^ 4 * t.ub.ub2.toNat + 2 ^ 8 * t.ub.ub3.toNat + 2 ^ 12 * t.ub.ub4.toNat +
        2 ^ 16 * t.ub.ub5.toNat + 2 ^ 20 * t.ub.ub6.toNat + 2 ^ 24 * t.ub.ub7.toNat + 2 ^ 28 * t.ub.ub8.toNat)

/-! ## The whole machine -/

/-- The state right after RESET meets the invariant, in every well-formed configuration (10_state.md R50). -/
def Obligations.ResetMeetsTheInvariant : Prop := ∀ c : Config, c.wf = true → Inv (State.resetWith c)

/-- Every step keeps the invariant (10_state.md R20 to R25, R47): from every state that meets it, not only those of a
run. -/
def Obligations.EveryStepKeepsTheInvariant : Prop := ∀ s t : State, Inv s → step s = .next t → Inv t

/-- The phase transitions (40_commands.md R127, derived): RESET goes to calibrating; a push on a calibrating block reaches searching
exactly at the 255th push; a searching block stays or locks; a locked block stays, or goes to calibrating exactly when
`A_ILLEGAL` or `A_OVERDUE` is reported; IDLE stays. -/
def Obligations.PhaseTransitions : Prop :=
  ∀ s : State, Inv s →
    (∃ t, exec .reset s = .next t ∧ phase t = .calibrating) ∧
    (∃ t, exec .idle s = .next t ∧ phase t = phase s) ∧
    ∀ w, ∃ t, exec (.pushSample w) s = .next t ∧
      (phase s = .calibrating → (s.calCount + 1 = 255 → phase t = .searching) ∧ (s.calCount + 1 < 255 → phase t = .calibrating)) ∧
      (phase s = .searching → phase t = .searching ∨ phase t = .locked) ∧
      (phase s = .locked → (phase t = .calibrating ∧ (t.out.anomaly = .illegal ∨ t.out.anomaly = .overdue)) ∨
        (phase t = .locked ∧ t.out.anomaly = .none))

/-- Each register has its writers (10_state.md R20 to R36, R40): an operation that changes a register is one that its
rule names, or invokes one that is. No operation writes the configuration (R40). Of the model's own fields, which are no
registers of the block: no operation writes the commands still to come, only commands write `out` and only the other
operations `ret`; that is the model's choice (log 11). -/
def Obligations.RegistersChangeOnlyByTheirWriters : Prop :=
  ∀ (i : Instr) (s t : State), exec i s = .next t →
    let invalidates := i = .reset ∨ i = .invalidate ∨ (∃ w, i = .pushSample w ∨ i = .bsmStep w) ∨ ∃ e c v, i = .bsmResolve e c v
    t.cfg = s.cfg ∧ t.stimulus = s.stimulus ∧
    (t.hist ≠ s.hist ∨ t.histCursor ≠ s.histCursor → i = .reset ∨ ∃ w, i = .pushSample w ∨ i = .bsmStep w ∨ i = .calPush w) ∧
    (t.calCount ≠ s.calCount → invalidates ∨ i = .calInvalidate ∨ ∃ w, i = .calPush w) ∧
    (t.calMin ≠ s.calMin ∨ t.calMax ≠ s.calMax ∨ t.calThr ≠ s.calThr ∨ t.calValid ≠ s.calValid →
      invalidates ∨ i = .calInvalidate ∨ i = .calRecompute ∨ ∃ w, i = .calPush w) ∧
    (t.locked ≠ s.locked ∨ t.bitCount ≠ s.bitCount ∨ t.lastLevel ≠ s.lastLevel ∨ t.midSeen ≠ s.midSeen →
      invalidates ∨ i = .bsmInvalidate) ∧
    (t.zdLevel ≠ s.zdLevel ∨ t.zdCount ≠ s.zdCount →
      invalidates ∨ i = .bsmInvalidate ∨ i = .zdReset ∨ ∃ v, i = .zdStep v) ∧
    (t.data ≠ s.data ∨ t.syncWord ≠ s.syncWord → invalidates ∨ i = .faInvalidate ∨ ∃ b, i = .faShiftBit b) ∧
    (t.fdsc ≠ s.fdsc → invalidates ∨ i = .faInvalidate ∨ i = .faSampleReceived) ∧
    (t.out ≠ s.out → i = .reset ∨ i = .idle ∨ ∃ w, i = .pushSample w) ∧
    (i = .reset ∨ i = .idle ∨ (∃ w, i = .pushSample w) → t.ret = s.ret)

/-- Hidden registers (10_state.md R52, R32, R33), those but `hist_cursor`: no output of a push depends on `cal_min` and
`cal_max`, and while locked none depends on `zd_level` and `zd_count`; what the push leaves differs in those registers at
most. For `hist_cursor` see `RingContentAndCursorDoNotShow`. -/
def Obligations.HiddenRegistersDoNotShow : Prop :=
  ∀ (s : State) (w : SampleWord) (a b : Int) (l : Level) (n : Nat), s.histCursor < 255 →
    (∃ t u, exec (.pushSample w) s = .next t ∧ exec (.pushSample w) { s with calMin := a, calMax := b } = .next u ∧
      u = { t with calMin := u.calMin, calMax := u.calMax }) ∧
    (s.locked = true →
      ∃ t u, exec (.pushSample w) s = .next t ∧ exec (.pushSample w) { s with zdLevel := l, zdCount := n } = .next u ∧
      u = { t with zdLevel := u.zdLevel, zdCount := u.zdCount })

/-! ## The ring and its cursor -/

/-- Every window, the later ones too (41_calibrator.md R140 corner cases (a) and (c), R146; 10_state.md R48, derived): from
any state with `cal_count = 0`, `cal_valid` as it may be, 255 times CAL.PUSH leave the bounds at the minimum and maximum of
exactly the pushed samples, the threshold at the sum of their halves, each truncated toward zero (R9; log 14), the count
at 0, the cursor where it was and the threshold valid; and no register outside the calibrator moves. -/
def Obligations.EveryBlockOf255PushesIsItsWindow : Prop :=
  ∀ (s : State) (ws : List SampleWord), s.cfg.wf = true → Memory.wf s.hist = true → s.histCursor < 255 →
    s.calCount = 0 → ws.length = 255 →
    ∃ t, execAll (ws.map .calPush) s = .next t ∧
      (∃ w ∈ ws, t.calMin = sampleInt s.cfg w) ∧ (∀ w ∈ ws, t.calMin ≤ sampleInt s.cfg w) ∧
      (∃ w ∈ ws, t.calMax = sampleInt s.cfg w) ∧ (∀ w ∈ ws, sampleInt s.cfg w ≤ t.calMax) ∧
      t = { s with hist := t.hist, calMin := t.calMin, calMax := t.calMax, ret := t.ret
                   calThr := t.calMin.tdiv 2 + t.calMax.tdiv 2, calValid := true, calCount := 0 }

/-- The ring's cursor and its old content are hidden (10_state.md R20, R21, R48, R52; 92_eei_decisions.md D33, derived): from a
state with `cal_count = 0`, as every RESET, INVALIDATE and recomputation leaves it, any number of steps on any commands
gives the same state but for the ring and its cursor, whatever the ring held and wherever in it the cursor stood. -/
def Obligations.RingContentAndCursorDoNotShow : Prop :=
  ∀ (s : State) (m : Memory) (c n : Nat), s.cfg.wf = true → Memory.wf s.hist = true → Memory.wf m = true →
    s.histCursor < 255 → c < 255 → s.calCount = 0 →
    ∃ t m' c', Host.Core.run core n s = .next t ∧
      Host.Core.run core n { s with hist := m, histCursor := c } = .next { t with hist := m', histCursor := c' }

/-- Where an operation faults: `hist_cursor` is an unbounded natural (R46), the ring has the indices 0 to 254 and
"nothing else" (R62), so a write of the ring with a cursor above 254 names no location. Those operations fault there, which
is the model's choice (log 21), and no operation faults anywhere else. -/
def Obligations.OnlyAWriteOutsideTheRingFaults : Prop :=
  (∀ (s : State) (w : SampleWord), 255 ≤ s.histCursor → exec (.calPush w) s = .fault .noSuchRingLocation ∧
    exec (.bsmStep w) s = .fault .noSuchRingLocation ∧ exec (.pushSample w) s = .fault .noSuchRingLocation) ∧
  (∀ (i : Instr) (s : State) (f : Fault), exec i s = .fault f → 255 ≤ s.histCursor ∧
    ∃ w, i = .calPush w ∨ i = .bsmStep w ∨ i = .pushSample w)
end

