-- ==== Sys2Proof/Laws/Decode.lean ====
section
/-! SUPPORT. The control word's rows and the serialisation of the ports. -/

namespace Sys2Proof

/-- The row of RESET selects on `rst` alone (R82). -/
@[simp] theorem selects_reset (p : Ports) : CtlRow.reset.selects p.ctl = p.rst := by
  obtain ⟨r, v, w⟩ := p
  show CtlRow.reset.selects (BitVec.ofBool r ++ BitVec.ofBool v) = r
  revert r v; decide

/-- The row of PUSH_SAMPLE selects exactly `0b01` (R82). -/
@[simp] theorem selects_pushSample (p : Ports) : CtlRow.pushSample.selects p.ctl = (!p.rst && p.sampleValid) := by
  obtain ⟨r, v, w⟩ := p
  show CtlRow.pushSample.selects (BitVec.ofBool r ++ BitVec.ofBool v) = (!r && v)
  revert r v; decide

/-- The row of IDLE selects exactly `0b00` (R82). -/
@[simp] theorem selects_idle (p : Ports) : CtlRow.idle.selects p.ctl = (!p.rst && !p.sampleValid) := by
  obtain ⟨r, v, w⟩ := p
  show CtlRow.idle.selects (BitVec.ofBool r ++ BitVec.ofBool v) = (!r && !v)
  revert r v; decide

/-- The rows overlap nowhere and leave no control word out (R82, "All four values of `ctl` are defined"). -/
theorem rows_partition (p : Ports) :
    [CtlRow.reset, CtlRow.pushSample, CtlRow.idle].countP (fun r => r.selects p.ctl) = 1 := by
  simp only [List.countP_cons, List.countP_nil, selects_reset, selects_pushSample, selects_idle]
  cases p.rst <;> cases p.sampleValid <;> rfl

theorem decodePorts_eq (p : Ports) :
    decodePorts p = if p.rst then .reset else if p.sampleValid then .pushSample p.sampleIn else .idle := by
  simp only [decodePorts, selects_reset, selects_pushSample]
  cases p.rst <;> simp

theorem ctl_bit1 (p : Ports) : p.ctl.getLsbD 1 = p.rst := by
  obtain ⟨r, v, w⟩ := p
  show (BitVec.ofBool r ++ BitVec.ofBool v).getLsbD 1 = r
  revert r v; decide

theorem ctl_bit0 (p : Ports) : p.ctl.getLsbD 0 = p.sampleValid := by
  obtain ⟨r, v, w⟩ := p
  show (BitVec.ofBool r ++ BitVec.ofBool v).getLsbD 0 = v
  revert r v; decide

/-- A bit of the command word: the control word below, the sample above (log 7). -/
theorem wordOfPorts_bit (p : Ports) (i : Nat) :
    (wordOfPorts p).getLsbD i = if i < 2 then p.ctl.getLsbD i else p.sampleIn.getLsbD (i - 2) := by
  rw [wordOfPorts, BitVec.getLsbD_append]

/-- The ports survive the serialisation (log 7). -/
@[simp] theorem portsOfWord_wordOfPorts (p : Ports) : portsOfWord (wordOfPorts p) = p := by
  have hs : (wordOfPorts p).extractLsb' 2 32 = p.sampleIn := by
    apply BitVec.eq_of_getLsbD_eq
    intro i hi
    rw [BitVec.getLsbD_extractLsb', wordOfPorts_bit, if_neg (by omega), decide_eq_true hi, Bool.true_and, Nat.add_sub_cancel_left]
  rw [portsOfWord, hs, wordOfPorts_bit, wordOfPorts_bit, if_pos (by decide), if_pos (by decide), ctl_bit1, ctl_bit0]

/-- And a word is the word of its ports. -/
@[simp] theorem wordOfPorts_portsOfWord (w : CommandWord) : wordOfPorts (portsOfWord w) = w := by
  apply BitVec.eq_of_getLsbD_eq
  intro i hi
  rw [wordOfPorts_bit]
  by_cases h2 : i < 2
  · rw [if_pos h2]
    have : i = 0 ∨ i = 1 := by omega
    rcases this with rfl | rfl
    · rw [ctl_bit0]; rfl
    · rw [ctl_bit1]; rfl
  · rw [if_neg h2, portsOfWord, BitVec.getLsbD_extractLsb', decide_eq_true (show i - 2 < 32 by omega), Bool.true_and,
      show 2 + (i - 2) = i by omega]

end Sys2Proof
end

