-- ==== Sys2Proof/Laws/State.lean ====
section
/-! SUPPORT. One lemma per field per update of `State`: what each shared update of Machine/Ops.lean and the families
leaves in each field. Later proofs rewrite with these and unfold no record update. -/

namespace Sys2Proof.Machine

@[simp] theorem setRet_hist (r : Ret) (s : State) : (setRet r s).hist = s.hist := rfl
@[simp] theorem setRet_histCursor (r : Ret) (s : State) : (setRet r s).histCursor = s.histCursor := rfl
@[simp] theorem setRet_calCount (r : Ret) (s : State) : (setRet r s).calCount = s.calCount := rfl
@[simp] theorem setRet_calMin (r : Ret) (s : State) : (setRet r s).calMin = s.calMin := rfl
@[simp] theorem setRet_calMax (r : Ret) (s : State) : (setRet r s).calMax = s.calMax := rfl
@[simp] theorem setRet_calThr (r : Ret) (s : State) : (setRet r s).calThr = s.calThr := rfl
@[simp] theorem setRet_calValid (r : Ret) (s : State) : (setRet r s).calValid = s.calValid := rfl
@[simp] theorem setRet_locked (r : Ret) (s : State) : (setRet r s).locked = s.locked := rfl
@[simp] theorem setRet_bitCount (r : Ret) (s : State) : (setRet r s).bitCount = s.bitCount := rfl
@[simp] theorem setRet_lastLevel (r : Ret) (s : State) : (setRet r s).lastLevel = s.lastLevel := rfl
@[simp] theorem setRet_midSeen (r : Ret) (s : State) : (setRet r s).midSeen = s.midSeen := rfl
@[simp] theorem setRet_zdLevel (r : Ret) (s : State) : (setRet r s).zdLevel = s.zdLevel := rfl
@[simp] theorem setRet_zdCount (r : Ret) (s : State) : (setRet r s).zdCount = s.zdCount := rfl
@[simp] theorem setRet_data (r : Ret) (s : State) : (setRet r s).data = s.data := rfl
@[simp] theorem setRet_syncWord (r : Ret) (s : State) : (setRet r s).syncWord = s.syncWord := rfl
@[simp] theorem setRet_fdsc (r : Ret) (s : State) : (setRet r s).fdsc = s.fdsc := rfl
@[simp] theorem setRet_cfg (r : Ret) (s : State) : (setRet r s).cfg = s.cfg := rfl
@[simp] theorem setRet_stimulus (r : Ret) (s : State) : (setRet r s).stimulus = s.stimulus := rfl
@[simp] theorem setRet_out (r : Ret) (s : State) : (setRet r s).out = s.out := rfl
@[simp] theorem setRet_ret (r : Ret) (s : State) : (setRet r s).ret = r := rfl

@[simp] theorem setOut_hist (o : Out) (s : State) : (setOut o s).hist = s.hist := rfl
@[simp] theorem setOut_histCursor (o : Out) (s : State) : (setOut o s).histCursor = s.histCursor := rfl
@[simp] theorem setOut_calCount (o : Out) (s : State) : (setOut o s).calCount = s.calCount := rfl
@[simp] theorem setOut_calMin (o : Out) (s : State) : (setOut o s).calMin = s.calMin := rfl
@[simp] theorem setOut_calMax (o : Out) (s : State) : (setOut o s).calMax = s.calMax := rfl
@[simp] theorem setOut_calThr (o : Out) (s : State) : (setOut o s).calThr = s.calThr := rfl
@[simp] theorem setOut_calValid (o : Out) (s : State) : (setOut o s).calValid = s.calValid := rfl
@[simp] theorem setOut_locked (o : Out) (s : State) : (setOut o s).locked = s.locked := rfl
@[simp] theorem setOut_bitCount (o : Out) (s : State) : (setOut o s).bitCount = s.bitCount := rfl
@[simp] theorem setOut_lastLevel (o : Out) (s : State) : (setOut o s).lastLevel = s.lastLevel := rfl
@[simp] theorem setOut_midSeen (o : Out) (s : State) : (setOut o s).midSeen = s.midSeen := rfl
@[simp] theorem setOut_zdLevel (o : Out) (s : State) : (setOut o s).zdLevel = s.zdLevel := rfl
@[simp] theorem setOut_zdCount (o : Out) (s : State) : (setOut o s).zdCount = s.zdCount := rfl
@[simp] theorem setOut_data (o : Out) (s : State) : (setOut o s).data = s.data := rfl
@[simp] theorem setOut_syncWord (o : Out) (s : State) : (setOut o s).syncWord = s.syncWord := rfl
@[simp] theorem setOut_fdsc (o : Out) (s : State) : (setOut o s).fdsc = s.fdsc := rfl
@[simp] theorem setOut_cfg (o : Out) (s : State) : (setOut o s).cfg = s.cfg := rfl
@[simp] theorem setOut_stimulus (o : Out) (s : State) : (setOut o s).stimulus = s.stimulus := rfl
@[simp] theorem setOut_out (o : Out) (s : State) : (setOut o s).out = o := rfl
@[simp] theorem setOut_ret (o : Out) (s : State) : (setOut o s).ret = s.ret := rfl

@[simp] theorem advanceStimulus_hist (s : State) : (advanceStimulus s).hist = s.hist := rfl
@[simp] theorem advanceStimulus_histCursor (s : State) : (advanceStimulus s).histCursor = s.histCursor := rfl
@[simp] theorem advanceStimulus_calCount (s : State) : (advanceStimulus s).calCount = s.calCount := rfl
@[simp] theorem advanceStimulus_calMin (s : State) : (advanceStimulus s).calMin = s.calMin := rfl
@[simp] theorem advanceStimulus_calMax (s : State) : (advanceStimulus s).calMax = s.calMax := rfl
@[simp] theorem advanceStimulus_calThr (s : State) : (advanceStimulus s).calThr = s.calThr := rfl
@[simp] theorem advanceStimulus_calValid (s : State) : (advanceStimulus s).calValid = s.calValid := rfl
@[simp] theorem advanceStimulus_locked (s : State) : (advanceStimulus s).locked = s.locked := rfl
@[simp] theorem advanceStimulus_bitCount (s : State) : (advanceStimulus s).bitCount = s.bitCount := rfl
@[simp] theorem advanceStimulus_lastLevel (s : State) : (advanceStimulus s).lastLevel = s.lastLevel := rfl
@[simp] theorem advanceStimulus_midSeen (s : State) : (advanceStimulus s).midSeen = s.midSeen := rfl
@[simp] theorem advanceStimulus_zdLevel (s : State) : (advanceStimulus s).zdLevel = s.zdLevel := rfl
@[simp] theorem advanceStimulus_zdCount (s : State) : (advanceStimulus s).zdCount = s.zdCount := rfl
@[simp] theorem advanceStimulus_data (s : State) : (advanceStimulus s).data = s.data := rfl
@[simp] theorem advanceStimulus_syncWord (s : State) : (advanceStimulus s).syncWord = s.syncWord := rfl
@[simp] theorem advanceStimulus_fdsc (s : State) : (advanceStimulus s).fdsc = s.fdsc := rfl
@[simp] theorem advanceStimulus_cfg (s : State) : (advanceStimulus s).cfg = s.cfg := rfl
@[simp] theorem advanceStimulus_stimulus (s : State) : (advanceStimulus s).stimulus = s.stimulus.tail := rfl
@[simp] theorem advanceStimulus_out (s : State) : (advanceStimulus s).out = s.out := rfl
@[simp] theorem advanceStimulus_ret (s : State) : (advanceStimulus s).ret = s.ret := rfl

@[simp] theorem lockOn_hist (s : State) : (lockOn s).hist = s.hist := rfl
@[simp] theorem lockOn_histCursor (s : State) : (lockOn s).histCursor = s.histCursor := rfl
@[simp] theorem lockOn_calCount (s : State) : (lockOn s).calCount = s.calCount := rfl
@[simp] theorem lockOn_calMin (s : State) : (lockOn s).calMin = s.calMin := rfl
@[simp] theorem lockOn_calMax (s : State) : (lockOn s).calMax = s.calMax := rfl
@[simp] theorem lockOn_calThr (s : State) : (lockOn s).calThr = s.calThr := rfl
@[simp] theorem lockOn_calValid (s : State) : (lockOn s).calValid = s.calValid := rfl
@[simp] theorem lockOn_locked (s : State) : (lockOn s).locked = true := rfl
@[simp] theorem lockOn_bitCount (s : State) : (lockOn s).bitCount = 0 := rfl
@[simp] theorem lockOn_lastLevel (s : State) : (lockOn s).lastLevel = .unknown := rfl
@[simp] theorem lockOn_midSeen (s : State) : (lockOn s).midSeen = s.midSeen := rfl
@[simp] theorem lockOn_zdLevel (s : State) : (lockOn s).zdLevel = s.zdLevel := rfl
@[simp] theorem lockOn_zdCount (s : State) : (lockOn s).zdCount = s.zdCount := rfl
@[simp] theorem lockOn_data (s : State) : (lockOn s).data = s.data := rfl
@[simp] theorem lockOn_syncWord (s : State) : (lockOn s).syncWord = s.syncWord := rfl
@[simp] theorem lockOn_fdsc (s : State) : (lockOn s).fdsc = s.fdsc := rfl
@[simp] theorem lockOn_cfg (s : State) : (lockOn s).cfg = s.cfg := rfl
@[simp] theorem lockOn_stimulus (s : State) : (lockOn s).stimulus = s.stimulus := rfl
@[simp] theorem lockOn_out (s : State) : (lockOn s).out = s.out := rfl
@[simp] theorem lockOn_ret (s : State) : (lockOn s).ret = s.ret := rfl

@[simp] theorem calStore_hist (x : Int) (s : State) : (calStore x s).hist = memWrite s.hist s.histCursor x := rfl
@[simp] theorem calStore_histCursor (x : Int) (s : State) : (calStore x s).histCursor = cursorNext s.histCursor := rfl
@[simp] theorem calStore_calCount (x : Int) (s : State) : (calStore x s).calCount = s.calCount + 1 := rfl
@[simp] theorem calStore_calMin (x : Int) (s : State) : (calStore x s).calMin = s.calMin := rfl
@[simp] theorem calStore_calMax (x : Int) (s : State) : (calStore x s).calMax = s.calMax := rfl
@[simp] theorem calStore_calThr (x : Int) (s : State) : (calStore x s).calThr = s.calThr := rfl
@[simp] theorem calStore_calValid (x : Int) (s : State) : (calStore x s).calValid = s.calValid := rfl
@[simp] theorem calStore_locked (x : Int) (s : State) : (calStore x s).locked = s.locked := rfl
@[simp] theorem calStore_bitCount (x : Int) (s : State) : (calStore x s).bitCount = s.bitCount := rfl
@[simp] theorem calStore_lastLevel (x : Int) (s : State) : (calStore x s).lastLevel = s.lastLevel := rfl
@[simp] theorem calStore_midSeen (x : Int) (s : State) : (calStore x s).midSeen = s.midSeen := rfl
@[simp] theorem calStore_zdLevel (x : Int) (s : State) : (calStore x s).zdLevel = s.zdLevel := rfl
@[simp] theorem calStore_zdCount (x : Int) (s : State) : (calStore x s).zdCount = s.zdCount := rfl
@[simp] theorem calStore_data (x : Int) (s : State) : (calStore x s).data = s.data := rfl
@[simp] theorem calStore_syncWord (x : Int) (s : State) : (calStore x s).syncWord = s.syncWord := rfl
@[simp] theorem calStore_fdsc (x : Int) (s : State) : (calStore x s).fdsc = s.fdsc := rfl
@[simp] theorem calStore_cfg (x : Int) (s : State) : (calStore x s).cfg = s.cfg := rfl
@[simp] theorem calStore_stimulus (x : Int) (s : State) : (calStore x s).stimulus = s.stimulus := rfl
@[simp] theorem calStore_out (x : Int) (s : State) : (calStore x s).out = s.out := rfl
@[simp] theorem calStore_ret (x : Int) (s : State) : (calStore x s).ret = s.ret := rfl

@[simp] theorem faSampleReceived_hist (s : State) : (faSampleReceived s).hist = s.hist := rfl
@[simp] theorem faSampleReceived_histCursor (s : State) : (faSampleReceived s).histCursor = s.histCursor := rfl
@[simp] theorem faSampleReceived_calCount (s : State) : (faSampleReceived s).calCount = s.calCount := rfl
@[simp] theorem faSampleReceived_calMin (s : State) : (faSampleReceived s).calMin = s.calMin := rfl
@[simp] theorem faSampleReceived_calMax (s : State) : (faSampleReceived s).calMax = s.calMax := rfl
@[simp] theorem faSampleReceived_calThr (s : State) : (faSampleReceived s).calThr = s.calThr := rfl
@[simp] theorem faSampleReceived_calValid (s : State) : (faSampleReceived s).calValid = s.calValid := rfl
@[simp] theorem faSampleReceived_locked (s : State) : (faSampleReceived s).locked = s.locked := rfl
@[simp] theorem faSampleReceived_bitCount (s : State) : (faSampleReceived s).bitCount = s.bitCount := rfl
@[simp] theorem faSampleReceived_lastLevel (s : State) : (faSampleReceived s).lastLevel = s.lastLevel := rfl
@[simp] theorem faSampleReceived_midSeen (s : State) : (faSampleReceived s).midSeen = s.midSeen := rfl
@[simp] theorem faSampleReceived_zdLevel (s : State) : (faSampleReceived s).zdLevel = s.zdLevel := rfl
@[simp] theorem faSampleReceived_zdCount (s : State) : (faSampleReceived s).zdCount = s.zdCount := rfl
@[simp] theorem faSampleReceived_data (s : State) : (faSampleReceived s).data = s.data := rfl
@[simp] theorem faSampleReceived_syncWord (s : State) : (faSampleReceived s).syncWord = s.syncWord := rfl
@[simp] theorem faSampleReceived_fdsc (s : State) : (faSampleReceived s).fdsc = if sig s.data then 0 else s.fdsc + 1 := rfl
@[simp] theorem faSampleReceived_cfg (s : State) : (faSampleReceived s).cfg = s.cfg := rfl
@[simp] theorem faSampleReceived_stimulus (s : State) : (faSampleReceived s).stimulus = s.stimulus := rfl
@[simp] theorem faSampleReceived_out (s : State) : (faSampleReceived s).out = s.out := rfl
@[simp] theorem faSampleReceived_ret (s : State) : (faSampleReceived s).ret = s.ret := rfl

@[simp] theorem faShiftBit_hist (b : Bool) (s : State) : (faShiftBit b s).hist = s.hist := rfl
@[simp] theorem faShiftBit_histCursor (b : Bool) (s : State) : (faShiftBit b s).histCursor = s.histCursor := rfl
@[simp] theorem faShiftBit_calCount (b : Bool) (s : State) : (faShiftBit b s).calCount = s.calCount := rfl
@[simp] theorem faShiftBit_calMin (b : Bool) (s : State) : (faShiftBit b s).calMin = s.calMin := rfl
@[simp] theorem faShiftBit_calMax (b : Bool) (s : State) : (faShiftBit b s).calMax = s.calMax := rfl
@[simp] theorem faShiftBit_calThr (b : Bool) (s : State) : (faShiftBit b s).calThr = s.calThr := rfl
@[simp] theorem faShiftBit_calValid (b : Bool) (s : State) : (faShiftBit b s).calValid = s.calValid := rfl
@[simp] theorem faShiftBit_locked (b : Bool) (s : State) : (faShiftBit b s).locked = s.locked := rfl
@[simp] theorem faShiftBit_bitCount (b : Bool) (s : State) : (faShiftBit b s).bitCount = s.bitCount := rfl
@[simp] theorem faShiftBit_lastLevel (b : Bool) (s : State) : (faShiftBit b s).lastLevel = s.lastLevel := rfl
@[simp] theorem faShiftBit_midSeen (b : Bool) (s : State) : (faShiftBit b s).midSeen = s.midSeen := rfl
@[simp] theorem faShiftBit_zdLevel (b : Bool) (s : State) : (faShiftBit b s).zdLevel = s.zdLevel := rfl
@[simp] theorem faShiftBit_zdCount (b : Bool) (s : State) : (faShiftBit b s).zdCount = s.zdCount := rfl
@[simp] theorem faShiftBit_fdsc (b : Bool) (s : State) : (faShiftBit b s).fdsc = s.fdsc := rfl
@[simp] theorem faShiftBit_cfg (b : Bool) (s : State) : (faShiftBit b s).cfg = s.cfg := rfl
@[simp] theorem faShiftBit_stimulus (b : Bool) (s : State) : (faShiftBit b s).stimulus = s.stimulus := rfl
@[simp] theorem faShiftBit_out (b : Bool) (s : State) : (faShiftBit b s).out = s.out := rfl
@[simp] theorem faShiftBit_ret (b : Bool) (s : State) : (faShiftBit b s).ret = s.ret := rfl

@[simp] theorem calRecompute_hist (s : State) : (calRecompute s).hist = s.hist := rfl
@[simp] theorem calRecompute_histCursor (s : State) : (calRecompute s).histCursor = s.histCursor := rfl
@[simp] theorem calRecompute_calCount (s : State) : (calRecompute s).calCount = s.calCount := rfl
@[simp] theorem calRecompute_calMin (s : State) : (calRecompute s).calMin = listMin (ringContents s.hist) := rfl
@[simp] theorem calRecompute_calMax (s : State) : (calRecompute s).calMax = listMax (ringContents s.hist) := rfl
@[simp] theorem calRecompute_calThr (s : State) : (calRecompute s).calThr = tdiv (listMin (ringContents s.hist)) 2 + tdiv (listMax (ringContents s.hist)) 2 := rfl
@[simp] theorem calRecompute_locked (s : State) : (calRecompute s).locked = s.locked := rfl
@[simp] theorem calRecompute_bitCount (s : State) : (calRecompute s).bitCount = s.bitCount := rfl
@[simp] theorem calRecompute_lastLevel (s : State) : (calRecompute s).lastLevel = s.lastLevel := rfl
@[simp] theorem calRecompute_midSeen (s : State) : (calRecompute s).midSeen = s.midSeen := rfl
@[simp] theorem calRecompute_zdLevel (s : State) : (calRecompute s).zdLevel = s.zdLevel := rfl
@[simp] theorem calRecompute_zdCount (s : State) : (calRecompute s).zdCount = s.zdCount := rfl
@[simp] theorem calRecompute_data (s : State) : (calRecompute s).data = s.data := rfl
@[simp] theorem calRecompute_syncWord (s : State) : (calRecompute s).syncWord = s.syncWord := rfl
@[simp] theorem calRecompute_fdsc (s : State) : (calRecompute s).fdsc = s.fdsc := rfl
@[simp] theorem calRecompute_cfg (s : State) : (calRecompute s).cfg = s.cfg := rfl
@[simp] theorem calRecompute_stimulus (s : State) : (calRecompute s).stimulus = s.stimulus := rfl
@[simp] theorem calRecompute_out (s : State) : (calRecompute s).out = s.out := rfl
@[simp] theorem calRecompute_ret (s : State) : (calRecompute s).ret = s.ret := rfl

@[simp] theorem zdReset_hist (s : State) : (zdReset s).hist = s.hist := rfl
@[simp] theorem zdReset_histCursor (s : State) : (zdReset s).histCursor = s.histCursor := rfl
@[simp] theorem zdReset_calCount (s : State) : (zdReset s).calCount = s.calCount := rfl
@[simp] theorem zdReset_calMin (s : State) : (zdReset s).calMin = s.calMin := rfl
@[simp] theorem zdReset_calMax (s : State) : (zdReset s).calMax = s.calMax := rfl
@[simp] theorem zdReset_calThr (s : State) : (zdReset s).calThr = s.calThr := rfl
@[simp] theorem zdReset_calValid (s : State) : (zdReset s).calValid = s.calValid := rfl
@[simp] theorem zdReset_locked (s : State) : (zdReset s).locked = s.locked := rfl
@[simp] theorem zdReset_bitCount (s : State) : (zdReset s).bitCount = s.bitCount := rfl
@[simp] theorem zdReset_lastLevel (s : State) : (zdReset s).lastLevel = s.lastLevel := rfl
@[simp] theorem zdReset_midSeen (s : State) : (zdReset s).midSeen = s.midSeen := rfl
@[simp] theorem zdReset_zdLevel (s : State) : (zdReset s).zdLevel = .unknown := rfl
@[simp] theorem zdReset_zdCount (s : State) : (zdReset s).zdCount = 0 := rfl
@[simp] theorem zdReset_data (s : State) : (zdReset s).data = s.data := rfl
@[simp] theorem zdReset_syncWord (s : State) : (zdReset s).syncWord = s.syncWord := rfl
@[simp] theorem zdReset_fdsc (s : State) : (zdReset s).fdsc = s.fdsc := rfl
@[simp] theorem zdReset_cfg (s : State) : (zdReset s).cfg = s.cfg := rfl
@[simp] theorem zdReset_stimulus (s : State) : (zdReset s).stimulus = s.stimulus := rfl
@[simp] theorem zdReset_out (s : State) : (zdReset s).out = s.out := rfl
@[simp] theorem zdReset_ret (s : State) : (zdReset s).ret = s.ret := rfl

@[simp] theorem invalidate_hist (s : State) : (invalidate s).hist = s.hist := rfl
@[simp] theorem invalidate_histCursor (s : State) : (invalidate s).histCursor = s.histCursor := rfl
@[simp] theorem invalidate_calCount (s : State) : (invalidate s).calCount = 0 := rfl
@[simp] theorem invalidate_calMin (s : State) : (invalidate s).calMin = 0 := rfl
@[simp] theorem invalidate_calMax (s : State) : (invalidate s).calMax = 0 := rfl
@[simp] theorem invalidate_calThr (s : State) : (invalidate s).calThr = 0 := rfl
@[simp] theorem invalidate_calValid (s : State) : (invalidate s).calValid = false := rfl
@[simp] theorem invalidate_locked (s : State) : (invalidate s).locked = false := rfl
@[simp] theorem invalidate_bitCount (s : State) : (invalidate s).bitCount = 0 := rfl
@[simp] theorem invalidate_lastLevel (s : State) : (invalidate s).lastLevel = .unknown := rfl
@[simp] theorem invalidate_midSeen (s : State) : (invalidate s).midSeen = false := rfl
@[simp] theorem invalidate_zdLevel (s : State) : (invalidate s).zdLevel = .unknown := rfl
@[simp] theorem invalidate_zdCount (s : State) : (invalidate s).zdCount = 0 := rfl
@[simp] theorem invalidate_data (s : State) : (invalidate s).data = 0 := rfl
@[simp] theorem invalidate_syncWord (s : State) : (invalidate s).syncWord = 0 := rfl
@[simp] theorem invalidate_fdsc (s : State) : (invalidate s).fdsc = 0 := rfl
@[simp] theorem invalidate_cfg (s : State) : (invalidate s).cfg = s.cfg := rfl
@[simp] theorem invalidate_stimulus (s : State) : (invalidate s).stimulus = s.stimulus := rfl
@[simp] theorem invalidate_out (s : State) : (invalidate s).out = s.out := rfl
@[simp] theorem invalidate_ret (s : State) : (invalidate s).ret = s.ret := rfl

end Sys2Proof.Machine
end

