-- ==== Sys2Proof/Laws/Memory.lean ====
section
/-! SUPPORT. The ring memory: a read after a write, the canonical form kept by every operation, and equal contents in
canonical form are equal data (log 9). -/

namespace Sys2Proof.Machine

theorem reset_memory_wf (c : Config) : Memory.wf (State.resetWith c).hist = true := rfl

@[simp] theorem memRead_nil (i : Nat) : memRead [] i = 0 := rfl

theorem wfFrom_cons {a i : Nat} {v : Int} {m : Memory} :
    Memory.wfFrom a ((i, v) :: m) = true ↔ a ≤ i ∧ i < 255 ∧ v ≠ unlisted ∧ Memory.wfFrom (i + 1) m = true := by
  simp only [Memory.wfFrom, Bool.and_eq_true, decide_eq_true_eq, and_assoc]

theorem wfFrom_mono {m : Memory} {a b : Nat} (hab : b ≤ a) (h : Memory.wfFrom a m = true) : Memory.wfFrom b m = true := by
  cases m with
  | nil => rfl
  | cons p m =>
    obtain ⟨i, v⟩ := p
    rw [wfFrom_cons] at h ⊢
    exact ⟨by omega, h.2⟩

/-- Below its first index a canonical memory reads as the reset content. -/
theorem memRead_below {m : Memory} {a i : Nat} (h : Memory.wfFrom a m = true) (hi : i < a) : memRead m i = 0 := by
  induction m generalizing a with
  | nil => rfl
  | cons p m ih =>
    obtain ⟨j, v⟩ := p
    rw [wfFrom_cons] at h
    simp only [memRead, if_neg (show ¬ i = j by omega)]
    exact ih h.2.2.2 (by omega)

/-- From index 255 on nothing is listed. -/
theorem memRead_above {m : Memory} {a i : Nat} (h : Memory.wfFrom a m = true) (hi : 255 ≤ i) : memRead m i = 0 := by
  induction m generalizing a with
  | nil => rfl
  | cons p m ih =>
    obtain ⟨j, v⟩ := p
    rw [wfFrom_cons] at h
    simp only [memRead, if_neg (show ¬ i = j by omega)]
    exact ih h.2.2.2

theorem memRead_memWrite {m : Memory} {a i : Nat} (h : Memory.wfFrom a m = true) (v : Int) (j : Nat) :
    memRead (memWrite m i v) j = if j = i then v else memRead m j := by
  induction m generalizing a with
  | nil =>
    by_cases hv : v = unlisted <;> simp [memWrite, hv, memRead]
  | cons p m ih =>
    obtain ⟨k, u⟩ := p
    rw [wfFrom_cons] at h
    have above : ∀ x < k + 1, memRead m x = 0 := fun x hx => memRead_below h.2.2.2 hx
    rcases lt_trichotomy i k with hik | rfl | hik
    · by_cases hv : v = unlisted
      · simp only [memWrite, if_pos hik, if_pos hv]
        split
        · next e => subst e; simp [memRead, hv, show ¬ j = k by omega, above j (by omega)]
        · rfl
      · simp only [memWrite, if_pos hik, if_neg hv, memRead]
    · by_cases hv : v = unlisted
      · simp only [memWrite, lt_irrefl, if_false, if_true, if_pos hv, memRead]
        split
        · next e => subst e; rw [above j (by omega), hv]
        · rfl
      · simp only [memWrite, lt_irrefl, if_false, if_true, if_neg hv, memRead]
        split <;> rfl
    · simp only [memWrite, if_neg (show ¬ i < k by omega), if_neg (show ¬ i = k by omega), memRead, ih h.2.2.2]
      by_cases hjk : j = k
      · simp [hjk, show ¬ k = i by omega]
      · simp [hjk]

theorem memWrite_wfFrom {m : Memory} {a i : Nat} (h : Memory.wfFrom a m = true) (ha : a ≤ i) (hi : i < 255) (v : Int) :
    Memory.wfFrom a (memWrite m i v) = true := by
  induction m generalizing a with
  | nil =>
    by_cases hv : v = unlisted
    · simp [memWrite, hv, Memory.wfFrom]
    · simp only [memWrite, if_neg hv]
      rw [wfFrom_cons]
      exact ⟨ha, hi, hv, rfl⟩
  | cons p m ih =>
    obtain ⟨k, u⟩ := p
    have h' := h
    rw [wfFrom_cons] at h
    rcases lt_trichotomy i k with hik | rfl | hik
    · by_cases hv : v = unlisted
      · simpa only [memWrite, if_pos hik, if_pos hv] using h'
      · simp only [memWrite, if_pos hik, if_neg hv]
        rw [wfFrom_cons, wfFrom_cons]
        exact ⟨ha, hi, hv, by omega, h.2⟩
    · by_cases hv : v = unlisted
      · simp only [memWrite, lt_irrefl, if_false, if_true, if_pos hv]
        exact wfFrom_mono (by omega) h.2.2.2
      · simp only [memWrite, lt_irrefl, if_false, if_true, if_neg hv]
        rw [wfFrom_cons]
        exact ⟨ha, hi, hv, h.2.2.2⟩
    · simp only [memWrite, if_neg (show ¬ i < k by omega), if_neg (show ¬ i = k by omega)]
      rw [wfFrom_cons]
      exact ⟨h.1, h.2.1, h.2.2.1, ih h.2.2.2 (by omega)⟩

theorem memWrite_wf {m : Memory} {i : Nat} (h : Memory.wf m = true) (hi : i < 255) (v : Int) :
    Memory.wf (memWrite m i v) = true := memWrite_wfFrom h (Nat.zero_le _) hi v

/-- A canonical memory is determined by what its locations read as. -/
theorem memory_ext_from {m m' : Memory} {a : Nat} (h : Memory.wfFrom a m = true) (h' : Memory.wfFrom a m' = true)
    (e : ∀ i, memRead m i = memRead m' i) : m = m' := by
  induction m generalizing a m' with
  | nil =>
    cases m' with
    | nil => rfl
    | cons p m' =>
      obtain ⟨j, u⟩ := p
      rw [wfFrom_cons] at h'
      have := e j
      simp [memRead] at this
      exact absurd this.symm h'.2.2.1
  | cons p m ih =>
    obtain ⟨i, v⟩ := p
    rw [wfFrom_cons] at h
    cases m' with
    | nil =>
      have := e i
      simp [memRead] at this
      exact absurd this h.2.2.1
    | cons p' m' =>
      obtain ⟨j, u⟩ := p'
      rw [wfFrom_cons] at h'
      have hij : i = j := by
        rcases lt_trichotomy i j with hij | hij | hij
        · have := e i
          simp only [memRead, if_true, if_neg (show ¬ i = j by omega), memRead_below h'.2.2.2 (show i < j + 1 by omega)] at this
          exact absurd this h.2.2.1
        · exact hij
        · have := e j
          simp only [memRead, if_true, if_neg (show ¬ j = i by omega), memRead_below h.2.2.2 (show j < i + 1 by omega)] at this
          exact absurd this.symm h'.2.2.1
      subst hij
      have huv : v = u := by simpa [memRead] using e i
      subst huv
      rw [ih h.2.2.2 h'.2.2.2]
      intro k
      by_cases hk : k = i
      · subst hk
        rw [memRead_below h.2.2.2 (Nat.lt_succ_self k), memRead_below h'.2.2.2 (Nat.lt_succ_self k)]
      · simpa [memRead, hk] using e k

theorem memory_ext {m m' : Memory} (h : Memory.wf m = true) (h' : Memory.wf m' = true)
    (e : ∀ i < 255, memRead m i = memRead m' i) : m = m' := by
  refine memory_ext_from h h' fun i => ?_
  by_cases hi : i < 255
  · exact e i hi
  · rw [memRead_above h (by omega), memRead_above h' (by omega)]

end Sys2Proof.Machine
end

