-- ==== Sys2Proof/Laws/Operands.lean ====
section
/-! SUPPORT. The value computations: truncating halves, extremes of a list, the ring's contents, bit reversal, payload
fields, the signature, the cursor. -/

namespace Sys2Proof.Machine

/-- Halving toward zero, as R9 spells it: sign times the floor of the half of the magnitude. -/
theorem tdiv_two (v : Int) : tdiv v 2 = v.sign * (v.natAbs / 2 : Nat) := by
  unfold tdiv
  cases v with
  | ofNat n =>
    cases n with
    | zero => rfl
    | succ n => simp only [Int.ofNat_eq_natCast, Int.natAbs_natCast]; rw [Int.sign_natCast_of_ne_zero (by omega), one_mul]; rfl
  | negSucc n => rw [Int.sign_negSucc, Int.natAbs_negSucc, neg_one_mul]; rfl

/-- The same with floor division, in the form that linear arithmetic decides. -/
theorem tdiv_two_floor (v : Int) : tdiv v 2 = if 0 ≤ v then v / 2 else -(-v / 2) := by
  unfold tdiv
  split
  · next h => exact Int.tdiv_eq_ediv_of_nonneg h
  · next h =>
    have e := Int.tdiv_eq_ediv_of_nonneg (a := -v) (b := 2) (by omega)
    rw [Int.neg_tdiv] at e
    omega

theorem foldl_min_le (xs : List Int) (a : Int) :
    xs.foldl (fun a b => if b < a then b else a) a ≤ a ∧
      ∀ y ∈ xs, xs.foldl (fun a b => if b < a then b else a) a ≤ y := by
  induction xs generalizing a with
  | nil => simp
  | cons x xs ih =>
    obtain ⟨h1, h2⟩ := ih (if x < a then x else a)
    have hm : (if x < a then x else a) ≤ a ∧ (if x < a then x else a) ≤ x := by split <;> omega
    refine ⟨le_trans h1 hm.1, fun y hy => ?_⟩
    rcases List.mem_cons.1 hy with rfl | hy
    · exact le_trans h1 hm.2
    · exact h2 y hy

theorem foldl_min_mem (xs : List Int) (a : Int) :
    xs.foldl (fun a b => if b < a then b else a) a ∈ a :: xs := by
  induction xs generalizing a with
  | nil => simp
  | cons x xs ih =>
    rw [List.foldl_cons]
    rcases List.mem_cons.1 (ih (if x < a then x else a)) with h | h
    · rw [h]; split <;> simp
    · exact List.mem_cons_of_mem _ (List.mem_cons_of_mem _ h)

theorem foldl_max_ge (xs : List Int) (a : Int) :
    a ≤ xs.foldl (fun a b => if a < b then b else a) a ∧
      ∀ y ∈ xs, y ≤ xs.foldl (fun a b => if a < b then b else a) a := by
  induction xs generalizing a with
  | nil => simp
  | cons x xs ih =>
    obtain ⟨h1, h2⟩ := ih (if a < x then x else a)
    have hm : a ≤ (if a < x then x else a) ∧ x ≤ (if a < x then x else a) := by split <;> omega
    refine ⟨le_trans hm.1 h1, fun y hy => ?_⟩
    rcases List.mem_cons.1 hy with rfl | hy
    · exact le_trans hm.2 h1
    · exact h2 y hy

theorem foldl_max_mem (xs : List Int) (a : Int) :
    xs.foldl (fun a b => if a < b then b else a) a ∈ a :: xs := by
  induction xs generalizing a with
  | nil => simp
  | cons x xs ih =>
    rw [List.foldl_cons]
    rcases List.mem_cons.1 (ih (if a < x then x else a)) with h | h
    · rw [h]; split <;> simp
    · exact List.mem_cons_of_mem _ (List.mem_cons_of_mem _ h)

theorem listMin_le {xs : List Int} {y : Int} (h : y ∈ xs) : listMin xs ≤ y := by
  cases xs with
  | nil => simp at h
  | cons x xs =>
    rcases List.mem_cons.1 h with rfl | h
    · exact (foldl_min_le xs y).1
    · exact (foldl_min_le xs x).2 y h

theorem listMin_mem {xs : List Int} (h : xs ≠ []) : listMin xs ∈ xs := by
  cases xs with
  | nil => exact absurd rfl h
  | cons x xs => exact foldl_min_mem xs x

theorem le_listMax {xs : List Int} {y : Int} (h : y ∈ xs) : y ≤ listMax xs := by
  cases xs with
  | nil => simp at h
  | cons x xs =>
    rcases List.mem_cons.1 h with rfl | h
    · exact (foldl_max_ge xs y).1
    · exact (foldl_max_ge xs x).2 y h

theorem listMax_mem {xs : List Int} (h : xs ≠ []) : listMax xs ∈ xs := by
  cases xs with
  | nil => exact absurd rfl h
  | cons x xs => exact foldl_max_mem xs x

theorem mem_ringContents {m : Memory} {v : Int} : v ∈ ringContents m ↔ ∃ i < 255, memRead m i = v := by
  simp only [ringContents, List.mem_map, List.mem_range]

theorem ringContents_ne_nil (m : Memory) : ringContents m ≠ [] := by
  intro h
  have : memRead m 0 ∈ ringContents m := mem_ringContents.2 ⟨0, by decide, rfl⟩
  rw [h] at this
  exact absurd this (by simp)

/-- The cursor stays in the ring (R21). -/
theorem cursorNext_lt (i : Nat) : cursorNext i < 255 := Nat.mod_lt _ (by decide)

/-- Bit `i` of the payload word is bit `63 - i` of the register (R11, R65). -/
theorem rev64_bit (x : Payload) {i : Nat} (h : i < 64) : (rev64 x).getLsbD i = x.getLsbD (63 - i) := by
  simp only [rev64, BitVec.getLsbD_reverse, BitVec.getMsbD]
  simp [h]

theorem rev64_rev64 (x : Payload) : rev64 (rev64 x) = x := by
  apply BitVec.eq_of_getLsbD_eq
  intro i hi
  rw [rev64_bit _ hi, rev64_bit _ (by omega)]
  congr 1
  omega

/-- A field as a number (R231). -/
theorem fieldGet_eq (p : Payload) (lo w : Nat) : fieldGet p lo w = p.toNat / 2 ^ lo % 2 ^ w := by
  simp [fieldGet, BitVec.extractLsb'_toNat, Nat.shiftRight_eq_div_pow]

theorem fieldGet_lt (p : Payload) (lo w : Nat) : fieldGet p lo w < 2 ^ w := by
  rw [fieldGet_eq]; exact Nat.mod_lt _ (Nat.two_pow_pos w)

theorem fieldMask_bit {lo w i : Nat} (hw : lo + w ≤ 64) (hi : i < 64) :
    (fieldMask lo w).getLsbD i = decide (lo ≤ i ∧ i < lo + w) := by
  simp only [fieldMask, BitVec.getLsbD_shiftLeft, BitVec.getLsbD_ofNat, Nat.testBit_two_pow_sub_one]
  by_cases h1 : i < lo
  · simp [h1, show ¬ lo ≤ i by omega]
  · by_cases h2 : i < lo + w
    · simp [hi, h1, h2, show lo ≤ i by omega, show i - lo < w by omega, show i - lo < 64 by omega]
    · simp [h2, show ¬ i - lo < w by omega]

/-- What FIELD_SET does to each bit (R231): the field's bits from the value, all others as they were. -/
theorem fieldSet_bit (p : Payload) {lo w i : Nat} (v : Nat) (hw : lo + w ≤ 64) (hi : i < 64) :
    (fieldSet p lo w v).getLsbD i = if lo ≤ i ∧ i < lo + w then v.testBit (i - lo) else p.getLsbD i := by
  simp only [fieldSet, BitVec.getLsbD_or, BitVec.getLsbD_and, BitVec.getLsbD_not, fieldMask_bit hw hi,
    BitVec.getLsbD_shiftLeft, BitVec.getLsbD_ofNat, Nat.testBit_mod_two_pow]
  by_cases h1 : lo ≤ i
  · by_cases h2 : i < lo + w
    · simp [hi, h1, h2, show ¬ i < lo by omega, show i - lo < w by omega, show i - lo < 64 by omega]
    · simp [hi, h2, show ¬ i - lo < w by omega]
  · simp [hi, h1, show i < lo by omega]

/-- A field's bits. -/
theorem fieldGet_bit (p : Payload) (lo w i : Nat) : (fieldGet p lo w).testBit i = (decide (i < w) && p.getLsbD (lo + i)) := by
  simp only [fieldGet, BitVec.testBit_toNat, BitVec.getLsbD_extractLsb']

/-- `FIELD_GET(FIELD_SET(P, lo, w, v), lo, w) = v mod 2^w` (R231). -/
theorem fieldGet_fieldSet_same (p : Payload) {lo w : Nat} (v : Nat) (hw : lo + w ≤ 64) :
    fieldGet (fieldSet p lo w v) lo w = v % 2 ^ w := by
  apply Nat.eq_of_testBit_eq
  intro i
  rw [fieldGet_bit, Nat.testBit_mod_two_pow]
  by_cases h : i < w
  · rw [fieldSet_bit p v hw (show lo + i < 64 by omega)]
    simp [h]
  · simp [h]

/-- A set of one field changes no disjoint one (R231). -/
theorem fieldGet_fieldSet_other (p : Payload) {lo w lo' w' : Nat} (v : Nat) (hw : lo + w ≤ 64) (hw' : lo' + w' ≤ 64)
    (h : lo + w ≤ lo' ∨ lo' + w' ≤ lo) : fieldGet (fieldSet p lo w v) lo' w' = fieldGet p lo' w' := by
  apply Nat.eq_of_testBit_eq
  intro i
  rw [fieldGet_bit, fieldGet_bit]
  by_cases hi : i < w'
  · rw [fieldSet_bit p v hw (show lo' + i < 64 by omega), if_neg (by omega)]
  · simp [hi]

/-- A user nibble is its field. -/
theorem nibbleGet_toNat (p : Payload) (lo : Nat) : (nibbleGet p lo).toNat = fieldGet p lo 4 := rfl

/-- A digit pair does not wrap: tens fields have at most three bits (R94). -/
theorem digitsGet_toNat (p : Payload) (lo hi : Nat) {w : Nat} (hw : w ≤ 3) :
    (digitsGet p lo hi w).toNat = fieldGet p lo 4 + 10 * fieldGet p hi w := by
  have h1 := fieldGet_lt p lo 4
  have h2 := fieldGet_lt p hi w
  have h3 : 2 ^ w ≤ 2 ^ 3 := Nat.pow_le_pow_right (by decide) hw
  simp only [digitsGet, BitVec.toNat_ofNat]
  omega

/-- `tens` of SPLIT is the quotient (R249: "the division is exact"). -/
theorem splitTens_eq (v : Nat) : splitTens v = v / 10 := by unfold splitTens; omega

/-- The signature is the sync word in the low sixteen bits (R93). -/
theorem sig_iff (d : Payload) : sig d = true ↔ d.toNat % 65536 = 0x3FFD := by
  simp only [sig, Bool.and_eq_true, decide_eq_true_eq, ← BitVec.toNat_inj, BitVec.extractLsb'_toNat,
    Nat.shiftRight_eq_div_pow, BitVec.toNat_ofNat]
  omega

end Sys2Proof.Machine
end

