-- ==== Sys2Proof/Laws/Machine.lean ====
section
/-! SUPPORT. What each shared operation can do, said once: the calibrator, the zero detector, the bit machine, the
assembler, a push, a step. -/

namespace Sys2Proof.Machine

/-! ### Levels -/

@[simp] theorem wave_level_ne_unknown (v : Wave) : v.level ≠ .unknown := by cases v <;> simp [Wave.level]

@[simp] theorem wave?_level (v : Wave) : v.level.wave? = some v := by cases v <;> rfl

theorem level_cases (l : Level) : l = .unknown ∨ ∃ v : Wave, l = v.level := by
  cases l
  · exact .inl rfl
  · exact .inr ⟨.low, rfl⟩
  · exact .inr ⟨.high, rfl⟩

theorem wave_level_inj {a b : Wave} : a.level = b.level ↔ a = b := by cases a <;> cases b <;> simp [Wave.level]

@[simp] theorem otherWave_otherWave (v : Wave) : otherWave (otherWave v) = v := by cases v <;> rfl

theorem otherWave_ne (v : Wave) : otherWave v ≠ v := by cases v <;> simp [otherWave]

/-! ### Writing the ring -/

/-- Within the ring the operation completes. -/
theorem writesRing_of_lt {s t : State} (h : s.histCursor < 255) : writesRing s t = .next t := if_pos h

theorem exec_calPush {s : State} (w : SampleWord) (h : s.histCursor < 255) :
    exec (.calPush w) s = .next (setRet (.level (calPush (sampleInt s.cfg w) s).1) (calPush (sampleInt s.cfg w) s).2) :=
  writesRing_of_lt h

theorem exec_bsmStep {s : State} (w : SampleWord) (h : s.histCursor < 255) :
    exec (.bsmStep w) s = .next (setRet (.bitResult (bsmStep (sampleInt s.cfg w) s).1) (bsmStep (sampleInt s.cfg w) s).2) :=
  writesRing_of_lt h

theorem exec_pushSample {s : State} (w : SampleWord) (h : s.histCursor < 255) :
    exec (.pushSample w) s = .next (pushSample (sampleInt s.cfg w) s) :=
  writesRing_of_lt h

/-- Outside it faults. -/
theorem writesRing_of_ge {s t : State} (h : 255 ≤ s.histCursor) : writesRing s t = .fault .noSuchRingLocation :=
  if_neg (Nat.not_lt.2 h)

theorem writesRing_next {s t u : State} (h : writesRing s t = .next u) : s.histCursor < 255 ∧ u = t := by
  unfold writesRing at h
  split at h
  · next hc => cases h; exact ⟨hc, rfl⟩
  · cases h

theorem writesRing_fault {s t : State} {f : Fault} (h : writesRing s t = .fault f) : 255 ≤ s.histCursor := by
  unfold writesRing at h
  split at h
  · cases h
  · next hc => exact Nat.not_lt.1 hc

theorem writesRing_not_refused (s t : State) (r : Refusal) : writesRing s t ≠ .refused r := by
  unfold writesRing
  split <;> simp

/-! ### The calibrator -/

/-- CAL.PUSH writes the calibrator's registers only. -/
theorem calPush_frame (x : Int) (s : State) :
    (calPush x s).2 = { s with
      hist := memWrite s.hist s.histCursor x, histCursor := cursorNext s.histCursor
      calCount := (calPush x s).2.calCount, calMin := (calPush x s).2.calMin, calMax := (calPush x s).2.calMax
      calThr := (calPush x s).2.calThr, calValid := (calPush x s).2.calValid } := by
  simp only [calPush, calWrap]
  split <;> rfl

/-- CAL.PUSH short of the 255th. -/
theorem calPush_count {x : Int} {s : State} (h : s.calCount + 1 ≠ 255) : (calPush x s).2 = calStore x s :=
  if_neg h

/-- CAL.PUSH at the 255th. -/
theorem calPush_wrap {x : Int} {s : State} (h : s.calCount + 1 = 255) :
    (calPush x s).2 = calRecompute { calStore x s with calCount := 0 } :=
  if_pos h

/-- What CAL.PUSH returns. -/
theorem calPush_level (x : Int) (s : State) : (calPush x s).1 = calClassify x (calPush x s).2 := rfl

theorem calClassify_unknown_iff (x : Int) (s : State) : calClassify x s = .unknown ↔ s.calValid = false := by
  unfold calClassify
  split
  · simp_all
  · split <;> simp_all

/-! ### The zero detector -/

/-- ZD.STEP on the first classified sample. -/
theorem zdStep_first {v : Wave} {s : State} (h : s.zdLevel = .unknown) :
    zdStep v s = (false, { s with zdLevel := v.level, zdCount := 0 }) := if_pos h

/-- ZD.STEP at a change. -/
theorem zdStep_change {v : Wave} {s : State} (h : s.zdLevel ≠ .unknown) (hc : v.level ≠ s.zdLevel) :
    zdStep v s = (fullBitRun s.cfg (s.zdCount + 1), { s with zdLevel := v.level, zdCount := 0 }) := by
  simp [zdStep, h, hc]

/-- ZD.STEP past `max_bit`. -/
theorem zdStep_restart {v : Wave} {s : State} (h : s.zdLevel = v.level) (hr : s.cfg.thr.maxBit < s.zdCount + 1) :
    zdStep v s = (false, { s with zdCount := 0 }) := by
  simp [zdStep, h, hr]

/-- ZD.STEP within a steady run. -/
theorem zdStep_steady {v : Wave} {s : State} (h : s.zdLevel = v.level) (hr : s.zdCount + 1 ≤ s.cfg.thr.maxBit) :
    zdStep v s = (false, { s with zdCount := s.zdCount + 1 }) := by
  simp [zdStep, h, Nat.not_lt.2 hr]

/-- ZD.STEP: one of the four. -/
theorem zdStep_cases (v : Wave) (s : State) :
    s.zdLevel = .unknown ∨ (s.zdLevel ≠ .unknown ∧ v.level ≠ s.zdLevel) ∨
      (s.zdLevel = v.level ∧ s.cfg.thr.maxBit < s.zdCount + 1) ∨ (s.zdLevel = v.level ∧ s.zdCount + 1 ≤ s.cfg.thr.maxBit) := by
  by_cases h : s.zdLevel = .unknown
  · exact .inl h
  · by_cases hc : v.level = s.zdLevel
    · rcases Nat.lt_or_ge s.cfg.thr.maxBit (s.zdCount + 1) with hr | hr
      · exact .inr (.inr (.inl ⟨hc.symm, hr⟩))
      · exact .inr (.inr (.inr ⟨hc.symm, hr⟩))
    · exact .inr (.inl ⟨h, hc⟩)

/-- ZD.STEP writes its two registers only. -/
theorem zdStep_frame (v : Wave) (s : State) :
    (zdStep v s).2 = { s with zdLevel := v.level, zdCount := (zdStep v s).2.zdCount } := by
  rcases zdStep_cases v s with h | ⟨h, hc⟩ | ⟨h, hr⟩ | ⟨h, hr⟩
  · rw [zdStep_first h]
  · rw [zdStep_change h hc]
  · rw [zdStep_restart h hr, ← h]
  · rw [zdStep_steady h hr, ← h]

/-- The count stays within `max_bit` (R47). -/
theorem zdStep_count_le (v : Wave) (s : State) : (zdStep v s).2.zdCount ≤ s.cfg.thr.maxBit := by
  rcases zdStep_cases v s with h | ⟨h, hc⟩ | ⟨h, hr⟩ | ⟨h, hr⟩
  · rw [zdStep_first h]; exact Nat.zero_le _
  · rw [zdStep_change h hc]; exact Nat.zero_le _
  · rw [zdStep_restart h hr]; exact Nat.zero_le _
  · rw [zdStep_steady h hr]; exact hr

/-- A lock event is a change that ends a full-bit run, and leaves a cleared count. -/
theorem zdStep_lock {v : Wave} {s : State} (h : (zdStep v s).1 = true) :
    (zdStep v s).2 = { s with zdLevel := v.level, zdCount := 0 } ∧ s.zdLevel ≠ .unknown ∧
      fullBitRun s.cfg (s.zdCount + 1) = true := by
  rcases zdStep_cases v s with h' | ⟨h', hc⟩ | ⟨h', hr⟩ | ⟨h', hr⟩
  · simp [zdStep_first h'] at h
  · rw [zdStep_change h' hc] at h ⊢; exact ⟨rfl, h', h⟩
  · simp [zdStep_restart h' hr] at h
  · simp [zdStep_steady h' hr] at h

/-! ### The bit machine -/

/-- BSM.RESOLVE, as one of four effects. -/
theorem bsmResolve_cases (ev : Event) (c : Bool) (v : Wave) (s : State) :
    (bsmResolve ev c v s = ({ level := v.level, bit := none, anomaly := .overdue }, invalidate s) ∧ ev = .overdue) ∨
    (bsmResolve ev c v s = ({ level := v.level, bit := none, anomaly := .illegal }, invalidate s) ∧ ev = .mustBeSteady ∧ c = true) ∨
    (bsmResolve ev c v s = (noBit v, { s with midSeen := s.midSeen || (decide (ev = .canChangeInMiddle) && c) }) ∧
      ev ≠ .overdue ∧ (c = true → ev = .canChangeInMiddle)) ∨
    (bsmResolve ev c v s = ({ level := v.level, bit := some s.midSeen, anomaly := .none }, { s with bitCount := 0, midSeen := false }) ∧
      ev = .canChangeInEnd ∧ c = true) := by
  cases ev <;> cases c <;> simp [bsmResolve, raiseInvalidate, midSeenAfter]

/-- Past `max_bit` the event is `Overdue`, and only there, when the thresholds are ordered. -/
theorem bsmExpect_overdue_iff {t : Thresholds} (h : t.ordered = true) (n : Nat) (mid : Bool) :
    bsmExpect t n mid = .overdue ↔ t.maxBit < n := by
  simp only [Thresholds.ordered, Bool.and_eq_true, decide_eq_true_eq] at h
  unfold bsmExpect
  split
  · simp; omega
  · split
    · cases mid <;> simp <;> omega
    · split
      · simp; omega
      · split <;> simp <;> omega

/-- BSM.STEP on an unclassified sample. -/
theorem bsmStep_unknown {x : Int} {s : State} (h : (calPush x s).1 = .unknown) :
    bsmStep x s = ({ level := .unknown, bit := none, anomaly := .cal }, (calPush x s).2) := by
  simp only [bsmStep, h, Level.wave?]

/-- BSM.STEP on a classified sample. -/
theorem bsmStep_classified {x : Int} {s : State} {v : Wave} (h : (calPush x s).1 = v.level) :
    bsmStep x s = bsmClassified v (calPush x s).2 := by
  simp only [bsmStep, h, wave?_level]

theorem bsmClassified_locked {v : Wave} {s : State} (h : s.locked = true) : bsmClassified v s = bsmTrack v s := by
  simp only [bsmClassified, h, if_true]

theorem bsmClassified_lock {v : Wave} {s : State} (h : s.locked = false) (hz : (zdStep v s).1 = true) :
    bsmClassified v s = bsmTrack v (lockOn (zdStep v s).2) := by
  simp [bsmClassified, h, hz]

theorem bsmClassified_search {v : Wave} {s : State} (h : s.locked = false) (hz : (zdStep v s).1 = false) :
    bsmClassified v s = (noBit v, (zdStep v s).2) := by
  simp [bsmClassified, h, hz]

/-! ### The assembler -/

/-- The 80-bit chain after a shift (R211): every bit one position up. -/
theorem faShiftBit_data_bit (b : Bool) (s : State) {i : Nat} (hi : i < 64) :
    (faShiftBit b s).data.getLsbD i = if i = 0 then b else s.data.getLsbD (i - 1) := by
  show (s.data.extractLsb' 0 63 ++ BitVec.ofBool b : BitVec (63 + 1)).getLsbD i = _
  rw [BitVec.getLsbD_append]
  by_cases h : i = 0
  · simp [h]
  · simp [h, show ¬ i < 1 by omega, show i - 1 < 63 by omega]

theorem faShiftBit_sync_bit (b : Bool) (s : State) {i : Nat} (hi : i < 16) :
    (faShiftBit b s).syncWord.getLsbD i = if i = 0 then s.data.getLsbD 63 else s.syncWord.getLsbD (i - 1) := by
  show (s.syncWord.extractLsb' 0 15 ++ BitVec.ofBool (s.data.getLsbD 63) : BitVec (15 + 1)).getLsbD i = _
  rw [BitVec.getLsbD_append]
  by_cases h : i = 0
  · simp [h]
  · simp [h, show ¬ i < 1 by omega, show i - 1 < 15 by omega]

/-- Step 3 of a push moves the chain only. -/
theorem assemble_frame (b : Option Bool) (s : State) :
    (assemble b s).2 = { s with data := (assemble b s).2.data, syncWord := (assemble b s).2.syncWord } := by
  cases b <;> rfl

@[simp] theorem assemble_none (s : State) : assemble none s = (none, s) := rfl

/-! ### Commands and steps -/

/-- A step on a well-formed configuration is `exec`; on any other it is refused. -/
theorem step_of_wf {s : State} (h : s.cfg.wf = true) :
    step s = exec (decodePorts (currentPorts s)) (advanceStimulus s) := by
  simp [step, h]

/-- The commands the ports can select. -/
theorem decodePorts_cases (p : Ports) :
    decodePorts p = .reset ∨ decodePorts p = .pushSample p.sampleIn ∨ decodePorts p = .idle := by
  unfold decodePorts
  split
  · exact .inl rfl
  · split
    · exact .inr (.inl rfl)
    · exact .inr (.inr rfl)

/-- An instruction faults only where it writes the ring and the cursor names none of its locations. -/
theorem exec_fault {i : Instr} {s : State} {f : Fault} (h : exec i s = .fault f) :
    255 ≤ s.histCursor ∧ ∃ w, i = .calPush w ∨ i = .bsmStep w ∨ i = .pushSample w := by
  cases i
  case calPush w => exact ⟨writesRing_fault h, w, .inl rfl⟩
  case bsmStep w => exact ⟨writesRing_fault h, w, .inr (.inl rfl)⟩
  case pushSample w => exact ⟨writesRing_fault h, w, .inr (.inr rfl)⟩
  case thrDerive fs => simp only [exec, execThrDerive] at h; split at h <;> cases h
  case tcAdvance t => simp only [exec, execTcAdvance] at h; split at h <;> cases h
  all_goals cases h

/-- An instruction is refused only by THR.DERIVE on a rate that is not positive and by TC.ADVANCE outside its domain. -/
theorem exec_refused {i : Instr} {s : State} {r : Refusal} (h : exec i s = .refused r) :
    (∃ fs, i = .thrDerive fs ∧ fs.positive = false ∧ r = .rateNotPositive) ∨
      (∃ t, i = .tcAdvance t ∧ tcAdvance t = none ∧ r = .advanceOutsideDomain) := by
  cases i
  case thrDerive fs =>
    simp only [exec, execThrDerive] at h
    split at h
    · cases h
    · next hf => cases h; exact .inl ⟨fs, rfl, by simpa using hf, rfl⟩
  case tcAdvance t =>
    simp only [exec, execTcAdvance] at h
    split at h
    · cases h
    · next hf => cases h; exact .inr ⟨t, rfl, hf, rfl⟩
  case calPush w => exact absurd h (writesRing_not_refused _ _ _)
  case bsmStep w => exact absurd h (writesRing_not_refused _ _ _)
  case pushSample w => exact absurd h (writesRing_not_refused _ _ _)
  all_goals cases h

end Sys2Proof.Machine
end

