-- ==== Sys2Proof/Laws/PerInstr.lean ====
section
/-! SUPPORT. One lemma per instruction: the ports that select it select it (R82), and an instruction that no control
word selects has none. -/

namespace Sys2Proof.Laws.RoundTrip

/-- The ports that encode `i` decode to `i`. -/
def Statement (i : Instr) : Prop := ∀ p : Ports, encodePorts i = some p → decodePorts p = i

theorem reset : Statement .reset := by rintro p ⟨⟩; rfl
theorem pushSample (w : SampleWord) : Statement (.pushSample w) := by rintro p ⟨⟩; rw [decodePorts_eq]; rfl
theorem idle : Statement .idle := by rintro p ⟨⟩; rfl
theorem invalidate : Statement .invalidate := nofun
theorem calPush (sampleIn : SampleWord) : Statement (.calPush sampleIn) := nofun
theorem calRecompute : Statement .calRecompute := nofun
theorem calClassify (sampleIn : SampleWord) : Statement (.calClassify sampleIn) := nofun
theorem calInvalidate : Statement .calInvalidate := nofun
theorem thrDerive (fs : Rate) : Statement (.thrDerive fs) := nofun
theorem zdStep (level : Wave) : Statement (.zdStep level) := nofun
theorem zdReset : Statement .zdReset := nofun
theorem bsmStep (sampleIn : SampleWord) : Statement (.bsmStep sampleIn) := nofun
theorem bsmExpect (n : Nat) (mid : Bool) : Statement (.bsmExpect n mid) := nofun
theorem bsmResolve (ev : Event) (changed : Bool) (level : Wave) : Statement (.bsmResolve ev changed level) := nofun
theorem bsmInvalidate : Statement .bsmInvalidate := nofun
theorem faSampleReceived : Statement .faSampleReceived := nofun
theorem faShiftBit (b : Bool) : Statement (.faShiftBit b) := nofun
theorem faGetData : Statement .faGetData := nofun
theorem faInvalidate : Statement .faInvalidate := nofun
theorem ffcGetFrames (p : Payload) : Statement (.ffcGetFrames p) := nofun
theorem ffcGetSeconds (p : Payload) : Statement (.ffcGetSeconds p) := nofun
theorem ffcGetMinutes (p : Payload) : Statement (.ffcGetMinutes p) := nofun
theorem ffcGetHours (p : Payload) : Statement (.ffcGetHours p) := nofun
theorem ffcGetUb1 (p : Payload) : Statement (.ffcGetUb1 p) := nofun
theorem ffcGetUb2 (p : Payload) : Statement (.ffcGetUb2 p) := nofun
theorem ffcGetUb3 (p : Payload) : Statement (.ffcGetUb3 p) := nofun
theorem ffcGetUb4 (p : Payload) : Statement (.ffcGetUb4 p) := nofun
theorem ffcGetUb5 (p : Payload) : Statement (.ffcGetUb5 p) := nofun
theorem ffcGetUb6 (p : Payload) : Statement (.ffcGetUb6 p) := nofun
theorem ffcGetUb7 (p : Payload) : Statement (.ffcGetUb7 p) := nofun
theorem ffcGetUb8 (p : Payload) : Statement (.ffcGetUb8 p) := nofun
theorem ffcSetFrames (p : Payload) (v : Nat) : Statement (.ffcSetFrames p v) := nofun
theorem ffcSetSeconds (p : Payload) (v : Nat) : Statement (.ffcSetSeconds p v) := nofun
theorem ffcSetMinutes (p : Payload) (v : Nat) : Statement (.ffcSetMinutes p v) := nofun
theorem ffcSetHours (p : Payload) (v : Nat) : Statement (.ffcSetHours p v) := nofun
theorem ffcSetUb1 (p : Payload) (v : Nat) : Statement (.ffcSetUb1 p v) := nofun
theorem ffcSetUb2 (p : Payload) (v : Nat) : Statement (.ffcSetUb2 p v) := nofun
theorem ffcSetUb3 (p : Payload) (v : Nat) : Statement (.ffcSetUb3 p v) := nofun
theorem ffcSetUb4 (p : Payload) (v : Nat) : Statement (.ffcSetUb4 p v) := nofun
theorem ffcSetUb5 (p : Payload) (v : Nat) : Statement (.ffcSetUb5 p v) := nofun
theorem ffcSetUb6 (p : Payload) (v : Nat) : Statement (.ffcSetUb6 p v) := nofun
theorem ffcSetUb7 (p : Payload) (v : Nat) : Statement (.ffcSetUb7 p v) := nofun
theorem ffcSetUb8 (p : Payload) (v : Nat) : Statement (.ffcSetUb8 p v) := nofun
theorem fpsClassify (count : Nat) : Statement (.fpsClassify count) := nofun
theorem tcBuild (payload : Payload) (count : Nat) : Statement (.tcBuild payload count) := nofun
theorem tcAdvance (t : TimecodeFrame) : Statement (.tcAdvance t) := nofun

end Sys2Proof.Laws.RoundTrip
end

