-- ==== Sys2Proof/Laws/Steps.lean ====
section
/-! SUPPORT. What the composed operations leave alone, the commands as steps, and runs of steps and of operations. -/

namespace Sys2Proof.Machine

/-! ### Configuration -/

theorem wf_ordered {c : Config} (h : c.wf = true) : c.thr.minHalf ≤ c.thr.maxHalf ∧ c.thr.maxHalf < c.thr.minBit ∧ c.thr.minBit ≤ c.thr.maxBit := by
  simp only [Config.wf, Thresholds.ordered, Bool.and_eq_true, decide_eq_true_eq] at h
  exact ⟨h.2.1.1, h.2.1.2, h.2.2⟩

theorem wf_width {c : Config} (h : c.wf = true) : c.width = 8 ∨ c.width = 16 ∨ c.width = 24 ∨ c.width = 32 := by
  simp only [Config.wf, Bool.and_eq_true, Bool.or_eq_true, decide_eq_true_eq] at h
  tauto

/-! ### The bit machine -/

/-- Steps 3 to 5 of BSM.STEP in one equation. -/
theorem bsmTrack_eq (v : Wave) (s : State) :
    bsmTrack v s = bsmResolve (bsmExpect s.cfg.thr (s.bitCount + 1) s.midSeen) (levelChanged s.lastLevel v.level) v
      { s with bitCount := s.bitCount + 1, lastLevel := v.level } := rfl

/-- Which fields no micro-operation of a push writes. -/
def sameSetting (s t : State) : Prop := t.cfg = s.cfg ∧ t.stimulus = s.stimulus ∧ t.out = s.out ∧ t.ret = s.ret

theorem bsmResolve_setting (ev : Event) (c : Bool) (v : Wave) (s : State) : sameSetting s (bsmResolve ev c v s).2 := by
  rcases bsmResolve_cases ev c v s with h | h | h | h <;> rw [h.1] <;> exact ⟨rfl, rfl, rfl, rfl⟩

theorem bsmTrack_setting (v : Wave) (s : State) : sameSetting s (bsmTrack v s).2 :=
  bsmResolve_setting _ _ v { s with bitCount := s.bitCount + 1, lastLevel := v.level }

theorem bsmClassified_setting (v : Wave) (s : State) : sameSetting s (bsmClassified v s).2 := by
  have hz := zdStep_frame v s
  rcases Bool.eq_false_or_eq_true s.locked with hl | hl
  · rw [bsmClassified_locked hl]; exact bsmTrack_setting v s
  · rcases Bool.eq_false_or_eq_true (zdStep v s).1 with h | h
    · rw [bsmClassified_lock hl h, hz]; exact bsmTrack_setting v _
    · rw [bsmClassified_search hl h, hz]; exact ⟨rfl, rfl, rfl, rfl⟩

theorem bsmStep_setting (x : Int) (s : State) : sameSetting s (bsmStep x s).2 := by
  have hc := calPush_frame x s
  rcases level_cases (calPush x s).1 with h | ⟨v, h⟩
  · rw [bsmStep_unknown h, hc]; exact ⟨rfl, rfl, rfl, rfl⟩
  · rw [bsmStep_classified h, hc]; exact bsmClassified_setting v _

theorem assemble_setting (b : Option Bool) (s : State) : sameSetting s (assemble b s).2 := by
  rw [assemble_frame]; exact ⟨rfl, rfl, rfl, rfl⟩

/-- PUSH_SAMPLE writes neither the configuration nor the commands still to come nor the other operations' result. -/
theorem pushSample_setting (x : Int) (s : State) :
    (pushSample x s).cfg = s.cfg ∧ (pushSample x s).stimulus = s.stimulus ∧ (pushSample x s).ret = s.ret := by
  obtain ⟨h1, h2, _, h4⟩ := bsmStep_setting x (faSampleReceived s)
  obtain ⟨g1, g2, _, g4⟩ := assemble_setting (bsmStep x (faSampleReceived s)).1.bit (bsmStep x (faSampleReceived s)).2
  exact ⟨g1.trans h1, g2.trans h2, g4.trans h4⟩

/-! ### The ring -/

theorem bsmResolve_ring (ev : Event) (c : Bool) (v : Wave) (s : State) :
    (bsmResolve ev c v s).2.hist = s.hist ∧ (bsmResolve ev c v s).2.histCursor = s.histCursor := by
  rcases bsmResolve_cases ev c v s with h | h | h | h <;> rw [h.1] <;> exact ⟨rfl, rfl⟩

theorem bsmTrack_ring (v : Wave) (s : State) :
    (bsmTrack v s).2.hist = s.hist ∧ (bsmTrack v s).2.histCursor = s.histCursor :=
  bsmResolve_ring _ _ v { s with bitCount := s.bitCount + 1, lastLevel := v.level }

theorem bsmClassified_ring (v : Wave) (s : State) :
    (bsmClassified v s).2.hist = s.hist ∧ (bsmClassified v s).2.histCursor = s.histCursor := by
  have hz := zdStep_frame v s
  rcases Bool.eq_false_or_eq_true s.locked with hl | hl
  · rw [bsmClassified_locked hl]; exact bsmTrack_ring v s
  · rcases Bool.eq_false_or_eq_true (zdStep v s).1 with h | h
    · rw [bsmClassified_lock hl h, hz]; exact bsmTrack_ring v _
    · rw [bsmClassified_search hl h, hz]; exact ⟨rfl, rfl⟩

theorem bsmStep_ring (x : Int) (s : State) :
    (bsmStep x s).2.hist = memWrite s.hist s.histCursor x ∧ (bsmStep x s).2.histCursor = cursorNext s.histCursor := by
  have hc := calPush_frame x s
  rcases level_cases (calPush x s).1 with h | ⟨v, h⟩
  · rw [bsmStep_unknown h, hc]; exact ⟨rfl, rfl⟩
  · rw [bsmStep_classified h, hc]; exact bsmClassified_ring v _

/-- What PUSH_SAMPLE does to the ring: one write at the cursor, whatever else the sample brings about. -/
theorem pushSample_ring (x : Int) (s : State) :
    (pushSample x s).hist = memWrite s.hist s.histCursor x ∧ (pushSample x s).histCursor = cursorNext s.histCursor := by
  have h := bsmStep_ring x (faSampleReceived s)
  have ha := assemble_frame (bsmStep x (faSampleReceived s)).1.bit (bsmStep x (faSampleReceived s)).2
  simp only [pushSample, setOut_hist, setOut_histCursor]
  rw [ha]
  exact h

/-! ### The reported level -/

theorem bsmTrack_level (v : Wave) (s : State) : (bsmTrack v s).1.level = v.level := by
  rw [bsmTrack_eq]
  rcases bsmResolve_cases (bsmExpect s.cfg.thr (s.bitCount + 1) s.midSeen) (levelChanged s.lastLevel v.level) v
    { s with bitCount := s.bitCount + 1, lastLevel := v.level } with h | h | h | h <;> simp [h.1, noBit]

theorem bsmClassified_level (v : Wave) (s : State) : (bsmClassified v s).1.level = v.level := by
  rcases Bool.eq_false_or_eq_true s.locked with hl | hl
  · rw [bsmClassified_locked hl, bsmTrack_level]
  · rcases Bool.eq_false_or_eq_true (zdStep v s).1 with h | h
    · rw [bsmClassified_lock hl h, bsmTrack_level]
    · rw [bsmClassified_search hl h]; rfl

/-- BSM.STEP reports the level that CAL.PUSH returned. -/
theorem bsmStep_level (x : Int) (s : State) : (bsmStep x s).1.level = (calPush x s).1 := by
  rcases level_cases (calPush x s).1 with h | ⟨v, h⟩
  · rw [bsmStep_unknown h, h]
  · rw [bsmStep_classified h, h, bsmClassified_level]

/-! ### Commands as steps -/

/-- A step at which the ports present a sample. -/
theorem step_push {s : State} {rest : List Ports} {w : SampleWord} (h : s.cfg.wf = true)
    (hs : s.stimulus = { rst := false, sampleValid := true, sampleIn := w } :: rest) :
    step s = exec (.pushSample w) { s with stimulus := rest } := by
  rw [step_of_wf h]
  simp only [currentPorts, advanceStimulus, hs, List.headD_cons, List.tail_cons]
  rw [decodePorts_eq]; rfl

/-- A step at which the ports are idle. -/
theorem step_idle {s : State} {rest : List Ports} {w : SampleWord} (h : s.cfg.wf = true)
    (hs : s.stimulus = { rst := false, sampleValid := false, sampleIn := w } :: rest) :
    step s = .next { s with stimulus := rest, out := Out.quiet } := by
  rw [step_of_wf h]
  simp only [currentPorts, advanceStimulus, hs, List.headD_cons, List.tail_cons]
  rw [decodePorts_eq]; rfl

/-! ### Runs -/

theorem run_succ {k : Nat} {s t : State} (h : step s = .next t) :
    Host.Core.run core (k + 1) s = Host.Core.run core k t := by
  have h' : core.step s = .next t := h
  simp only [Host.Core.run, h']

theorem run_add {k n : Nat} {s t : State} (h : Host.Core.run core k s = .next t) :
    Host.Core.run core (k + n) s = Host.Core.run core n t := by
  induction k generalizing s with
  | zero => cases h; rw [Nat.zero_add]
  | succ k ih =>
    rw [Nat.add_right_comm]
    simp only [Host.Core.run] at h ⊢
    split at h
    · exact ih h
    · cases h
    · cases h

theorem execAll_append {l m : List Instr} {s t : State} (h : execAll l s = .next t) : execAll (l ++ m) s = execAll m t := by
  induction l generalizing s with
  | nil => cases h; rfl
  | cons i l ih =>
    simp only [execAll, List.cons_append] at h ⊢
    split at h
    · exact ih h
    · cases h
    · cases h

theorem classifiedRun_append (l m : List Wave) (s : State) :
    classifiedRun (l ++ m) s = ((classifiedRun l s).1 ++ (classifiedRun m (classifiedRun l s).2).1,
      (classifiedRun m (classifiedRun l s).2).2) := by
  induction l generalizing s with
  | nil => rfl
  | cons v l ih => simp only [List.cons_append, classifiedRun, ih]

end Sys2Proof.Machine
end

