-- ==== Sys2Proof/Tests/Slice0.lean ====
section
/-! SUPPORT. Tests on small states. Expected values come from the tables of 95_test_vectors.md and the examples of the
rules, each named in its comment. The second half shows, for each statement with hypotheses, states and operands that
meet them. -/

/- One theorem after another: elaborated side by side, the tests keep some fifty threads waiting for each other. -/
set_option Elab.async false

namespace Sys2Proof.Tests

open Sys2Proof.Machine

/-! ### Helpers -/

/-- The outcome is a next state of which `p` holds. -/
def holds (o : Host.Outcome State Fault Refusal) (p : State → Bool) : Bool :=
  match o with
  | .next s => p s
  | .fault _ => false
  | .refused _ => false

/-- The outcome is this refusal. -/
def refusedAs (o : Host.Outcome State Fault Refusal) (r : Refusal) : Bool :=
  match o with
  | .next _ => false
  | .fault _ => false
  | .refused q => decide (q = r)

/-- The outcome is this fault. -/
def faultedAs (o : Host.Outcome State Fault Refusal) (f : Fault) : Bool :=
  match o with
  | .next _ => false
  | .fault g => decide (g = f)
  | .refused _ => false

/-- What the operation returned. -/
def returns (o : Host.Outcome State Fault Refusal) (r : Ret) : Bool := holds o fun s => decide (s.ret = r)

/-- The start state of V4b, with `bit_count = n`. -/
def lockedAt (n : Nat) : State :=
  { State.reset with calValid := true, locked := true, bitCount := n, lastLevel := .high, zdLevel := .high }

/-- A searching block, `n` samples after a change to High. -/
def searchingAt (n : Nat) : State := { State.reset with calValid := true, zdLevel := .high, zdCount := n }

/-- The ports of one command. -/
def presented (p : Ports) : State := { State.reset with stimulus := [p] }

/-- `23:59:59:24` at 25 frames per second, with user nibbles 1 to 8 (V6). -/
def lastFrame : TimecodeFrame :=
  { hours := 23, minutes := 59, seconds := 59, frames := 24, fps := .fps25
    ub := { ub1 := 1, ub2 := 2, ub3 := 3, ub4 := 4, ub5 := 5, ub6 := 6, ub7 := 7, ub8 := 8 }
    payload := 0x28449CA29AA6CE41, sampleCount := 1512 }

/-! ### WellFormed: an ill-formed term for each check -/

theorem test_wf_sample_word : Instr.wf Config.reference (.pushSample 0xFFFF) = true ∧
    Instr.wf Config.reference (.pushSample 0x10000) = false ∧ Instr.wf Config.reference (.calPush 0x10000) = false ∧
    Instr.wf Config.reference (.calClassify 0x10000) = false ∧ Instr.wf Config.reference (.bsmStep 0x10000) = false := by decide

theorem test_wf_rate : Instr.wf Config.reference (.thrDerive ⟨48000, 1⟩) = true ∧
    Instr.wf Config.reference (.thrDerive ⟨0, 1⟩) = false ∧ Instr.wf Config.reference (.thrDerive ⟨1, 0⟩) = false := by decide

theorem test_wf_setter : Instr.wf Config.reference (.ffcSetHours 0 255) = true ∧
    Instr.wf Config.reference (.ffcSetFrames 0 256) = false ∧ Instr.wf Config.reference (.ffcSetSeconds 0 256) = false ∧
    Instr.wf Config.reference (.ffcSetMinutes 0 256) = false ∧ Instr.wf Config.reference (.ffcSetHours 0 256) = false := by decide

theorem test_wf_config : Config.reference.wf = true ∧ ({ Config.reference with width := 12 } : Config).wf = false ∧
    ({ Config.reference with fs := ⟨0, 1⟩ } : Config).wf = false ∧ ({ Config.reference with fs := ⟨1, 0⟩ } : Config).wf = false ∧
    ({ Config.reference with thr := ⟨19, 26, 16, 15⟩ } : Config).wf = false ∧
    ({ Config.reference with thr := ⟨15, 26, 7, 15⟩ } : Config).wf = false ∧
    ({ Config.reference with thr := ⟨27, 26, 7, 15⟩ } : Config).wf = false := by decide

/-! ### Decoding (R82; the layout in bytes is log 7) -/

/-- `ctl = 0b10` and `0b11` are RESET, `0b01` PUSH_SAMPLE, `0b00` IDLE. -/
theorem test_decode_control_words : decode [0b10#8, 0, 0, 0, 0] = .ok .reset ∧ decode [0b11#8, 0, 0, 0, 0] = .ok .reset ∧
    decode [0b00#8, 0, 0, 0, 0] = .ok .idle ∧ decode [0b01#8, 0, 0, 0, 0] = .ok (.pushSample 0) := by decide +kernel

/-- `PUSH 100` is `(0b01, 0x0064)` and `PUSH -100` is `(0b01, 0xFF9C)` (program P1): bit by bit from bit 2 up. -/
theorem test_decode_push : decode [0b10010001#8, 0b00000001#8, 0, 0, 0] = .ok (.pushSample 0x0064) ∧
    decode [0b01110001#8, 0b11111110#8, 0b00000011#8, 0, 0] = .ok (.pushSample 0xFF9C) := by decide +kernel

theorem test_decode_rejects : decode [] = .error .notOneCommand ∧ decode [1, 0, 0, 0, 0, 0] = .error .notOneCommand ∧
    decode [1, 0, 0, 0, 4] = .error .bitsAboveCommand := by decide +kernel

/-- R80: a micro-operation and a reference function have no encoding of their own. -/
theorem test_encode_none : encode .invalidate = none ∧ encode (.calPush 5) = none ∧ encode (.zdStep .low) = none ∧
    encode (.bsmStep 5) = none ∧ encode (.faShiftBit true) = none ∧ encode (.ffcGetHours 0) = none ∧
    encode (.ffcSetUb1 0 1) = none ∧ encode (.fpsClassify 1) = none ∧ encode (.tcBuild 0 0) = none ∧
    encode (.thrDerive ⟨1, 1⟩) = none ∧ encode (.tcAdvance lastFrame) = none := by decide

/-- The host's numbering, and the fetch that goes with it. -/
theorem test_table_word : decodeTableWord 8 2 = some .reset ∧ decodeTableWord 8 1 = some (.pushSample 0) ∧
    decodeTableWord 8 0 = some .idle ∧ currentPorts (State.reset.withFetchWord 8 1) = ⟨false, true, 0⟩ ∧
    currentPorts (State.reset.withFetchWord 8 2) = ⟨true, false, 0⟩ := by decide +kernel

/-! ### Commands (V0) -/

/-- `RESET; PUSH 5`. -/
theorem test_push_first : holds (step (presented (pushPorts Config.reference 5))) (fun s =>
    decide (memRead s.hist 0 = 5 ∧ s.histCursor = 1 ∧ s.calCount = 1 ∧ s.fdsc = 1 ∧
      s.out = { level := .unknown, bit := none, anomaly := .cal, frame := none })) = true := by decide +kernel

/-- `ctl = 0b11, sample_in = 7` after `PUSH 5`: RESET, the 7 discarded. -/
theorem test_reset_wins : holds (step { presented ⟨true, true, 7⟩ with hist := [(0, 5)], histCursor := 1, calCount := 1, fdsc := 1 }) (fun s => decide (s = State.reset)) = true := by decide +kernel

theorem test_idle : holds (exec .idle (lockedAt 9)) (fun s => decide (s = lockedAt 9)) = true := by decide +kernel

/-- The example of R126. -/
theorem test_invalidate : holds (exec .invalidate { lockedAt 9 with midSeen := true, data := 5, hist := [(3, 7)], histCursor := 4 })
    (fun s => decide (s = { State.reset with hist := [(3, 7)], histCursor := 4 })) = true := by decide +kernel

/-! ### Calibrator (V2) -/

/-- V2b, push 255: the window holds -3, 5 and 0 (unlisted); `tdiv(-3,2) + tdiv(5,2) = -1 + 2`. -/
theorem test_calPush_255 : holds (exec (.calPush 9) { State.reset with hist := [(0, 5), (1, -3)], histCursor := 254, calCount := 254 })
    (fun s => decide (s.calMin = -3 ∧ s.calMax = 9 ∧ s.calThr = 3 ∧ s.calValid = true ∧ s.calCount = 0 ∧ s.histCursor = 0 ∧
      s.ret = .level .high)) = true := by decide +kernel

/-- V2c: the push after an invalidation at cursor 17. -/
theorem test_calPush_after_invalidate : holds (exec (.calPush 100) { State.reset with histCursor := 17 })
    (fun s => decide (s.ret = .level .unknown ∧ memRead s.hist 17 = 100 ∧ s.histCursor = 18 ∧ s.calCount = 1)) = true := by
  decide +kernel

/-- V2a, rows (-1, 4) and (-3, 0): truncation toward zero. -/
theorem test_recompute : holds (exec .calRecompute { State.reset with hist := [(0, -1), (9, 4)] })
      (fun s => decide (s.calThr = 2)) = true ∧
    holds (exec .calRecompute { State.reset with hist := [(0, -3), (9, 5)] }) (fun s => decide (s.calThr = 1)) = true := by
  decide +kernel

/-- R142: a tie is Low. -/
theorem test_classify : returns (exec (.calClassify 0) (lockedAt 0)) (.level .low) = true ∧
    returns (exec (.calClassify 1) (lockedAt 0)) (.level .high) = true ∧
    returns (exec (.calClassify 0xFFFF) (lockedAt 0)) (.level .low) = true := by decide +kernel

/-- The example of R143. -/
theorem test_calInvalidate : holds (exec .calInvalidate { State.reset with calMin := -5, calMax := 9, calThr := 2, calCount := 17, calValid := true })
    (fun s => decide (s = State.reset)) = true := by decide +kernel

/-- R83 at 8 bits: unsigned 0x80 is 128, signed it is -128; bits above `W` are not read (log 8). -/
theorem test_sample_value : sampleInt { Config.reference with width := 8, signed := false } 0x80 = 128 ∧
    sampleInt { Config.reference with width := 8 } 0x80 = -128 ∧ sampleInt { Config.reference with width := 8 } 0x17F = 127 ∧
    sampleWord Config.reference (-100) = 0xFF9C := by decide

/-! ### Thresholds (V1) and the zero detector (V3) -/

theorem test_thresholds : thrDerive ⟨44100, 1⟩ = ⟨17, 24, 6, 14⟩ ∧ thrDerive ⟨48000, 1⟩ = ⟨19, 26, 7, 15⟩ ∧
    thrDerive ⟨8000, 1⟩ = ⟨3, 5, 0, 5⟩ ∧ thrDerive ⟨192000, 1⟩ = ⟨77, 102, 36, 53⟩ := by decide

/-- V1: 22050 fails `WF_CFG`, 32000 satisfies it. -/
theorem test_thresholds_wf : (derivedConfig 16 true ⟨22050, 1⟩).wf = false ∧ (derivedConfig 16 true ⟨32000, 1⟩).wf = true := by
  decide

/-- V3: runs of 18 and 27 do not lock, 19 and 26 do. -/
theorem test_zdStep_change : returns (exec (.zdStep .low) (searchingAt 17)) (.lock false) = true ∧
    returns (exec (.zdStep .low) (searchingAt 18)) (.lock true) = true ∧
    returns (exec (.zdStep .low) (searchingAt 25)) (.lock true) = true ∧
    returns (exec (.zdStep .low) (searchingAt 26)) (.lock false) = true := by decide +kernel

/-- V3: the overflow reset at the 28th sample of a run. -/
theorem test_zdStep_overflow : holds (exec (.zdStep .high) (searchingAt 26)) (fun s => decide (s.zdCount = 0 ∧ s.ret = .lock false)) = true ∧
    holds (exec (.zdStep .high) (searchingAt 25)) (fun s => decide (s.zdCount = 26)) = true := by decide +kernel

/-- The example of R166. -/
theorem test_zdReset : holds (exec .zdReset { State.reset with zdLevel := .high, zdCount := 7 }) (fun s => decide (s = State.reset)) = true := by
  decide +kernel

/-! ### Bit machine (V4) -/

/-- V4a at 48000, every edge of the zones. -/
theorem test_expect : ((List.map (fun n => bsmExpect ⟨19, 26, 7, 15⟩ n false) [6, 7, 15, 16, 18, 19, 26, 27]) =
      [.mustBeSteady, .canChangeInMiddle, .canChangeInMiddle, .mustBeSteady, .mustBeSteady, .canChangeInEnd, .canChangeInEnd, .overdue]) ∧
    ((List.map (fun n => bsmExpect ⟨19, 26, 7, 15⟩ n true) [7, 15, 18, 19, 27]) =
      [.mustBeSteady, .mustBeSteady, .mustBeSteady, .canChangeInEnd, .overdue]) := by decide

/-- V4b: a change at 24 ends a 0 bit; with `mid_seen` a 1 bit. -/
theorem test_bsmStep_bit : returns (exec (.bsmStep 0) (lockedAt 23)) (.bitResult { level := .low, bit := some false, anomaly := .none }) = true ∧
    holds (exec (.bsmStep 0) { lockedAt 23 with midSeen := true }) (fun s => decide (s.bitCount = 0 ∧ s.midSeen = false ∧
      s.ret = .bitResult { level := .low, bit := some true, anomaly := .none })) = true := by decide +kernel

/-- V4b: 27 samples give A_OVERDUE, a change at 18 and at 6 A_ILLEGAL, a change at 7 is a mid-bit change. -/
theorem test_bsmStep_anomaly : holds (exec (.bsmStep 0) (lockedAt 26)) (fun s => decide (s.locked = false ∧ s.calValid = false ∧
      s.ret = .bitResult { level := .low, bit := none, anomaly := .overdue })) = true ∧
    returns (exec (.bsmStep 0) (lockedAt 17)) (.bitResult { level := .low, bit := none, anomaly := .illegal }) = true ∧
    returns (exec (.bsmStep 0) (lockedAt 5)) (.bitResult { level := .low, bit := none, anomaly := .illegal }) = true ∧
    holds (exec (.bsmStep 0) (lockedAt 6)) (fun s => decide (s.midSeen = true ∧ s.bitCount = 7)) = true := by decide +kernel

/-- V4c: the lock step. -/
theorem test_bsmStep_lock : holds (exec (.bsmStep 0) (searchingAt 23)) (fun s => decide (s.locked = true ∧ s.bitCount = 1 ∧
    s.lastLevel = .low ∧ s.ret = .bitResult { level := .low, bit := none, anomaly := .none })) = true := by decide +kernel

/-- The example of R185. -/
theorem test_bsmInvalidate : holds (exec .bsmInvalidate { State.reset with locked := true, bitCount := 27, lastLevel := .high, zdLevel := .low })
    (fun s => decide (s = State.reset)) = true := by decide +kernel

theorem test_bsmResolve : returns (exec (.bsmResolve .canChangeInEnd true .low) { lockedAt 24 with midSeen := true })
      (.bitResult { level := .low, bit := some true, anomaly := .none }) = true ∧
    returns (exec (.bsmResolve .overdue true .low) (lockedAt 27)) (.bitResult { level := .low, bit := none, anomaly := .overdue }) = true := by
  decide +kernel

/-! ### Frame assembler (V5 and the examples of R210 to R213) -/

theorem test_faSampleReceived : holds (exec .faSampleReceived { State.reset with data := 0x3FFD, fdsc := 700 }) (fun s => decide (s.fdsc = 0)) = true ∧
    holds (exec .faSampleReceived { State.reset with data := 0x7FFA, fdsc := 0 }) (fun s => decide (s.fdsc = 1)) = true := by decide +kernel

theorem test_faShiftBit : holds (exec (.faShiftBit false) { State.reset with data := 0x8000000000000001, syncWord := 0x8001 })
    (fun s => decide (s.data = 0x0000000000000002 ∧ s.syncWord = 0x0003)) = true := by decide +kernel

/-- V5a, last row: 0xBEEF then 0x0123456789ABCDEF, most significant bit first. -/
theorem test_faShiftBit_cascade : holds (execAll (((List.range 16).map fun i => Instr.faShiftBit ((0xBEEF#16).getMsbD i)) ++
    ((List.range 64).map fun i => Instr.faShiftBit ((0x0123456789ABCDEF#64).getMsbD i))) State.reset)
    (fun s => decide (s.data = 0x0123456789ABCDEF ∧ s.syncWord = 0xBEEF)) = true := by decide +kernel

theorem test_faGetData : returns (exec .faGetData { State.reset with syncWord := 0x3FFD, data := 0x8000000000000000, fdsc := 1512 })
      (.rawFrame (some { payload := 0x8000000000000000, sampleCount := 1512 })) = true ∧
    returns (exec .faGetData { State.reset with syncWord := 0x3FFC }) (.rawFrame none) = true := by decide +kernel

theorem test_faInvalidate : holds (exec .faInvalidate { State.reset with data := 0x3FFD, syncWord := 0x1234, fdsc := 99 })
    (fun s => decide (s = State.reset)) = true := by decide +kernel

/-! ### Field codec (V6, R266 and the examples of the rules) -/

theorem test_getters : ffcGetFrames 0x8273655945392214 = 24 ∧ ffcGetSeconds 0x8273655945392214 = 59 ∧
    ffcGetMinutes 0x8273655945392214 = 59 ∧ ffcGetHours 0x8273655945392214 = 23 ∧
    ffcGetFrames 0xFFFFFFFFFFFFFFFF = 45 ∧ ffcGetSeconds 0xFFFFFFFFFFFFFFFF = 85 ∧ ffcGetMinutes 0xFFFFFFFFFFFFFFFF = 85 ∧
    ffcGetHours 0xFFFFFFFFFFFFFFFF = 45 := by decide

theorem test_getters_ub : ffcGetUb1 0x8273655945392214 = 1 ∧ ffcGetUb2 0x8273655945392214 = 2 ∧ ffcGetUb3 0x8273655945392214 = 3 ∧
    ffcGetUb4 0x8273655945392214 = 4 ∧ ffcGetUb5 0x8273655945392214 = 5 ∧ ffcGetUb6 0x8273655945392214 = 6 ∧
    ffcGetUb7 0x8273655945392214 = 7 ∧ ffcGetUb8 0x8273655945392214 = 8 := by decide

/-- The unassigned bits have no influence (R92, V6). -/
theorem test_getters_unassigned : ffcGetFrames 0x8E736D594D392E14 = 24 ∧ ffcGetSeconds 0x8E736D594D392E14 = 59 ∧
    ffcGetMinutes 0x8E736D594D392E14 = 59 ∧ ffcGetHours 0x8E736D594D392E14 = 23 := by decide

theorem test_setters : ffcSetFrames 0 24 = 0x204 ∧ ffcSetFrames 0 45 = 5 ∧ ffcSetSeconds 0 59 = 0x05090000 ∧
    ffcSetMinutes 0 10 = 0x0000010000000000 ∧ ffcSetHours 0 23 = 0x0203000000000000 ∧ ffcGetHours (ffcSetHours 0 99) = 19 := by decide

theorem test_setters_ub : ffcSetUb1 0 0x1F = 0xF0 ∧ ffcSetUb2 0 0x1F = 0xF000 ∧ ffcSetUb3 0 0x1F = 0xF00000 ∧
    ffcSetUb4 0 0x1F = 0xF0000000 ∧ ffcSetUb5 0 0x1F = 0xF000000000 ∧ ffcSetUb6 0 0x1F = 0xF00000000000 ∧
    ffcSetUb7 0 0x1F = 0xF0000000000000 ∧ ffcSetUb8 0 0x1F = 0xF000000000000000 := by decide

/-- R266: the register content that decodes to `23:59:59:24` and to `12:34:56:29`. -/
theorem test_rev64 : rev64 0x28449CA29AA6CE41 = 0x8273655945392214 ∧ rev64 0x9F4065AA20C0438C = 0x31C2030455A602F9 := by decide +kernel

/-! ### Frame rate and timecode (V7, V8, V9 and the examples of R271 to R280) -/

/-- R272 at 48000: the ends of the windows. -/
theorem test_fpsClassify : (List.map (fpsClassify Config.reference) [1568, 1632, 1633, 1567, 1566, 1506, 1505, 1305, 1255, 1254, 0]) =
    [.fps24, .fps24, .unknown, .unknown, .fps25, .fps25, .unknown, .fps30, .fps30, .unknown, .unknown] := by decide

/-- The example of R275. -/
theorem test_tcBuild : returns (exec (.tcBuild 0x4000000000800000 1512) State.reset)
    (.frame { hours := 0, minutes := 10, seconds := 0, frames := 2, fps := .fps25, ub := ⟨0, 0, 0, 0, 0, 0, 0, 0⟩
              payload := 0x4000000000800000, sampleCount := 1512 }) = true := by decide +kernel

/-- R280 (c): `23:59:59:24` at 25 advances to `24:00:00:00`. -/
theorem test_tcAdvance : returns (exec (.tcAdvance lastFrame) State.reset)
    (.frame { lastFrame with hours := 24, minutes := 0, seconds := 0, frames := 0 }) = true := by decide +kernel

/-- R280 (a), (b), (d). -/
theorem test_tcAdvance_corners : tcAdvance { lastFrame with fps := .unknown } = some { lastFrame with fps := .unknown, frames := 25 } ∧
    tcAdvance { lastFrame with fps := .fps24 } = some { lastFrame with fps := .fps24, frames := 25 } ∧
    refusedAs (exec (.tcAdvance { lastFrame with frames := 255 }) State.reset) .advanceOutsideDomain = true := by decide +kernel

/-- PUSH_SAMPLE at push 4416 of program P2 (V5c): the frame `00:10:00:02`. -/
theorem test_push_frame : holds (exec (.pushSample 0) { lockedAt 23 with
    data := 0xA000000000400000, syncWord := 0x1FFE, fdsc := 1511 }) (fun s => decide (s.out.bit = some false ∧
      s.data = 0x4000000000800000 ∧ s.syncWord = 0x3FFD ∧ s.fdsc = 1512 ∧
      (s.out.frame.map fun t => (t.hours, t.minutes, t.seconds, t.frames, t.fps, t.sampleCount)) = some (0, 10, 0, 2, .fps25, 1512))) = true := by
  decide +kernel

/-- R99: `ONE 2, 1` from a Low wave, `AMP 100, -100`. -/
theorem test_expand : expand Config.reference ⟨0, 0, .low⟩ [.amp 100 (-100), .one 2 1, .reset] =
    [⟨false, true, 0x64⟩, ⟨false, true, 0x64⟩, ⟨false, true, 0xFF9C⟩, ⟨true, false, 0⟩] := by decide +kernel

/-! ### States and operands that meet the hypotheses of the statements -/

theorem zero_in_range : Config.reference.smin ≤ 0 ∧ 0 ≤ Config.reference.smax := by decide

/-- Inv in the calibrating phase, one push before its end: `UnclassifiedPushOnlyRecordsTheSample` (at its boundary),
`EveryStepKeepsTheInvariant`, `PhaseTransitions`, `NothingInvalidatesBeforeLock`. -/
theorem witness_inv_calibrating : Inv { State.reset with calCount := 253 } where
  cfg_wf := by decide
  mem_wf := by decide
  cursor_lt := by decide
  ring := fun _ _ => zero_in_range
  count_lt := by decide
  bounds := ⟨zero_in_range, zero_in_range, zero_in_range⟩
  calibrating := fun _ => ⟨rfl, rfl, rfl, rfl⟩
  zd_le := by decide
  locked_le := fun h => nomatch h
  unlocked := fun _ => ⟨rfl, rfl, rfl, rfl, rfl⟩

/-- Inv in the searching phase. -/
theorem witness_inv_searching : Inv (searchingAt 23) where
  cfg_wf := by decide
  mem_wf := by decide
  cursor_lt := by decide
  ring := fun _ _ => zero_in_range
  count_lt := by decide
  bounds := ⟨zero_in_range, zero_in_range, zero_in_range⟩
  calibrating := fun h => nomatch h
  zd_le := by decide
  locked_le := fun h => nomatch h
  unlocked := fun _ => ⟨rfl, rfl, rfl, rfl, rfl⟩

/-- Inv in the locked phase. -/
theorem witness_inv_locked : Inv (lockedAt 26) where
  cfg_wf := by decide
  mem_wf := by decide
  cursor_lt := by decide
  ring := fun _ _ => zero_in_range
  count_lt := by decide
  bounds := ⟨zero_in_range, zero_in_range, zero_in_range⟩
  calibrating := fun h => nomatch h
  zd_le := by decide
  locked_le := fun _ => ⟨by decide, by decide⟩
  unlocked := fun h => nomatch h

/-- `PhaseTransitions`, `NothingInvalidatesBeforeLock`: the two ways each phase can go. -/
theorem witness_PhaseTransitions : phase (searchingAt 23) = .searching ∧ phase (lockedAt 26) = .locked ∧
    holds (exec (.pushSample 0) { State.reset with calCount := 254 }) (fun t => decide (phase t = .searching)) = true ∧
    holds (exec (.pushSample 0) (searchingAt 23)) (fun t => decide (phase t = .locked ∧ t.locked = true)) = true ∧
    holds (exec (.pushSample 0) (searchingAt 17)) (fun t => decide (phase t = .searching ∧ t.calValid = true)) = true ∧
    holds (exec (.pushSample 0) (lockedAt 26)) (fun t => decide (phase t = .calibrating)) = true ∧
    holds (exec (.pushSample 0) (lockedAt 25)) (fun t => decide (phase t = .locked)) = true := by decide +kernel

/-- `EveryStepKeepsTheInvariant`, `StepRunsTheDecodedCommand`, `EveryStepCompletes`, `IdleLeavesNoTrace`: a well-formed
state with a command at the ports and one with none, and their steps. -/
theorem witness_step : (presented (pushPorts Config.reference 5)).cfg.wf = true ∧
    (presented (pushPorts Config.reference 5)).histCursor < 255 ∧
    (presented (pushPorts Config.reference 5)).stimulus = [⟨false, true, 5⟩] ∧ State.reset.stimulus = [] ∧
    holds (step State.reset) (fun t => decide (t = State.reset)) = true := by decide +kernel

/-- `ControlWordSelectsTheCommand`: each clause. -/
theorem witness_ControlWordSelectsTheCommand : decodePorts ⟨true, true, 7⟩ = .reset ∧ decodePorts ⟨true, false, 7⟩ = .reset ∧
    decodePorts ⟨false, true, 7⟩ = .pushSample 7 ∧ decodePorts ⟨false, false, 7⟩ = .idle := by decide +kernel

/-- `EncodedCommandsDecodeBack`: each clause. -/
theorem witness_EncodedCommandsDecodeBack : encode (.pushSample 0xFFFFFFFF) = some [0xFD, 0xFF, 0xFF, 0xFF, 3] ∧
    decode [0xFD, 0xFF, 0xFF, 0xFF, 3] = .ok (.pushSample 0xFFFFFFFF) ∧ encode .calRecompute = none := by decide +kernel

/-- `IllFormedConfigurationIsRefused`, `ResetMeetsTheInvariant`: an ill-formed and a well-formed configuration. -/
theorem witness_configurations : ({ Config.reference with width := 12 } : Config).wf = false ∧ Config.reference.wf = true ∧
    refusedAs (step { State.reset with cfg := { Config.reference with width := 12 } }) .illFormedConfig = true := by decide +kernel

/-- `PushSampleIsItsSequence`, `PushOutputsAreConsistent`: no bit, a bit without a frame, a bit with a frame. -/
theorem witness_PushSampleIsItsSequence : (lockedAt 23).histCursor < 255 ∧ holds (exec (.pushSample 0) State.reset) (fun t => decide (t.out.bit = none ∧ t.out.anomaly = .cal)) = true ∧
    holds (exec (.pushSample 0) (lockedAt 23)) (fun t => decide (t.out.bit = some false ∧ t.out.frame = none)) = true ∧
    holds (exec (.pushSample 0) { lockedAt 23 with data := 0xA000000000400000, syncWord := 0x1FFE })
      (fun t => decide (t.out.frame.isSome = true)) = true := by decide +kernel

/-- `SampleWordDenotesOneInteger`: the ends of the range of both signednesses. -/
theorem witness_SampleWordDenotesOneInteger : Config.reference.smin = -32768 ∧ Config.reference.smax = 32767 ∧
    sampleInt Config.reference 0x8000 = -32768 ∧ sampleInt Config.reference 0x7FFF = 32767 ∧
    ({ Config.reference with signed := false } : Config).wf = true ∧ ({ Config.reference with signed := false } : Config).smax = 65535 := by decide

/-- `CalPushStoresCountsAndClassifies`, `DeadTimeIs254Pushes`, `WindowIsTheLast255Pushes`: the reset state and one sample or
255; and the state one push before the recomputation. -/
theorem witness_calibration : State.reset.histCursor < 255 ∧ State.reset.cfg.wf = true ∧ Memory.wf State.reset.hist = true ∧ State.reset.calCount = 0 ∧
    State.reset.calValid = false ∧ State.reset.locked = false ∧ (List.replicate 255 (5 : SampleWord)).length = 255 ∧
    ([5] : List SampleWord).length < 255 ∧ ({ State.reset with calCount := 254 } : State).calCount + 1 = 255 := by decide +kernel

/-- `EveryBlockOf255PushesIsItsWindow`, `RingContentAndCursorDoNotShow`: a calibrated block right after a recomputation, and
another ring with its cursor at the last location. -/
theorem witness_later_window : (searchingAt 3).cfg.wf = true ∧ (searchingAt 3).calValid = true ∧ (searchingAt 3).calCount = 0 ∧
    (searchingAt 3).histCursor < 255 ∧ Memory.wf (searchingAt 3).hist = true ∧ Memory.wf [(0, -5), (254, 9)] = true ∧
    (List.replicate 255 (5 : SampleWord)).length = 255 := by decide +kernel

/-- `OnlyAWriteOutsideTheRingFaults`: the cursor just outside and just inside the ring. -/
theorem witness_outside_ring :
    faultedAs (exec (.calPush 1) { State.reset with histCursor := 255 }) .noSuchRingLocation = true ∧
    faultedAs (step { presented (pushPorts Config.reference 5) with histCursor := 255 }) .noSuchRingLocation = true ∧
    holds (exec (.pushSample 1) { State.reset with histCursor := 254 }) (fun t => decide (t.histCursor = 0)) = true := by
  decide +kernel

/-- `EveryRecomputationIsValid`: a ring with the extreme samples in it. -/
theorem witness_EveryRecomputationIsValid : ringInRange { State.reset with hist := [(0, -32768), (254, 32767)] } := by
  unfold ringInRange; decide +kernel

/-- `ClassifyComparesWithTheThreshold`: each clause, at the tie. -/
theorem witness_Classify : State.reset.calValid = false ∧ (lockedAt 0).calValid = true ∧ (lockedAt 0).calThr < sampleInt (lockedAt 0).cfg 1 ∧
    sampleInt (lockedAt 0).cfg 0 ≤ (lockedAt 0).calThr := by decide

/-- `ThresholdsAreRoundedOutward`, `DerivedConfigurationIsWellFormedFrom32kHz`, `RateIsTheBandOfTheCount`. -/
theorem witness_rates : (Rate.mk 32000 1).positive = true ∧ 32000 * (Rate.mk 32000 1).den ≤ (Rate.mk 32000 1).num ∧
    (Rate.mk 64001 2).positive = true ∧ refusedAs (exec (.thrDerive ⟨0, 1⟩) State.reset) .rateNotPositive = true ∧
    refusedAs (exec (.thrDerive ⟨1, 0⟩) State.reset) .rateNotPositive = true := by decide +kernel

/-- `ZeroDetectorStep`: each clause, the last two at their common boundary; `SteadyStretchLocksByItsLength`. -/
theorem witness_ZeroDetectorStep : State.reset.zdLevel = .unknown ∧ Wave.low.level ≠ (searchingAt 18).zdLevel ∧
    ((searchingAt 26).zdLevel = Wave.high.level ∧ (searchingAt 26).cfg.thr.maxBit < (searchingAt 26).zdCount + 1) ∧
    ((searchingAt 25).zdLevel = Wave.high.level ∧ (searchingAt 25).zdCount + 1 ≤ (searchingAt 25).cfg.thr.maxBit) ∧
    (searchingAt 0).zdCount = 0 := by decide

/-- `BitMachineStepIsItsFiveSteps`: unclassified; locked; not locked with and without a lock event. -/
theorem witness_BitMachineStep : (lockedAt 0).histCursor < 255 ∧ returns (exec (.calPush 0) State.reset) (.level .unknown) = true ∧
    returns (exec (.calPush 0) (lockedAt 0)) (.level .low) = true ∧ (lockedAt 0).locked = true ∧ (searchingAt 18).locked = false ∧
    returns (exec (.calPush 0) (searchingAt 18)) (.level .low) = true := by decide +kernel

/-- A block inside the half-bit window, `n` samples into a bit whose middle change has been seen. -/
def pastMiddle (n : Nat) : State := { lockedAt n with midSeen := true }

/-- `IllegalOrLateChangeInvalidates`: the second of its three zones, at both ends, and what a push there answers. -/
theorem witness_second_change : returns (exec (.calPush 0) (pastMiddle 6)) (.level .low) = true ∧
    (pastMiddle 6).locked = true ∧ (pastMiddle 6).cfg.wf = true ∧ (pastMiddle 6).midSeen = true ∧
    (pastMiddle 6).lastLevel ≠ .unknown ∧ (pastMiddle 6).lastLevel ≠ Wave.low.level ∧
    (pastMiddle 6).cfg.thr.minHalf = (pastMiddle 6).bitCount + 1 ∧ (pastMiddle 6).bitCount + 1 ≤ (pastMiddle 6).cfg.thr.maxHalf ∧
    (pastMiddle 14).bitCount + 1 = (pastMiddle 14).cfg.thr.maxHalf ∧ (pastMiddle 14).midSeen = true ∧
    holds (exec (.pushSample 0) (pastMiddle 6)) (fun t => decide (t.out.anomaly = .illegal)) = true ∧
    holds (exec (.pushSample 0) (pastMiddle 14)) (fun t => decide (t.out.anomaly = .illegal)) = true := by decide +kernel

/-- `IllegalOrLateChangeInvalidates`: late; and each of the three zones of an illegal change, at its edge. -/
theorem witness_IllegalOrLateChange : returns (exec (.calPush 0) (lockedAt 26)) (.level .low) = true ∧
    (lockedAt 26).cfg.thr.maxBit < (lockedAt 26).bitCount + 1 ∧ (lockedAt 5).lastLevel ≠ .unknown ∧ (lockedAt 5).lastLevel ≠ Wave.low.level ∧
    (lockedAt 5).bitCount + 1 < (lockedAt 5).cfg.thr.minHalf ∧
    ((lockedAt 6).cfg.thr.minHalf ≤ (lockedAt 6).bitCount + 1 ∧ (lockedAt 14).bitCount + 1 ≤ (lockedAt 14).cfg.thr.maxHalf) ∧
    ((lockedAt 15).cfg.thr.maxHalf < (lockedAt 15).bitCount + 1 ∧ (lockedAt 17).bitCount + 1 < (lockedAt 17).cfg.thr.minBit) := by
  decide +kernel

/-- `CleanStreamDecodesToItsBits`: a 1 bit right after a lock sample, then a 0 bit and a 1 bit, at the edges of the windows. -/
theorem witness_CleanStream : (BitShape.one 14 11).legal (lockedAt 1).cfg.thr (lockedAt 1).bitCount ∧
    (∀ b ∈ [BitShape.zero 26, BitShape.one 7 12], b.legal (lockedAt 1).cfg.thr 0) ∧
    (lockedAt 1).lastLevel = Wave.high.level ∧ (lockedAt 1).midSeen = false ∧ (lockedAt 1).locked = true := by
  refine ⟨by simp only [BitShape.legal]; decide, fun b hb => ?_, rfl, rfl, rfl⟩
  rcases List.mem_cons.1 hb with rfl | hb
  · simp only [BitShape.legal]; decide
  · rw [List.mem_singleton.1 hb]; simp only [BitShape.legal]; decide

/-- `SampleCountAndFramePoll`: each clause. -/
theorem witness_SampleCountAndFramePoll : (0x3FFD : Payload).toNat % 65536 = 0x3FFD ∧ (0 : Payload).toNat % 65536 ≠ 0x3FFD ∧
    (0x3FFD : BitVec 16).toNat = 0x3FFD ∧ (0 : BitVec 16).toNat ≠ 0x3FFD := by decide

/-- `FrameIsSyncWordThenPayload`: eighty bits that are a frame and eighty that are none. -/
theorem witness_FrameIsSyncWord : (syncBits ++ payloadBits 2).length = 80 ∧ (syncBits ++ payloadBits 2).take 16 = syncBits ∧
    (List.replicate 80 true).length = 80 ∧ (List.replicate 80 true).take 16 ≠ syncBits := by decide +kernel

/-- `InvalidateIsTheUnionOfItsParts`: an order other than the rule's. -/
theorem witness_InvalidateOrder : List.Perm [Instr.faInvalidate, .calInvalidate, .bsmInvalidate] [.calInvalidate, .bsmInvalidate, .faInvalidate] := by
  decide

/-- `AdvanceCarries`: each clause, at its boundary. -/
theorem witness_AdvanceCarries : refusedAs (exec (.tcAdvance { lastFrame with frames := 255 }) State.reset) .advanceOutsideDomain = true ∧
    tcAdvance { lastFrame with frames := 254 } = some { lastFrame with frames := 255 } ∧
    tcAdvance { lastFrame with seconds := 255 } = none ∧
    tcAdvance { lastFrame with seconds := 254 } = some { lastFrame with frames := 0, seconds := 255 } ∧
    tcAdvance { lastFrame with minutes := 255 } = none ∧
    tcAdvance { lastFrame with minutes := 254 } = some { lastFrame with frames := 0, seconds := 0, minutes := 255 } ∧
    tcAdvance { lastFrame with hours := 255 } = none ∧
    tcAdvance { lastFrame with hours := 254 } = some { lastFrame with frames := 0, seconds := 0, minutes := 0, hours := 255 } := by decide

/-- `AdvanceAddsOneFrame`: the largest time and the smallest. -/
theorem witness_AdvanceAddsOneFrame : (lastFrame.fps = .fps25 ∧ lastFrame.frames.toNat < 25 ∧ lastFrame.seconds.toNat < 60 ∧
    lastFrame.minutes.toNat < 60 ∧ ({ lastFrame with hours := 254 } : TimecodeFrame).hours.toNat < 255) := by decide

/-- `OutputPortFormat`: a state with a frame on its ports. -/
theorem witness_OutputPortFormat : (outputPorts { State.reset with out := { Out.quiet with bit := some true, frame := some lastFrame } }).frameO =
    some { hoursO := 23, minutesO := 59, secondsO := 59, framesO := 24, fpsO := 0b10, ubO := 0x87654321, payloadO := 0x28449CA29AA6CE41, countO := 1512 } := by
  decide +kernel

/-- `RegistersChangeOnlyByTheirWriters`, `HiddenRegistersDoNotShow`: an operation that writes, on a locked block. -/
theorem witness_Registers : holds (exec (.zdStep .low) (searchingAt 18)) (fun t => decide (t.zdCount ≠ (searchingAt 18).zdCount)) = true ∧
    (lockedAt 3).locked = true ∧ (lockedAt 3).histCursor < 255 := by decide +kernel

/-- `CodecRoundTrip`, at the bounds of its exact ranges. -/
theorem witness_CodecRoundTrip : ffcGetHours (ffcSetHours 0 39) = 39 ∧ ffcGetMinutes (ffcSetMinutes 0 79) = 79 ∧
    ffcGetSeconds (ffcSetSeconds 0 79) = 79 ∧ ffcGetFrames (ffcSetFrames 0 39) = 39 := by decide

end Sys2Proof.Tests
end

section
/-! The statements of 00_scope.md: the configuration, the step, sample words and derived thresholds. -/

namespace Sys2Proof.Machine

/-! ### `WF_CFG` and construction (R7) -/

theorem positive_iff (r : Rate) : r.positive = true ↔ 0 < r.num ∧ 0 < r.den := by
  simp only [Rate.positive, Bool.and_eq_true, decide_eq_true_eq]

theorem ordered_iff (t : Thresholds) :
    t.ordered = true ↔ t.minHalf ≤ t.maxHalf ∧ t.maxHalf < t.minBit ∧ t.minBit ≤ t.maxBit := by
  simp only [Thresholds.ordered, Bool.and_eq_true, decide_eq_true_eq, and_assoc]

theorem wf_iff (c : Config) :
    c.wf = true ↔ (c.width = 8 ∨ c.width = 16 ∨ c.width = 24 ∨ c.width = 32) ∧ c.fs.positive = true ∧
      c.thr.ordered = true := by
  simp only [Config.wf, Bool.and_eq_true, Bool.or_eq_true, decide_eq_true_eq, and_assoc, or_assoc]

theorem construct_of_wf {c : Config} (h : c.wf = true) : construct c = .next (State.resetWith c) := if_pos h

theorem construct_of_not_wf {c : Config} (h : c.wf = false) : construct c = .refused .illFormedConfig := by
  simp [construct, h]

theorem step_of_not_wf {s : State} (h : s.cfg.wf = false) : step s = .refused .illFormedConfig := by
  simp [step, h]

/-- Settles O5: `WF_CFG` written out, and the branch that construction and a step take on each answer. -/
theorem illFormedConfigurationIsRefused : Obligations.IllFormedConfigurationIsRefused := by
  intro c
  refine ⟨?_, fun h => ⟨construct_of_not_wf h, ?_⟩, construct_of_wf⟩
  · rw [wf_iff, positive_iff, ordered_iff, and_assoc]
  · rintro s rfl
    exact step_of_not_wf h

/-! ### The ports at a clock edge (R12, R81) -/

theorem currentPorts_cons {s : State} {p : Ports} {rest : List Ports} (h : s.stimulus = p :: rest) :
    currentPorts s = p := by
  simp [currentPorts, h]

theorem currentPorts_nil {s : State} (h : s.stimulus = []) : currentPorts s = idlePorts := by
  simp [currentPorts, h]

theorem advanceStimulus_cons {s : State} {p : Ports} {rest : List Ports} (h : s.stimulus = p :: rest) :
    advanceStimulus s = { s with stimulus := rest } := by
  simp [advanceStimulus, h]

theorem advanceStimulus_nil {s : State} (h : s.stimulus = []) : advanceStimulus s = s := by
  cases s
  cases h
  rfl

@[simp] theorem decodePorts_idlePorts : decodePorts idlePorts = .idle := by simp [decodePorts_eq, idlePorts]

/-- Settles O4: the two cases of the stimulus, a command presented or none. -/
theorem stepRunsTheDecodedCommand : Obligations.StepRunsTheDecodedCommand := by
  intro s hwf
  rw [step_of_wf hwf]
  constructor
  · intro p rest hs
    rw [currentPorts_cons hs, advanceStimulus_cons hs]
  · intro hs
    rw [currentPorts_nil hs, advanceStimulus_nil hs, decodePorts_idlePorts]

/-! ### Sample words (R6, R83, R98) -/

theorem wf_width_pos {c : Config} (h : c.wf = true) : 0 < c.width := by
  have := wf_width h
  omega

theorem wf_width_le {c : Config} (h : c.wf = true) : c.width ≤ 32 := by
  have := wf_width h
  omega

/-- The number of sample words is twice the weight of the sign bit. -/
theorem two_pow_width {c : Config} (h : c.wf = true) : 2 ^ c.width = 2 * 2 ^ (c.width - 1) :=
  (mul_pow_sub_one (wf_width_pos h).ne' 2).symm

/-- The range of R6 holds exactly one integer for each of the `2^W` sample words. -/
theorem smax_eq_smin_add {c : Config} (h : c.wf = true) : c.smax = c.smin + (2 ^ c.width : Nat) - 1 := by
  have hp := two_pow_width h
  unfold Config.smin Config.smax
  split <;> omega

/-- Two integers of the range that agree modulo `2^W` are the same integer. -/
theorem eq_of_mem_range_of_modEq {c : Config} (h : c.wf = true) {a b : Int} (ha : c.smin ≤ a ∧ a ≤ c.smax)
    (hb : c.smin ≤ b ∧ b ≤ c.smax) (hab : a ≡ b [ZMOD (2 ^ c.width : Nat)]) : a = b := by
  have hr := smax_eq_smin_add h
  have hlt : |b - a| < (2 ^ c.width : Nat) := abs_lt.2 (by omega)
  have := Int.eq_zero_of_abs_lt_dvd hab.dvd hlt
  omega

theorem sampleInt_mem_range {c : Config} (h : c.wf = true) (w : SampleWord) :
    c.smin ≤ sampleInt c w ∧ sampleInt c w ≤ c.smax := by
  have hp := two_pow_width h
  have hu : w.toNat % 2 ^ c.width < 2 ^ c.width := Nat.mod_lt _ (Nat.two_pow_pos _)
  simp only [Config.smin, Config.smax, sampleInt, Bool.and_eq_true, decide_eq_true_eq]
  cases c.signed with
  | false => simp only [Bool.false_eq_true, false_and, if_false]; omega
  | true => simp only [true_and, if_true]; split <;> omega

/-- Reading the sign bit subtracts `2^W` once or not at all. -/
theorem sampleInt_eq_add_mul (c : Config) (w : SampleWord) :
    ∃ k : Int, sampleInt c w = (w.toNat % 2 ^ c.width : Nat) + k * (2 ^ c.width : Nat) := by
  simp only [sampleInt]
  split
  · exact ⟨-1, by ring⟩
  · exact ⟨0, by ring⟩

/-- A lane of 32 bits holds `v mod 2^W` whole. -/
theorem sampleWord_toNat {c : Config} (h : c.wf = true) (v : Int) :
    ((sampleWord c v).toNat : Int) = v % (2 ^ c.width : Nat) := by
  have hpos : (0 : Int) < (2 ^ c.width : Nat) := Int.natCast_pos.2 (Nat.two_pow_pos _)
  have h0 := Int.emod_nonneg v hpos.ne'
  have hlt := Int.emod_lt_of_pos v hpos
  have hle : 2 ^ c.width ≤ 2 ^ 32 := Nat.pow_le_pow_right (by decide) (wf_width_le h)
  rw [sampleWord, BitVec.toNat_ofNat, Nat.mod_eq_of_lt (by omega), Int.toNat_of_nonneg h0]

theorem sampleWord_toNat_lt {c : Config} (h : c.wf = true) (v : Int) : (sampleWord c v).toNat < 2 ^ c.width := by
  have hpos : (0 : Int) < (2 ^ c.width : Nat) := Int.natCast_pos.2 (Nat.two_pow_pos _)
  have hlt := Int.emod_lt_of_pos v hpos
  rw [← sampleWord_toNat h] at hlt
  exact Int.ofNat_lt.1 hlt

theorem sampleInt_sampleWord_modEq {c : Config} (h : c.wf = true) (v : Int) :
    sampleInt c (sampleWord c v) ≡ v [ZMOD (2 ^ c.width : Nat)] := by
  obtain ⟨k, hk⟩ := sampleInt_eq_add_mul c (sampleWord c v)
  rw [hk, Nat.mod_eq_of_lt (sampleWord_toNat_lt h v), sampleWord_toNat h, Int.ModEq, Int.add_mul_emod_self_right,
    Int.emod_emod]

/-- Settles O13: a sample word's integer is in the range and congruent to the word's low bits, and the range has one
integer for each residue, so the word of `v` denotes `v`. -/
theorem sampleWordDenotesOneInteger : Obligations.SampleWordDenotesOneInteger := by
  intro c h
  refine ⟨fun hs => ?_, fun hs => ?_, fun w => ?_, fun v hmin hmax => ?_⟩
  · simp [Config.smin, Config.smax, hs]
  · simp [Config.smin, Config.smax, hs]
  · exact ⟨(sampleInt_mem_range h w).1, (sampleInt_mem_range h w).2, sampleInt_eq_add_mul c w⟩
  · exact ⟨eq_of_mem_range_of_modEq h (sampleInt_mem_range h _) ⟨hmin, hmax⟩ (sampleInt_sampleWord_modEq h v),
      decide_eq_true (sampleWord_toNat_lt h v)⟩

/-! ### Derived thresholds (R161, R162) -/

/-- Rounding down the smaller bound and up the larger one keeps their order. -/
theorem floorScaled_le_ceilScaled (fs : Rate) {k l : Nat} (hkl : k ≤ l) (d : Nat) :
    floorScaled fs k d ≤ ceilScaled fs l d :=
  Nat.div_le_div_right ((Nat.mul_le_mul_left _ hkl).trans (Nat.le_add_right _ _))

theorem lt_floorScaled_add_one_mul {fs : Rate} {d : Nat} (h : 0 < fs.den * d) (k : Nat) :
    fs.num * k < (floorScaled fs k d + 1) * (fs.den * d) := by
  rw [mul_comm (floorScaled fs k d + 1)]
  exact Nat.lt_mul_div_succ _ h

theorem ceilScaled_mul_lt {fs : Rate} {d : Nat} (h : 0 < fs.den * d) (k : Nat) :
    ceilScaled fs k d * (fs.den * d) < fs.num * k + fs.den * d := by
  have : ceilScaled fs k d * (fs.den * d) ≤ fs.num * k + (fs.den * d - 1) := Nat.div_mul_le_self _ _
  omega

/-- From 32 kHz up the unwidened bounds are more than four samples apart, so three are left between them after the
rounding; the widening takes two. -/
theorem thrDerive_maxHalf_lt_minBit {fs : Rate} (hd : 0 < fs.den) (hfs : 32000 * fs.den ≤ fs.num) :
    (thrDerive fs).maxHalf < (thrDerive fs).minBit := by
  have hbit := lt_floorScaled_add_one_mul (fs := fs) (d := 3000000) (by omega) 1217
  have hhalf := ceilScaled_mul_lt (fs := fs) (d := 6000000) (by omega) 1592
  show ceilScaled fs 1592 6000000 + 2 < floorScaled fs 1217 3000000
  by_contra hle
  have hmul := Nat.mul_le_mul_right fs.den (Nat.not_lt.1 hle)
  linarith

theorem thrDerive_ordered {fs : Rate} (hd : 0 < fs.den) (hfs : 32000 * fs.den ≤ fs.num) :
    (thrDerive fs).ordered = true := by
  have hhalf : floorScaled fs 1217 6000000 ≤ ceilScaled fs 1592 6000000 := floorScaled_le_ceilScaled fs (by decide) _
  have hbit : floorScaled fs 1217 3000000 ≤ ceilScaled fs 1592 3000000 := floorScaled_le_ceilScaled fs (by decide) _
  refine (ordered_iff _).2 ⟨?_, thrDerive_maxHalf_lt_minBit hd hfs, hbit⟩
  show floorScaled fs 1217 6000000 - 2 ≤ ceilScaled fs 1592 6000000 + 2
  omega

/-- Settles O23: the one inequality of `WF_CFG` that needs the rate is `thrDerive_maxHalf_lt_minBit`. -/
theorem derivedConfigurationIsWellFormedFrom32kHz : Obligations.DerivedConfigurationIsWellFormedFrom32kHz := by
  intro fs width signed hd hfs hw
  have hpos : 0 < fs.num := by omega
  exact (wf_iff _).2 ⟨hw, (positive_iff fs).2 ⟨hpos, hd⟩, thrDerive_ordered hd hfs⟩

end Sys2Proof.Machine
end

section
/-! The invariant of 10_state.md: which part of `Inv` each operation of a push keeps, and the step. -/

namespace Sys2Proof.Machine

/-! ### The parts of the invariant -/

/-- The part of `Inv` that INVALIDATE leaves as it is: the configuration, the ring and its cursor (D33). -/
structure RingInv (s : State) : Prop where
  cfg_wf : s.cfg.wf = true
  mem_wf : Memory.wf s.hist = true
  cursor_lt : s.histCursor < 255
  ring : ringInRange s

/-- The part of `Inv` that says nothing of the bit machine: the ring, `cal_count` and the calibrator's bounds. -/
structure CalInv (s : State) : Prop extends RingInv s where
  count_lt : s.calCount < 255
  bounds : boundsInRange s

theorem Inv.toCalInv {s : State} (h : Inv s) : CalInv s :=
  ⟨⟨h.cfg_wf, h.mem_wf, h.cursor_lt, h.ring⟩, h.count_lt, h.bounds⟩

/-- `CalInv` speaks of no register outside the calibrator. -/
theorem CalInv.of_same_calibrator {s : State} (h : CalInv s) (lock mid : Bool) (n k f : Nat) (l z : Level) (d : Payload)
    (w : BitVec 16) :
    CalInv { s with locked := lock, midSeen := mid, bitCount := n, zdCount := k, fdsc := f, lastLevel := l, zdLevel := z
                    data := d, syncWord := w } :=
  ⟨⟨h.cfg_wf, h.mem_wf, h.cursor_lt, h.ring⟩, h.count_lt, h.bounds⟩

/-- A block locks only once it is calibrated (R127). -/
theorem Inv.calValid_of_locked {s : State} (h : Inv s) (hl : s.locked = true) : s.calValid = true := by
  by_contra hv
  have hn := (h.calibrating (by simpa using hv)).1
  simp [hl] at hn

/-- What `Inv` asks of a locked, calibrated block. -/
theorem CalInv.inv_of_locked {s : State} (h : CalInv s) (hv : s.calValid = true) (hl : s.locked = true)
    (hz : s.zdCount ≤ s.cfg.thr.maxBit) (hb : s.bitCount ≤ s.cfg.thr.maxBit) (hu : s.lastLevel ≠ .unknown) :
    Inv s where
  cfg_wf := h.cfg_wf
  mem_wf := h.mem_wf
  cursor_lt := h.cursor_lt
  ring := h.ring
  count_lt := h.count_lt
  bounds := h.bounds
  calibrating := by simp [hv]
  zd_le := hz
  locked_le _ := ⟨hb, hu⟩
  unlocked := by simp [hl]

/-- `Inv` speaks of no field of the model's own but the configuration, and not of `fdsc`. -/
theorem Inv.of_same_registers {s : State} (h : Inv s) (n : Nat) (stim : List Ports) (o : Out) (r : Ret) :
    Inv { s with fdsc := n, stimulus := stim, out := o, ret := r } where
  cfg_wf := h.cfg_wf
  mem_wf := h.mem_wf
  cursor_lt := h.cursor_lt
  ring := h.ring
  count_lt := h.count_lt
  bounds := h.bounds
  calibrating := h.calibrating
  zd_le := h.zd_le
  locked_le := h.locked_le
  unlocked := h.unlocked

theorem Inv.setOut {s : State} (h : Inv s) (o : Out) : Inv (setOut o s) :=
  h.of_same_registers s.fdsc s.stimulus o s.ret

theorem Inv.advanceStimulus {s : State} (h : Inv s) : Inv (advanceStimulus s) :=
  h.of_same_registers s.fdsc s.stimulus.tail s.out s.ret

theorem Inv.faSampleReceived {s : State} (h : Inv s) : Inv (faSampleReceived s) :=
  h.of_same_registers (if sig s.data then 0 else s.fdsc + 1) s.stimulus s.out s.ret

/-! ### RESET and INVALIDATE -/

/-- Silence is a sample, signed or not (R6). -/
theorem zero_mem_range {c : Config} (h : c.wf = true) : c.smin ≤ 0 ∧ 0 ≤ c.smax := by
  have hp : 0 < 2 ^ (c.width - 1) := Nat.two_pow_pos _
  have hr := smax_eq_smin_add h
  have hw := two_pow_width h
  unfold Config.smin at hr ⊢
  split at hr <;> omega

theorem RingInv.invalidate {s : State} (h : RingInv s) : Inv (invalidate s) where
  cfg_wf := h.cfg_wf
  mem_wf := h.mem_wf
  cursor_lt := h.cursor_lt
  ring := h.ring
  count_lt := by simp
  bounds := ⟨zero_mem_range h.cfg_wf, zero_mem_range h.cfg_wf, zero_mem_range h.cfg_wf⟩
  calibrating := by simp
  zd_le := by simp
  locked_le := by simp
  unlocked := by simp

/-- The ring that RESET leaves holds 255 zeros. -/
theorem ringInv_empty {s : State} (h : s.cfg.wf = true) : RingInv { s with hist := [], histCursor := 0 } :=
  ⟨h, rfl, Nat.zero_lt_succ _, fun _ _ => zero_mem_range h⟩

theorem resetBlock_inv {s : State} (h : s.cfg.wf = true) : Inv (resetBlock s) := (ringInv_empty h).invalidate

/-- RESET on the RESET state changes nothing (R50). -/
theorem resetBlock_resetWith (c : Config) : resetBlock (State.resetWith c) = State.resetWith c := rfl

/-- Settles O46: the RESET state is one that RESET leaves. -/
theorem resetMeetsTheInvariant : Obligations.ResetMeetsTheInvariant := by
  intro c hc
  rw [← resetBlock_resetWith]
  exact resetBlock_inv hc

/-! ### CAL.PUSH -/

theorem calStore_ringInv {x : Int} {s : State} (h : RingInv s) (hx : s.cfg.smin ≤ x ∧ x ≤ s.cfg.smax) :
    RingInv (calStore x s) where
  cfg_wf := h.cfg_wf
  mem_wf := memWrite_wf h.mem_wf h.cursor_lt x
  cursor_lt := cursorNext_lt _
  ring i hi := by
    rw [calStore_hist, memRead_memWrite h.mem_wf]
    split
    · exact hx
    · exact h.ring i hi

/-- The threshold of bounds in the range is in the range: the halves are truncated toward zero, and zero is in it
(R141's derived sentence). -/
theorem tdiv_add_tdiv_mem_range {lo hi a b : Int} (h0 : lo ≤ 0 ∧ 0 ≤ hi) (ha : lo ≤ a ∧ a ≤ hi) (hb : lo ≤ b ∧ b ≤ hi) :
    lo ≤ tdiv a 2 + tdiv b 2 ∧ tdiv a 2 + tdiv b 2 ≤ hi := by
  rw [tdiv_two_floor, tdiv_two_floor]
  split <;> split <;> omega

theorem mem_ringContents_range {s : State} (h : ringInRange s) {v : Int} (hv : v ∈ ringContents s.hist) :
    s.cfg.smin ≤ v ∧ v ≤ s.cfg.smax := by
  obtain ⟨i, hi, rfl⟩ := mem_ringContents.1 hv
  exact h i hi

theorem calRecompute_bounds {s : State} (h : RingInv s) : boundsInRange (calRecompute s) := by
  have hmin := mem_ringContents_range h.ring (listMin_mem (ringContents_ne_nil s.hist))
  have hmax := mem_ringContents_range h.ring (listMax_mem (ringContents_ne_nil s.hist))
  exact ⟨hmin, hmax, tdiv_add_tdiv_mem_range (zero_mem_range h.cfg_wf) hmin hmax⟩

/-- `cal_valid` after a recomputation says that the bounds and the threshold are in the range (R141). -/
theorem calRecompute_calValid_iff (s : State) : (calRecompute s).calValid = true ↔ boundsInRange (calRecompute s) := by
  simp only [calRecompute, validFlag, representable, Bool.and_eq_true, decide_eq_true_eq, boundsInRange, and_assoc]

theorem calPush_inv {x : Int} {s : State} (h : Inv s) (hx : s.cfg.smin ≤ x ∧ x ≤ s.cfg.smax) : Inv (calPush x s).2 := by
  have hr : RingInv (calStore x s) := calStore_ringInv h.toCalInv.toRingInv hx
  by_cases hc : s.calCount + 1 = 255
  · have hz : RingInv { calStore x s with calCount := 0 } := ⟨hr.cfg_wf, hr.mem_wf, hr.cursor_lt, hr.ring⟩
    have hb := calRecompute_bounds hz
    have hv := (calRecompute_calValid_iff _).2 hb
    rw [calPush_wrap hc]
    exact
      { cfg_wf := hr.cfg_wf, mem_wf := hr.mem_wf, cursor_lt := hr.cursor_lt, ring := hr.ring
        count_lt := by simp, bounds := hb, calibrating := fun hf => nomatch hv.symm.trans hf
        zd_le := h.zd_le, locked_le := h.locked_le, unlocked := h.unlocked }
  · have hlt := h.count_lt
    rw [calPush_count hc]
    exact
      { cfg_wf := hr.cfg_wf, mem_wf := hr.mem_wf, cursor_lt := hr.cursor_lt, ring := hr.ring
        count_lt := by rw [calStore_calCount]; omega
        bounds := h.bounds, calibrating := h.calibrating
        zd_le := h.zd_le, locked_le := h.locked_le, unlocked := h.unlocked }

/-! ### BSM.STEP -/

/-- Steps 3 to 5 of BSM.STEP give `Inv` from any calibrated, locked state, also from the one LOCK leaves, which has no
level on record yet: a count past `max_bit` is overdue and invalidates. -/
theorem bsmTrack_inv {s : State} (v : Wave) (h : CalInv s) (hv : s.calValid = true) (hl : s.locked = true)
    (hz : s.zdCount ≤ s.cfg.thr.maxBit) : Inv (bsmTrack v s).2 := by
  have hord : s.cfg.thr.ordered = true := ((wf_iff _).1 h.cfg_wf).2.2
  have hr : RingInv { s with bitCount := s.bitCount + 1, lastLevel := v.level } := (h.of_same_calibrator ..).toRingInv
  rw [bsmTrack_eq]
  rcases bsmResolve_cases (bsmExpect s.cfg.thr (s.bitCount + 1) s.midSeen) (levelChanged s.lastLevel v.level) v
    { s with bitCount := s.bitCount + 1, lastLevel := v.level } with ⟨e, _⟩ | ⟨e, _⟩ | ⟨e, hev, _⟩ | ⟨e, _⟩
  · rw [e]; exact hr.invalidate
  · rw [e]; exact hr.invalidate
  · rw [Ne, bsmExpect_overdue_iff hord, not_lt] at hev
    rw [e]
    exact (h.of_same_calibrator ..).inv_of_locked hv hl hz hev (wave_level_ne_unknown v)
  · rw [e]
    exact (h.of_same_calibrator ..).inv_of_locked hv hl hz (Nat.zero_le _) (wave_level_ne_unknown v)

theorem bsmClassified_inv {s : State} (v : Wave) (h : Inv s) (hv : s.calValid = true) : Inv (bsmClassified v s).2 := by
  rcases Bool.eq_false_or_eq_true s.locked with hl | hl
  · rw [bsmClassified_locked hl]
    exact bsmTrack_inv v h.toCalInv hv hl h.zd_le
  · have hz := zdStep_count_le v s
    rcases Bool.eq_false_or_eq_true (zdStep v s).1 with hlock | hlock
    · rw [bsmClassified_lock hl hlock, (zdStep_lock hlock).1]
      exact bsmTrack_inv v (h.toCalInv.of_same_calibrator ..) hv rfl (Nat.zero_le _)
    · rw [bsmClassified_search hl hlock, zdStep_frame]
      exact
        { cfg_wf := h.cfg_wf, mem_wf := h.mem_wf, cursor_lt := h.cursor_lt, ring := h.ring
          count_lt := h.count_lt, bounds := h.bounds, calibrating := by simp [hv]
          zd_le := hz, locked_le := by simp [hl], unlocked := h.unlocked }

/-- A classified sample comes from a valid threshold. -/
theorem calPush_calValid {x : Int} {s : State} {v : Wave} (h : (calPush x s).1 = v.level) :
    (calPush x s).2.calValid = true := by
  have hv : (calPush x s).2.calValid ≠ false := by
    rw [Ne, ← calClassify_unknown_iff x, ← calPush_level, h]
    exact wave_level_ne_unknown v
  simpa using hv

theorem bsmStep_inv {x : Int} {s : State} (h : Inv s) (hx : s.cfg.smin ≤ x ∧ x ≤ s.cfg.smax) : Inv (bsmStep x s).2 := by
  have hp := calPush_inv h hx
  rcases level_cases (calPush x s).1 with hl | ⟨v, hl⟩
  · rw [bsmStep_unknown hl]; exact hp
  · rw [bsmStep_classified hl]
    exact bsmClassified_inv v hp (calPush_calValid hl)

/-! ### The assembler: a bit is decoded on a locked block only -/

theorem bsmTrack_bit_locked {v : Wave} {s : State} (h : (bsmTrack v s).1.bit.isSome = true) :
    (bsmTrack v s).2.locked = s.locked := by
  rw [bsmTrack_eq] at h ⊢
  rcases bsmResolve_cases (bsmExpect s.cfg.thr (s.bitCount + 1) s.midSeen) (levelChanged s.lastLevel v.level) v
    { s with bitCount := s.bitCount + 1, lastLevel := v.level } with ⟨e, _⟩ | ⟨e, _⟩ | ⟨e, _⟩ | ⟨e, _⟩
  · simp [e] at h
  · simp [e] at h
  · simp [e, noBit] at h
  · rw [e]

theorem bsmClassified_bit_locked {v : Wave} {s : State} (h : (bsmClassified v s).1.bit.isSome = true) :
    (bsmClassified v s).2.locked = true := by
  rcases Bool.eq_false_or_eq_true s.locked with hl | hl
  · rw [bsmClassified_locked hl] at h ⊢
    exact (bsmTrack_bit_locked h).trans hl
  · rcases Bool.eq_false_or_eq_true (zdStep v s).1 with hlock | hlock
    · rw [bsmClassified_lock hl hlock] at h ⊢
      exact bsmTrack_bit_locked h
    · simp [bsmClassified_search hl hlock, noBit] at h

theorem bsmStep_bit_locked {x : Int} {s : State} (h : (bsmStep x s).1.bit.isSome = true) :
    (bsmStep x s).2.locked = true := by
  rcases level_cases (calPush x s).1 with hl | ⟨v, hl⟩
  · simp [bsmStep_unknown hl] at h
  · rw [bsmStep_classified hl] at h ⊢
    exact bsmClassified_bit_locked h

theorem assemble_inv {b : Option Bool} {s : State} (h : Inv s) (hb : b.isSome = true → s.locked = true) :
    Inv (assemble b s).2 := by
  cases b with
  | none => exact h
  | some b =>
    have hl := hb rfl
    obtain ⟨hcount, hlevel⟩ := h.locked_le hl
    exact (h.toCalInv.of_same_calibrator ..).inv_of_locked (h.calValid_of_locked hl) hl h.zd_le hcount hlevel

/-! ### The step -/

theorem pushSample_inv {x : Int} {s : State} (h : Inv s) (hx : s.cfg.smin ≤ x ∧ x ≤ s.cfg.smax) : Inv (pushSample x s) :=
  (assemble_inv (bsmStep_inv h.faSampleReceived hx) bsmStep_bit_locked).setOut _

/-- Settles O47: each of the three commands keeps `Inv`; a push operation by operation. -/
theorem everyStepKeepsTheInvariant : Obligations.EveryStepKeepsTheInvariant := by
  intro s t h ht
  have ha := h.advanceStimulus
  rw [step_of_wf h.cfg_wf] at ht
  rcases decodePorts_cases (currentPorts s) with e | e | e <;> rw [e] at ht
  · cases ht
    exact (resetBlock_inv ha.cfg_wf).setOut _
  · rw [exec_pushSample _ ha.cursor_lt] at ht
    cases ht
    exact pushSample_inv ha (sampleInt_mem_range ha.cfg_wf _)
  · cases ht
    exact ha.setOut _

end Sys2Proof.Machine
end

section
/-! Hidden registers (10_state.md R52): what a push leaves and reports does not depend on them. Hiding registers commutes
with the operations of a push that do not read them. -/

namespace Sys2Proof.Machine

/-- Which registers a statement hides: the ring and its cursor, `cal_min` and `cal_max`, `zd_level` and `zd_count`. -/
structure Hidden where
  ring   : Bool
  bounds : Bool
  zd     : Bool

/-- `s` with the hidden registers at their reset values: two states agree but for them when `hide` makes them equal. -/
def hide (h : Hidden) (s : State) : State :=
  { s with
    hist := if h.ring then [] else s.hist, histCursor := if h.ring then 0 else s.histCursor
    calMin := if h.bounds then 0 else s.calMin, calMax := if h.bounds then 0 else s.calMax
    zdLevel := if h.zd then .unknown else s.zdLevel, zdCount := if h.zd then 0 else s.zdCount }

/-- The result of an operation, with hidden registers in the state it leaves. -/
def hideResult {α : Type} (h : Hidden) (r : α × State) : α × State := (r.1, hide h r.2)

/-! ### Reading an agreement -/

theorem eq_of_hide_ring {s u : State} (e : hide ⟨true, false, false⟩ s = hide ⟨true, false, false⟩ u) :
    u = { s with hist := u.hist, histCursor := u.histCursor } :=
  (congrArg (fun r : State => { r with hist := u.hist, histCursor := u.histCursor }) e).symm

theorem eq_of_hide_bounds {s u : State} (e : hide ⟨false, true, false⟩ s = hide ⟨false, true, false⟩ u) :
    u = { s with calMin := u.calMin, calMax := u.calMax } :=
  (congrArg (fun r : State => { r with calMin := u.calMin, calMax := u.calMax }) e).symm

theorem eq_of_hide_zd {s u : State} (e : hide ⟨false, false, true⟩ s = hide ⟨false, false, true⟩ u) :
    u = { s with zdLevel := u.zdLevel, zdCount := u.zdCount } :=
  (congrArg (fun r : State => { r with zdLevel := u.zdLevel, zdCount := u.zdCount }) e).symm

/-! ### The bit machine and the assembler -/

/-- INVALIDATE gives the hidden registers their reset values or leaves them. -/
theorem invalidate_hide (h : Hidden) (s : State) : invalidate (hide h s) = hide h (invalidate s) := by
  obtain ⟨ring, bounds, zd⟩ := h
  cases bounds <;> cases zd <;> rfl

theorem bsmResolve_hide (h : Hidden) (ev : Event) (c : Bool) (v : Wave) (s : State) :
    bsmResolve ev c v (hide h s) = hideResult h (bsmResolve ev c v s) := by
  cases ev with
  | overdue => exact congrArg (Prod.mk _) (invalidate_hide h s)
  | mustBeSteady =>
    cases c with
    | true => exact congrArg (Prod.mk _) (invalidate_hide h s)
    | false => rfl
  | canChangeInMiddle => rfl
  | canChangeInEnd => cases c <;> rfl

theorem bsmTrack_hide (h : Hidden) (v : Wave) (s : State) : bsmTrack v (hide h s) = hideResult h (bsmTrack v s) :=
  bsmResolve_hide h _ _ v { s with bitCount := s.bitCount + 1, lastLevel := v.level }

/-- ZD.STEP reads its own two registers only, and the thresholds. -/
theorem zdStep_hide {h : Hidden} (hz : h.zd = false) (v : Wave) (s : State) :
    zdStep v (hide h s) = hideResult h (zdStep v s) := by
  obtain ⟨ring, bounds, zd⟩ := h
  obtain rfl : zd = false := hz
  unfold zdStep hideResult
  dsimp only [hide]
  simp only [Bool.false_eq_true, if_false]
  split
  · rfl
  · split
    · rfl
    · split <;> rfl

/-- The zero detector's registers may be hidden where steps 2 to 5 of BSM.STEP do not read them: on a locked block. -/
def zdUnread (h : Hidden) (s : State) : Prop := h.zd = false ∨ s.locked = true

theorem bsmClassified_hide {h : Hidden} {s : State} (hz : zdUnread h s) (v : Wave) :
    bsmClassified v (hide h s) = hideResult h (bsmClassified v s) := by
  rcases Bool.eq_false_or_eq_true s.locked with hl | hl
  · rw [bsmClassified_locked hl, bsmClassified_locked (s := hide h s) hl, bsmTrack_hide]
  · have hzd : h.zd = false := hz.resolve_right (by simp [hl])
    have hstep := zdStep_hide hzd v s
    rcases Bool.eq_false_or_eq_true (zdStep v s).1 with hlock | hlock
    · rw [bsmClassified_lock hl hlock, bsmClassified_lock (s := hide h s) hl (by rw [hstep]; exact hlock), hstep]
      exact bsmTrack_hide h v (lockOn (zdStep v s).2)
    · rw [bsmClassified_search hl hlock, bsmClassified_search (s := hide h s) hl (by rw [hstep]; exact hlock), hstep]
      rfl

/-- What PUSH_SAMPLE does after BSM.STEP (R121): the assembler and the outputs. -/
def assembleAndReport (r : BitResult × State) : State :=
  let g := assemble r.1.bit r.2
  setOut { level := r.1.level, bit := r.1.bit, anomaly := r.1.anomaly
           frame := g.1.map fun f => tcBuild g.2.cfg f.payload f.sampleCount } g.2

theorem pushSample_eq (x : Int) (s : State) :
    pushSample x s = assembleAndReport (bsmStep x (faSampleReceived s)) := rfl

theorem assembleAndReport_hide (h : Hidden) (r : BitResult × State) :
    assembleAndReport (hideResult h r) = hide h (assembleAndReport r) := by
  obtain ⟨⟨level, bit, anomaly⟩, s⟩ := r
  cases bit <;> rfl

/-! ### CAL.PUSH -/

/-- A stored sample goes to the ring, hidden or not. -/
theorem hide_calStore_hide (h : Hidden) (x : Int) (s : State) : hide h (calStore x (hide h s)) = hide h (calStore x s) := by
  obtain ⟨ring, bounds, zd⟩ := h
  cases ring <;> cases bounds <;> cases zd <;> rfl

/-- CAL.RECOMPUTE with the extremes of the ring given (R141). -/
def recomputeWith (mn mx : Int) (s : State) : State :=
  { s with calMin := mn, calMax := mx, calThr := tdiv mn 2 + tdiv mx 2, calValid := validFlag s.cfg mn mx (tdiv mn 2 + tdiv mx 2) }

theorem calRecompute_eq (s : State) :
    calRecompute s = recomputeWith (listMin (ringContents s.hist)) (listMax (ringContents s.hist)) s := rfl

theorem hide_recomputeWith_hide (h : Hidden) (mn mx : Int) (s : State) :
    hide h (recomputeWith mn mx (hide h s)) = hide h (recomputeWith mn mx s) := by
  obtain ⟨ring, bounds, zd⟩ := h
  cases ring <;> cases bounds <;> cases zd <;> rfl

/-- Two rings whose extremes are the same. -/
def sameExtremes (m m' : Memory) : Prop :=
  listMin (ringContents m) = listMin (ringContents m') ∧ listMax (ringContents m) = listMax (ringContents m')

/-- CAL.PUSH reads the ring in the recomputation only, and of the ring only its extremes. -/
theorem calPush_agree {h : Hidden} {x : Int} {s u : State} (e : hide h s = hide h u)
    (hx : s.calCount + 1 = 255 → sameExtremes (calStore x s).hist (calStore x u).hist) :
    hide h (calPush x s).2 = hide h (calPush x u).2 := by
  have hcount : s.calCount = u.calCount := (congrArg State.calCount e :)
  have hstore : hide h (calStore x s) = hide h (calStore x u) := by
    rw [← hide_calStore_hide, e, hide_calStore_hide]
  by_cases hc : s.calCount + 1 = 255
  · have hzero : hide h { calStore x s with calCount := 0 } = hide h { calStore x u with calCount := 0 } :=
      congrArg (fun r : State => { r with calCount := 0 }) hstore
    obtain ⟨hmin, hmax⟩ := hx hc
    rw [calPush_wrap hc, calPush_wrap (hcount ▸ hc), calRecompute_eq, calRecompute_eq]
    rw [← hide_recomputeWith_hide, hzero, hide_recomputeWith_hide]
    dsimp only
    rw [hmin, hmax]
  · rw [calPush_count hc, calPush_count (hcount ▸ hc), hstore]

/-! ### BSM.STEP and PUSH_SAMPLE -/

theorem bsmStep_agree {h : Hidden} {x : Int} {s u : State} (hz : zdUnread h s)
    (e : hide h (calPush x s).2 = hide h (calPush x u).2) : hideResult h (bsmStep x s) = hideResult h (bsmStep x u) := by
  have hlocked : (calPush x s).2.locked = s.locked := (congrArg State.locked (calPush_frame x s) :)
  have hzs : zdUnread h (calPush x s).2 := by rwa [zdUnread, hlocked]
  have hzu : zdUnread h (calPush x u).2 := by
    have : (calPush x s).2.locked = (calPush x u).2.locked := (congrArg State.locked e :)
    rwa [zdUnread, ← this]
  have hlevel : (calPush x s).1 = (calPush x u).1 := (congrArg (calClassify x) e :)
  rcases level_cases (calPush x s).1 with hl | ⟨v, hl⟩
  · rw [bsmStep_unknown hl, bsmStep_unknown (hlevel ▸ hl)]
    exact congrArg (Prod.mk _) e
  · rw [bsmStep_classified hl, bsmStep_classified (hlevel ▸ hl), ← bsmClassified_hide hzs, ← bsmClassified_hide hzu, e]

/-- What a push leaves and reports beside the hidden registers depends on no hidden register that CAL.PUSH does not
bring to light. -/
theorem pushSample_agree {h : Hidden} {x : Int} {s u : State} (hz : zdUnread h s) (e : hide h s = hide h u)
    (hx : s.calCount + 1 = 255 → sameExtremes (calStore x s).hist (calStore x u).hist) :
    hide h (pushSample x s) = hide h (pushSample x u) := by
  have hfa : hide h (faSampleReceived s) = hide h (faSampleReceived u) :=
    (congrArg faSampleReceived e :)
  have hb : hideResult h (bsmStep x (faSampleReceived s)) = hideResult h (bsmStep x (faSampleReceived u)) :=
    bsmStep_agree hz (calPush_agree hfa hx)
  rw [pushSample_eq, pushSample_eq, ← assembleAndReport_hide, hb, assembleAndReport_hide]

/-- Settles O50: a ring that is not hidden has its extremes, and the outputs are among what the states agree on. -/
theorem hiddenRegistersDoNotShow : Obligations.HiddenRegistersDoNotShow := by
  intro s w a b l n hc
  refine ⟨⟨_, _, exec_pushSample w hc, exec_pushSample w hc, ?_⟩,
    fun hl => ⟨_, _, exec_pushSample w hc, exec_pushSample w hc, ?_⟩⟩
  · exact eq_of_hide_bounds (pushSample_agree (.inl rfl) rfl fun _ => ⟨rfl, rfl⟩)
  · exact eq_of_hide_zd (pushSample_agree (.inr hl) rfl fun _ => ⟨rfl, rfl⟩)

end Sys2Proof.Machine
end

section
/-! The ring's cursor and its old content are hidden (10_state.md R48, R52): two blocks that have pushed the same samples
since `cal_count` was 0 differ in the ring and the cursor at most. -/

namespace Sys2Proof.Machine

/-! ### Samples by their age -/

/-- The sample pushed `k` pushes before the last one: `k` places below the cursor, around the ring. -/
def sampleAged (s : State) (k : Nat) : Int := memRead s.hist ((s.histCursor + 254 - k) % 255)

/-- `t`'s ring is `s`'s with `x` pushed (R140). -/
def ringPushed (x : Int) (s t : State) : Prop :=
  t.hist = memWrite s.hist s.histCursor x ∧ t.histCursor = cursorNext s.histCursor

theorem sampleAged_pushed {x : Int} {s t : State} (h : ringPushed x s t) (hm : Memory.wf s.hist = true)
    (hc : s.histCursor < 255) {k : Nat} (hk : k < 255) :
    sampleAged t k = if k = 0 then x else sampleAged s (k - 1) := by
  obtain ⟨hhist, hcursor⟩ := h
  have hage : ((s.histCursor + 1) % 255 + 254 - k) % 255 = s.histCursor ↔ k = 0 := by omega
  have hplace : k ≠ 0 → ((s.histCursor + 1) % 255 + 254 - k) % 255 = (s.histCursor + 254 - (k - 1)) % 255 := by omega
  rw [sampleAged, hhist, hcursor, memRead_memWrite hm, cursorNext]
  by_cases h0 : k = 0
  · rw [if_pos (hage.2 h0), if_pos h0]
  · rw [if_neg (mt hage.1 h0), if_neg h0, hplace h0, sampleAged]

theorem mem_ringContents_iff_aged {s : State} (hc : s.histCursor < 255) {v : Int} :
    v ∈ ringContents s.hist ↔ ∃ k < 255, sampleAged s k = v := by
  rw [mem_ringContents]
  constructor
  · rintro ⟨i, hi, rfl⟩
    refine ⟨(s.histCursor + 254 - i) % 255, by omega, ?_⟩
    rw [sampleAged, show (s.histCursor + 254 - (s.histCursor + 254 - i) % 255) % 255 = i by omega]
  · rintro ⟨k, _, rfl⟩
    exact ⟨_, Nat.mod_lt _ (by decide), rfl⟩

/-- The extremes are determined by which samples the ring holds, wherever they stand. -/
theorem sameExtremes_of_mem_iff {m m' : Memory} (h : ∀ v, v ∈ ringContents m ↔ v ∈ ringContents m') :
    sameExtremes m m' := by
  have hne := ringContents_ne_nil m
  have hne' := ringContents_ne_nil m'
  constructor
  · exact le_antisymm (listMin_le ((h _).2 (listMin_mem hne'))) (listMin_le ((h _).1 (listMin_mem hne)))
  · exact le_antisymm (le_listMax ((h _).1 (listMax_mem hne))) (le_listMax ((h _).2 (listMax_mem hne')))

/-! ### Blocks with the same recent samples -/

/-- The two rings are canonical, their cursors lie in them, and they agree on the last `n` samples. -/
structure SameRecent (n : Nat) (s u : State) : Prop where
  mem_wf : Memory.wf s.hist = true
  mem_wf' : Memory.wf u.hist = true
  cursor_lt : s.histCursor < 255
  cursor_lt' : u.histCursor < 255
  aged : ∀ k < n, sampleAged s k = sampleAged u k

theorem SameRecent.mono {n k : Nat} {s u : State} (h : SameRecent n s u) (hk : k ≤ n) : SameRecent k s u :=
  { h with aged := fun i hi => h.aged i (by omega) }

theorem SameRecent.pushed {n : Nat} {x : Int} {s u t v : State} (h : SameRecent n s u) (hn : n < 255)
    (ht : ringPushed x s t) (hv : ringPushed x u v) : SameRecent (n + 1) t v where
  mem_wf := ht.1 ▸ memWrite_wf h.mem_wf h.cursor_lt x
  mem_wf' := hv.1 ▸ memWrite_wf h.mem_wf' h.cursor_lt' x
  cursor_lt := ht.2 ▸ cursorNext_lt _
  cursor_lt' := hv.2 ▸ cursorNext_lt _
  aged k hk := by
    rw [sampleAged_pushed ht h.mem_wf h.cursor_lt (by omega), sampleAged_pushed hv h.mem_wf' h.cursor_lt' (by omega)]
    split
    · rfl
    · exact h.aged (k - 1) (by omega)

theorem SameRecent.sameExtremes {s u : State} (h : SameRecent 255 s u) : sameExtremes s.hist u.hist := by
  refine sameExtremes_of_mem_iff fun v => ?_
  rw [mem_ringContents_iff_aged h.cursor_lt, mem_ringContents_iff_aged h.cursor_lt']
  exact exists_congr fun k => and_congr_right fun hk => by rw [h.aged k hk]

/-! ### `cal_count` -/

theorem bsmResolve_calCount_le (ev : Event) (c : Bool) (v : Wave) (s : State) :
    (bsmResolve ev c v s).2.calCount ≤ s.calCount := by
  rcases bsmResolve_cases ev c v s with ⟨e, _⟩ | ⟨e, _⟩ | ⟨e, _⟩ | ⟨e, _⟩ <;> simp [e]

theorem bsmClassified_calCount_le (v : Wave) (s : State) : (bsmClassified v s).2.calCount ≤ s.calCount := by
  have hz : (zdStep v s).2.calCount = s.calCount := (congrArg State.calCount (zdStep_frame v s) :)
  rcases Bool.eq_false_or_eq_true s.locked with hl | hl
  · rw [bsmClassified_locked hl, bsmTrack_eq]
    exact bsmResolve_calCount_le _ _ v { s with bitCount := s.bitCount + 1, lastLevel := v.level }
  · rcases Bool.eq_false_or_eq_true (zdStep v s).1 with hlock | hlock
    · rw [bsmClassified_lock hl hlock, bsmTrack_eq, ← hz]
      exact bsmResolve_calCount_le ..
    · rw [bsmClassified_search hl hlock, hz]

theorem calPush_calCount (x : Int) (s : State) :
    (calPush x s).2.calCount = if s.calCount + 1 = 255 then 0 else s.calCount + 1 := by
  split
  · next h => rw [calPush_wrap h, calRecompute_calCount]
  · next h => rw [calPush_count h, calStore_calCount]

/-- A push counts its sample, or leaves the count at 0 (R22). -/
theorem pushSample_calCount_le (x : Int) (s : State) :
    (pushSample x s).calCount ≤ if s.calCount + 1 = 255 then 0 else s.calCount + 1 := by
  have hb : (bsmStep x (faSampleReceived s)).2.calCount ≤ (calPush x (faSampleReceived s)).2.calCount := by
    rcases level_cases (calPush x (faSampleReceived s)).1 with hl | ⟨v, hl⟩
    · rw [bsmStep_unknown hl]
    · rw [bsmStep_classified hl]; exact bsmClassified_calCount_le v _
  rw [calPush_calCount] at hb
  simp only [pushSample, setOut_calCount]
  rw [assemble_frame]
  exact hb

/-! ### The simulation -/

/-- The registers that D33 keeps over an invalidation. -/
def ringHidden : Hidden := ⟨true, false, false⟩

/-- Two states that agree but for the ring and its cursor, and whose rings agree on the samples counted since the last
recomputation. -/
structure SameButRing (s u : State) : Prop where
  agree : hide ringHidden s = hide ringHidden u
  count_lt : s.calCount < 255
  recent : SameRecent s.calCount s u

theorem SameButRing.pushSample {s u : State} (h : SameButRing s u) (x : Int) :
    SameButRing (pushSample x s) (pushSample x u) := by
  have hle := pushSample_calCount_le x s
  have hlt := h.count_lt
  have hx : s.calCount + 1 = 255 → sameExtremes (calStore x s).hist (calStore x u).hist := fun hc =>
    (hc ▸ h.recent.pushed hlt (t := calStore x s) (v := calStore x u) ⟨rfl, rfl⟩ ⟨rfl, rfl⟩).sameExtremes
  refine ⟨pushSample_agree (.inl rfl) h.agree hx, ?_, ?_⟩
  · split at hle <;> omega
  · refine (h.recent.pushed hlt (pushSample_ring x s) (pushSample_ring x u)).mono ?_
    split at hle <;> omega

/-- RESET empties both rings and counts no sample. -/
theorem SameButRing.resetBlock {s u : State} (h : SameButRing s u) :
    SameButRing (resetBlock s) (resetBlock u) where
  agree := (congrArg invalidate h.agree :)
  count_lt := Nat.zero_lt_succ _
  recent :=
    { mem_wf := rfl, mem_wf' := rfl, cursor_lt := Nat.zero_lt_succ _, cursor_lt' := Nat.zero_lt_succ _
      aged := fun k hk => absurd hk (Nat.not_lt_zero k) }

theorem SameButRing.setOut {s u : State} (h : SameButRing s u) (o : Out) : SameButRing (setOut o s) (setOut o u) where
  agree := (congrArg (Machine.setOut o) h.agree :)
  count_lt := h.count_lt
  recent := { h.recent with }

theorem SameButRing.advanceStimulus {s u : State} (h : SameButRing s u) :
    SameButRing (advanceStimulus s) (advanceStimulus u) where
  agree := (congrArg Machine.advanceStimulus h.agree :)
  count_lt := h.count_lt
  recent := { h.recent with }

theorem SameButRing.step {s u : State} (h : SameButRing s u) (hwf : s.cfg.wf = true) :
    ∃ t v, step s = .next t ∧ step u = .next v ∧ SameButRing t v ∧ t.cfg = s.cfg := by
  have hcfg : u.cfg = s.cfg := (congrArg State.cfg h.agree.symm :)
  have hports : currentPorts u = currentPorts s := (congrArg currentPorts h.agree.symm :)
  have ha := h.advanceStimulus
  rw [step_of_wf hwf, step_of_wf (hcfg ▸ hwf), hports]
  rcases decodePorts_cases (currentPorts s) with e | e | e <;> rw [e]
  · exact ⟨_, _, rfl, rfl, ha.resetBlock.setOut _, rfl⟩
  · rw [exec_pushSample _ ha.recent.cursor_lt, exec_pushSample _ ha.recent.cursor_lt', advanceStimulus_cfg,
      advanceStimulus_cfg, hcfg]
    exact ⟨_, _, rfl, rfl, ha.pushSample _, (pushSample_setting _ _).1⟩
  · exact ⟨_, _, rfl, rfl, ha.setOut _, rfl⟩

theorem SameButRing.run {s u : State} (h : SameButRing s u) (hwf : s.cfg.wf = true) (n : Nat) :
    ∃ t v, Host.Core.run core n s = .next t ∧ Host.Core.run core n u = .next v ∧ SameButRing t v := by
  induction n generalizing s u with
  | zero => exact ⟨s, u, rfl, rfl, h⟩
  | succ n ih =>
    obtain ⟨t, v, ht, hv, htv, hcfg⟩ := h.step hwf
    rw [run_succ ht, run_succ hv]
    exact ih htv (hcfg ▸ hwf)

/-- Settles O52: with `cal_count = 0` the rings need agree on no sample. -/
theorem ringContentAndCursorDoNotShow : Obligations.RingContentAndCursorDoNotShow := by
  intro s m c n hwf hs hm hcs hc hcount
  have h : SameButRing s { s with hist := m, histCursor := c } :=
    { agree := rfl, count_lt := by omega
      recent :=
        { mem_wf := hs, mem_wf' := hm, cursor_lt := hcs, cursor_lt' := hc
          aged := fun k hk => absurd hk (by omega) } }
  obtain ⟨t, v, ht, hv, htv⟩ := h.run hwf n
  exact ⟨t, v.hist, v.histCursor, ht, by rw [hv]; exact congrArg _ (eq_of_hide_ring htv.agree)⟩

end Sys2Proof.Machine
end

section
/-! The writers of each register (10_state.md R20 to R36, R40). -/

namespace Sys2Proof.Machine

theorem execThrDerive_next {fs : Rate} {s t : State} (h : execThrDerive fs s = .next t) : ∃ r, t = setRet r s := by
  unfold execThrDerive at h
  split at h
  · cases h; exact ⟨_, rfl⟩
  · cases h

theorem execTcAdvance_next {f : TimecodeFrame} {s t : State} (h : execTcAdvance f s = .next t) : ∃ r, t = setRet r s := by
  unfold execTcAdvance at h
  split at h
  · cases h; exact ⟨_, rfl⟩
  · cases h

/-- Settles O49, instruction by instruction: the composed operations by their frame lemmas, and a reference function
records its result only. -/
theorem registersChangeOnlyByTheirWriters : Obligations.RegistersChangeOnlyByTheirWriters := by
  intro i s t h
  cases i
  case reset => cases h; simp [resetBlock]
  case pushSample w =>
    obtain ⟨_, rfl⟩ := writesRing_next h
    obtain ⟨hcfg, hstim, hret⟩ := pushSample_setting (sampleInt s.cfg w) s
    simp [hcfg, hstim, hret]
  case idle => cases h; simp
  case invalidate => cases h; simp
  case calPush w =>
    obtain ⟨_, rfl⟩ := writesRing_next h
    have e := calPush_frame (sampleInt s.cfg w) s
    generalize (calPush (sampleInt s.cfg w) s).2 = u at e ⊢
    rw [e]
    simp
  case calRecompute => cases h; simp
  case calInvalidate => cases h; simp [calInvalidate]
  case thrDerive fs =>
    obtain ⟨r, rfl⟩ := execThrDerive_next h
    simp
  case zdStep v =>
    cases h
    have e := zdStep_frame v s
    generalize (zdStep v s).2 = u at e ⊢
    rw [e]
    simp
  case zdReset => cases h; simp
  case bsmStep w =>
    obtain ⟨_, rfl⟩ := writesRing_next h
    obtain ⟨hcfg, hstim, hout, _⟩ := bsmStep_setting (sampleInt s.cfg w) s
    simp [hcfg, hstim, hout]
  case bsmResolve ev c v =>
    cases h
    obtain ⟨hcfg, hstim, hout, _⟩ := bsmResolve_setting ev c v s
    obtain ⟨hhist, hcursor⟩ := bsmResolve_ring ev c v s
    simp [hcfg, hstim, hout, hhist, hcursor]
  case bsmInvalidate => cases h; simp [bsmInvalidate]
  case faSampleReceived => cases h; simp
  case faShiftBit b => cases h; simp
  case faInvalidate => cases h; simp [faInvalidate]
  case tcAdvance f =>
    obtain ⟨r, rfl⟩ := execTcAdvance_next h
    simp
  all_goals cases h; simp

end Sys2Proof.Machine
end

section
/-! The output ports (10_state.md R43; 30_encoding.md R84, R86, R95). -/

namespace Sys2Proof.Machine

theorem toNat_append_add {w v : Nat} (a : BitVec w) (b : BitVec v) : (a ++ b).toNat = b.toNat + 2 ^ v * a.toNat := by
  rw [BitVec.toNat_append, ← Nat.shiftLeft_add_eq_or_of_lt b.isLt, Nat.shiftLeft_eq, Nat.mul_comm, Nat.add_comm]

/-- `ub_o[4k-1 : 4k-4] = ub[k]` as a number (R95). -/
theorem ubWord_toNat (u : UserBits) :
    (ubWord u).toNat = u.ub1.toNat + 2 ^ 4 * u.ub2.toNat + 2 ^ 8 * u.ub3.toNat + 2 ^ 12 * u.ub4.toNat +
      2 ^ 16 * u.ub5.toNat + 2 ^ 20 * u.ub6.toNat + 2 ^ 24 * u.ub7.toNat + 2 ^ 28 * u.ub8.toNat := by
  simp only [ubWord, toNat_append_add]
  ring

/-- Settles O45: the codes value by value, the user bits by `ubWord_toNat`. -/
theorem outputPortFormat : Obligations.OutputPortFormat := by
  intro s
  refine ⟨⟨rfl, rfl, rfl⟩, ?_, ?_, ?_, ?_, fun t ht => ⟨frameWires t, ?_, rfl, rfl, rfl, rfl, ?_, rfl, rfl, ubWord_toNat t.ub⟩⟩
  · show (levelCode s.out.level).toNat = _
    cases s.out.level <;> rfl
  · show (anomalyCode s.out.anomaly).toNat = _
    cases s.out.anomaly <;> rfl
  · exact Option.isSome_iff_exists.trans (exists_congr fun b => (and_self_iff).symm)
  · exact Option.isSome_iff_exists.trans (by rfl)
  · simp [outputPorts, ht]
  · show (fpsCode t.fps).toNat = _
    cases t.fps <;> rfl

end Sys2Proof.Machine
end

section
/-! The ring's locations (20_memory.md section 1, R62): where an operation faults. -/

namespace Sys2Proof.Machine

/-- Settles O53: the three operations that write the ring are guarded by `writesRing`, and `exec_fault` says that no other
faults. -/
theorem onlyAWriteOutsideTheRingFaults : Obligations.OnlyAWriteOutsideTheRingFaults :=
  ⟨fun _ _ h => ⟨writesRing_of_ge h, writesRing_of_ge h, writesRing_of_ge h⟩, fun _ _ _ h => exec_fault h⟩

end Sys2Proof.Machine
end

section
/-! The command interface (30_encoding.md R80, R82, R83): the control word, the bytes of a command word, and encoding
against decoding. -/

namespace Sys2Proof

/-! ### The control word -/

theorem ctl_toNat (p : Ports) : p.ctl.toNat = 2 * p.rst.toNat + p.sampleValid.toNat := by
  obtain ⟨r, v, w⟩ := p
  show (BitVec.ofBool r ++ BitVec.ofBool v).toNat = 2 * r.toNat + v.toNat
  revert r v; decide

/-- Settles O1: the control word as a number by `ctl_toNat`, the rows of R82 by `decodePorts_eq`. -/
theorem controlWordSelectsTheCommand : Obligations.ControlWordSelectsTheCommand := by
  intro p
  rw [decodePorts_eq]
  refine ⟨ctl_toNat p, fun hr => ?_, fun hr hv => ?_, fun hr hv => ?_⟩
  · rw [if_pos hr]
  · rw [hr, hv]; rfl
  · rw [hr, hv]; rfl

/-! ### The bytes of a command word (log 7) -/

/-- The least significant byte of a word comes first. -/
theorem bytesOfNat_append (k : Nat) {n : Nat} (x : BitVec n) (b : Byte) :
    bytesOfNat (k + 1) (x ++ b).toNat = b :: bytesOfNat k x.toNat := by
  have hb := b.isLt
  have hlow : BitVec.ofNat 8 (b.toNat + 2 ^ 8 * x.toNat) = b := by
    apply BitVec.eq_of_toNat_eq
    rw [BitVec.toNat_ofNat]
    omega
  have hrest : (b.toNat + 2 ^ 8 * x.toNat) / 256 = x.toNat := by omega
  rw [Machine.toNat_append_add, bytesOfNat, hlow, hrest]

/-- The bytes of the number that five bytes write are those bytes. -/
theorem bytesOfNat_five_append (b0 b1 b2 b3 b4 : Byte) :
    bytesOfNat 5 (b4 ++ b3 ++ b2 ++ b1 ++ b0).toNat = [b0, b1, b2, b3, b4] := by
  rw [bytesOfNat_append, bytesOfNat_append, bytesOfNat_append, bytesOfNat_append, bytesOfNat, bytesOfNat,
    BitVec.ofNat_toNat, BitVec.setWidth_eq]

/-- Every command word has five bytes, and they decode to the command of its ports. -/
theorem decode_bytesOfNat (w : CommandWord) : decode (bytesOfNat 5 w.toNat) = .ok (decodePorts (portsOfWord w)) := by
  have hw := w.isLt
  have hvalue : (BitVec.ofNat 8 (w.toNat / 256 / 256 / 256 / 256) ++ BitVec.ofNat 8 (w.toNat / 256 / 256 / 256) ++
      BitVec.ofNat 8 (w.toNat / 256 / 256) ++ BitVec.ofNat 8 (w.toNat / 256) ++ BitVec.ofNat 8 w.toNat).setWidth 34 = w := by
    apply BitVec.eq_of_toNat_eq
    simp only [BitVec.toNat_setWidth, Machine.toNat_append_add, BitVec.toNat_ofNat]
    omega
  have htop : (BitVec.ofNat 8 (w.toNat / 256 / 256 / 256 / 256)).toNat < 4 := by
    rw [BitVec.toNat_ofNat]
    omega
  simp only [bytesOfNat, decode, if_pos htop, hvalue]

/-- Only the five bytes of a command word decode. -/
theorem eq_bytesOfNat_of_decode {bs : List Byte} {i : Instr} (h : decode bs = .ok i) :
    ∃ w : CommandWord, bs = bytesOfNat 5 w.toNat ∧ i = decodePorts (portsOfWord w) := by
  unfold decode at h
  split at h
  · next b0 b1 b2 b3 b4 =>
    split at h
    · next htop =>
      cases h
      refine ⟨_, ?_, rfl⟩
      have hlt : (b4 ++ b3 ++ b2 ++ b1 ++ b0 : BitVec 40).toNat < 2 ^ 34 := by
        simp only [Machine.toNat_append_add]
        omega
      rw [BitVec.toNat_setWidth, Nat.mod_eq_of_lt hlt]
      exact (bytesOfNat_five_append b0 b1 b2 b3 b4).symm
    · cases h
  · cases h

/-! ### Encoding and decoding -/

/-- The three instructions that a control word selects (R80, R82). -/
def IsCommand (i : Instr) : Prop := i = .reset ∨ i = .idle ∨ ∃ w, i = .pushSample w

theorem isCommand_decodePorts (p : Ports) : IsCommand (decodePorts p) := by
  rcases Machine.decodePorts_cases p with h | h | h
  · exact .inl h
  · exact .inr (.inr ⟨_, h⟩)
  · exact .inr (.inl h)

/-- Only ports without `rst` and with `sample_valid` push, and they push their sample (R82, R83). -/
theorem eq_of_decodePorts_eq_pushSample {p : Ports} {w : SampleWord} (h : decodePorts p = .pushSample w) :
    p = { rst := false, sampleValid := true, sampleIn := w } := by
  obtain ⟨r, v, x⟩ := p
  rw [decodePorts_eq] at h
  cases r <;> cases v <;> cases h
  rfl

/-- The ports that present a command decode to it. -/
theorem exists_ports_of_isCommand {i : Instr} (h : IsCommand i) : ∃ p, encodePorts i = some p ∧ decodePorts p = i := by
  rcases h with rfl | rfl | ⟨w, rfl⟩
  · exact ⟨_, rfl, Laws.RoundTrip.reset _ rfl⟩
  · exact ⟨_, rfl, Laws.RoundTrip.idle _ rfl⟩
  · exact ⟨_, rfl, Laws.RoundTrip.pushSample w _ rfl⟩

theorem encodePorts_of_not_isCommand {i : Instr} (h : ¬ IsCommand i) : encodePorts i = none := by
  cases i
  case reset => exact absurd (.inl rfl) h
  case idle => exact absurd (.inr (.inl rfl)) h
  case pushSample w => exact absurd (.inr (.inr ⟨w, rfl⟩)) h
  all_goals rfl

theorem encode_of_encodePorts {i : Instr} {p : Ports} (h : encodePorts i = some p) :
    encode i = some (bytesOfNat 5 (wordOfPorts p).toNat) := by
  rw [encode, h, Option.map_some]

theorem encode_of_not_isCommand {i : Instr} (h : ¬ IsCommand i) : encode i = none := by
  rw [encode, encodePorts_of_not_isCommand h, Option.map_none]

/-- The bytes of a command decode to it. -/
theorem decode_encode {i : Instr} (h : IsCommand i) : ∃ bs, encode i = some bs ∧ decode bs = .ok i := by
  obtain ⟨p, hp, hi⟩ := exists_ports_of_isCommand h
  refine ⟨_, encode_of_encodePorts hp, ?_⟩
  rw [decode_bytesOfNat, portsOfWord_wordOfPorts, hi]

theorem isCommand_of_decode {bs : List Byte} {i : Instr} (h : decode bs = .ok i) : IsCommand i := by
  obtain ⟨w, _, rfl⟩ := eq_bytesOfNat_of_decode h
  exact isCommand_decodePorts _

/-- A push ignores no bit of its word, so its bytes are its encoding. -/
theorem encode_pushSample_of_decode {bs : List Byte} {w : SampleWord} (h : decode bs = .ok (.pushSample w)) :
    encode (.pushSample w) = some bs := by
  obtain ⟨v, rfl, hv⟩ := eq_bytesOfNat_of_decode h
  have hports := eq_of_decodePorts_eq_pushSample hv.symm
  have hp : encodePorts (.pushSample w) = some (portsOfWord v) := by rw [hports]; rfl
  rw [encode_of_encodePorts hp, wordOfPorts_portsOfWord]

/-- Settles O3: ports and command word are in bijection, and so are the command word and its five bytes. -/
theorem encodedCommandsDecodeBack : Obligations.EncodedCommandsDecodeBack :=
  ⟨fun _ => ⟨decode_encode, encode_of_not_isCommand⟩, fun _ _ h => decode_encode (isCommand_of_decode h),
    fun _ _ => encode_pushSample_of_decode⟩

/-! ### Words written out -/

/-- Settles O2: eight closed words, each evaluated by the decoder. -/
theorem writtenOutWordsDecode : Obligations.WrittenOutWordsDecode := by
  unfold Obligations.WrittenOutWordsDecode
  decide

end Sys2Proof
end

section
/-! Polarity (30_encoding.md R87): exchanging the levels of a state and of its samples commutes with steps 2 to 5 of
BSM.STEP. -/

namespace Sys2Proof.Machine

/-- The result of an operation and the state it leaves, both seen with inverted polarity. -/
def flipResult (r : BitResult × State) : BitResult × State := ({ r.1 with level := flipLevel r.1.level }, flipState r.2)

@[simp] theorem flipLevel_flipLevel (l : Level) : flipLevel (flipLevel l) = l := by cases l <;> rfl

@[simp] theorem flipLevel_inj {a b : Level} : flipLevel a = flipLevel b ↔ a = b :=
  (Function.LeftInverse.injective flipLevel_flipLevel).eq_iff

@[simp] theorem flipLevel_eq_unknown {l : Level} : flipLevel l = .unknown ↔ l = .unknown := flipLevel_inj (b := .unknown)

@[simp] theorem otherWave_level (v : Wave) : (otherWave v).level = flipLevel v.level := by cases v <;> rfl

/-- A change is a change in either polarity (R182). -/
theorem levelChanged_flip (last level : Level) : levelChanged (flipLevel last) (flipLevel level) = levelChanged last level := by
  simp only [levelChanged, ne_eq, flipLevel_eq_unknown, flipLevel_inj]

@[simp] theorem flipState_zdLevel (s : State) : (flipState s).zdLevel = flipLevel s.zdLevel := rfl

@[simp] theorem flipState_lastLevel (s : State) : (flipState s).lastLevel = flipLevel s.lastLevel := rfl

/-- ZD.STEP compares levels only with each other and with `Unknown` (R165). -/
theorem zdStep_flip (v : Wave) (s : State) :
    zdStep (otherWave v) (flipState s) = ((zdStep v s).1, flipState (zdStep v s).2) := by
  have hfirst : (flipState s).zdLevel = .unknown ↔ s.zdLevel = .unknown := by simp
  have hsame : (otherWave v).level = (flipState s).zdLevel ↔ v.level = s.zdLevel := by simp
  rcases zdStep_cases v s with h | ⟨h, hc⟩ | ⟨h, hr⟩ | ⟨h, hr⟩
  · rw [zdStep_first h, zdStep_first (hfirst.2 h), otherWave_level]; rfl
  · rw [zdStep_change h hc, zdStep_change (mt hfirst.1 h) (mt hsame.1 hc), otherWave_level]; rfl
  · rw [zdStep_restart h hr, zdStep_restart (s := flipState s) (hsame.2 h.symm).symm hr]; rfl
  · rw [zdStep_steady h hr, zdStep_steady (s := flipState s) (hsame.2 h.symm).symm hr]; rfl

/-- INVALIDATE leaves `Unknown` in both levels, which has no polarity. -/
theorem invalidate_flip (s : State) : invalidate (flipState s) = flipState (invalidate s) := rfl

theorem noBit_otherWave (v : Wave) : noBit (otherWave v) = { noBit v with level := flipLevel (noBit v).level } := by
  rw [noBit, otherWave_level]
  rfl

theorem bsmResolve_flip (ev : Event) (c : Bool) (v : Wave) (s : State) :
    bsmResolve ev c (otherWave v) (flipState s) = flipResult (bsmResolve ev c v s) := by
  cases ev with
  | overdue => simp only [bsmResolve, raiseInvalidate, otherWave_level, invalidate_flip, flipResult]
  | mustBeSteady =>
    cases c with
    | true => simp only [bsmResolve, if_true, raiseInvalidate, otherWave_level, invalidate_flip, flipResult]
    | false => exact congrArg (Prod.mk · (flipState s)) (noBit_otherWave v)
  | canChangeInMiddle => exact congrArg (Prod.mk · _) (noBit_otherWave v)
  | canChangeInEnd =>
    cases c with
    | true => simp only [bsmResolve, if_true, otherWave_level, flipResult]; rfl
    | false => exact congrArg (Prod.mk · (flipState s)) (noBit_otherWave v)

theorem bsmTrack_flip (v : Wave) (s : State) : bsmTrack (otherWave v) (flipState s) = flipResult (bsmTrack v s) := by
  rw [bsmTrack_eq, bsmTrack_eq, ← bsmResolve_flip, flipState_lastLevel, otherWave_level, levelChanged_flip]
  rfl

theorem bsmClassified_flip (v : Wave) (s : State) :
    bsmClassified (otherWave v) (flipState s) = flipResult (bsmClassified v s) := by
  rcases Bool.eq_false_or_eq_true s.locked with hl | hl
  · rw [bsmClassified_locked hl, bsmClassified_locked (s := flipState s) hl, bsmTrack_flip]
  · have hz := zdStep_flip v s
    rcases Bool.eq_false_or_eq_true (zdStep v s).1 with hlock | hlock
    · rw [bsmClassified_lock hl hlock, bsmClassified_lock (s := flipState s) hl (by rw [hz]; exact hlock), hz]
      exact bsmTrack_flip v (lockOn (zdStep v s).2)
    · rw [bsmClassified_search hl hlock, bsmClassified_search (s := flipState s) hl (by rw [hz]; exact hlock), hz,
        noBit_otherWave]
      rfl

/-- Settles O32, by induction on the samples: the first one by `bsmClassified_flip`, whose state the others start from. -/
theorem polarityDoesNotMatter : Obligations.PolarityDoesNotMatter := by
  intro vs
  induction vs with
  | nil => exact fun s => ⟨rfl, rfl⟩
  | cons v vs ih =>
    intro s
    obtain ⟨hbits, hstate⟩ := ih (bsmClassified v s).2
    simp only [List.map_cons, classifiedRun, bsmClassified_flip, flipResult]
    exact ⟨by rw [hbits], hstate⟩

end Sys2Proof.Machine
end

section
/-! The phases (10_state.md R30; 40_commands.md R127): which phase each operation of a push leads to, and what is reported on
the way. -/

namespace Sys2Proof.Machine

/-! ### The phase of a state -/

theorem phase_eq_locked_iff (s : State) : phase s = .locked ↔ s.locked = true := by
  unfold phase
  cases s.locked <;> cases s.calValid <;> simp

theorem phase_eq_searching_iff (s : State) : phase s = .searching ↔ s.locked = false ∧ s.calValid = true := by
  unfold phase
  cases s.locked <;> cases s.calValid <;> simp

theorem phase_eq_calibrating_iff (s : State) : phase s = .calibrating ↔ s.locked = false ∧ s.calValid = false := by
  unfold phase
  cases s.locked <;> cases s.calValid <;> simp

theorem invalidate_phase (s : State) : phase (invalidate s) = .calibrating := rfl

/-! ### CAL.PUSH -/

/-- Of the phase's two registers CAL.PUSH writes `cal_valid` only. -/
theorem calPush_locked (x : Int) (s : State) : (calPush x s).2.locked = s.locked :=
  (congrArg State.locked (calPush_frame x s) :)

theorem calPush_zdLevel (x : Int) (s : State) : (calPush x s).2.zdLevel = s.zdLevel :=
  (congrArg State.zdLevel (calPush_frame x s) :)

/-- The 255th push always calibrates: the samples are in range, so the bounds and the threshold are (D34). -/
theorem calPush_calValid_of_wrap {x : Int} {s : State} (h : RingInv s) (hx : s.cfg.smin ≤ x ∧ x ≤ s.cfg.smax)
    (hc : s.calCount + 1 = 255) : (calPush x s).2.calValid = true := by
  have hr := calStore_ringInv h hx
  rw [calPush_wrap hc, calRecompute_calValid_iff]
  exact calRecompute_bounds ⟨hr.cfg_wf, hr.mem_wf, hr.cursor_lt, hr.ring⟩

/-- No push undoes a calibration. -/
theorem calPush_keeps_calValid {x : Int} {s : State} (h : RingInv s) (hx : s.cfg.smin ≤ x ∧ x ≤ s.cfg.smax)
    (hv : s.calValid = true) : (calPush x s).2.calValid = true := by
  by_cases hc : s.calCount + 1 = 255
  · exact calPush_calValid_of_wrap h hx hc
  · rw [calPush_count hc, calStore_calValid, hv]

/-! ### BSM.STEP -/

/-- On a calibrated block every sample has a level. -/
theorem bsmStep_of_calValid {x : Int} {s : State} (hv : (calPush x s).2.calValid = true) :
    ∃ v, bsmStep x s = bsmClassified v (calPush x s).2 := by
  rcases level_cases (calPush x s).1 with hl | ⟨v, hl⟩
  · rw [calPush_level, calClassify_unknown_iff, hv] at hl
    cases hl
  · exact ⟨v, bsmStep_classified hl⟩

theorem bsmStep_of_not_calValid {x : Int} {s : State} (hv : (calPush x s).2.calValid = false) :
    (bsmStep x s).2 = (calPush x s).2 := by
  rw [bsmStep_unknown ((calClassify_unknown_iff x _).2 hv)]

/-- Where a push on a locked block may lead, and with which report (R184, R291). -/
def LockedOutcome (r : BitResult × State) : Prop :=
  (phase r.2 = .calibrating ∧ (r.1.anomaly = .illegal ∨ r.1.anomaly = .overdue)) ∨
    (phase r.2 = .locked ∧ r.1.anomaly = .none)

/-- Steps 3 to 5 of BSM.STEP report an anomaly exactly where they invalidate. -/
theorem bsmTrack_lockedOutcome (v : Wave) {s : State} (hl : s.locked = true) : LockedOutcome (bsmTrack v s) := by
  rw [bsmTrack_eq]
  rcases bsmResolve_cases (bsmExpect s.cfg.thr (s.bitCount + 1) s.midSeen) (levelChanged s.lastLevel v.level) v
    { s with bitCount := s.bitCount + 1, lastLevel := v.level } with ⟨e, _⟩ | ⟨e, _⟩ | ⟨e, _⟩ | ⟨e, _⟩ <;> rw [e]
  · exact .inl ⟨invalidate_phase _, .inr rfl⟩
  · exact .inl ⟨invalidate_phase _, .inl rfl⟩
  · exact .inr ⟨(phase_eq_locked_iff _).2 hl, rfl⟩
  · exact .inr ⟨(phase_eq_locked_iff _).2 hl, rfl⟩

/-- Without a change, and within `max_bit`, steps 3 to 5 of BSM.STEP do not invalidate (R183, R184). -/
theorem bsmTrack_locked_of_steady {v : Wave} {s : State} (hord : s.cfg.thr.ordered = true)
    (hn : s.bitCount + 1 ≤ s.cfg.thr.maxBit) (hc : levelChanged s.lastLevel v.level = false) :
    (bsmTrack v s).2.locked = s.locked := by
  rw [bsmTrack_eq]
  rcases bsmResolve_cases (bsmExpect s.cfg.thr (s.bitCount + 1) s.midSeen) (levelChanged s.lastLevel v.level) v
    { s with bitCount := s.bitCount + 1, lastLevel := v.level } with ⟨_, hev⟩ | ⟨_, _, hch⟩ | ⟨e, _⟩ | ⟨e, _⟩
  · exact absurd hn (Nat.not_le.2 ((bsmExpect_overdue_iff hord _ _).1 hev))
  · rw [hc] at hch; cases hch
  · rw [e]
  · rw [e]

/-- The sample that locks is counted as number 1 and no level is recorded before it, so it does not invalidate (R181). -/
theorem bsmTrack_lockOn_locked (v : Wave) {s : State} (hwf : s.cfg.wf = true) :
    (bsmTrack v (lockOn s)).2.locked = true := by
  have hthr := wf_ordered hwf
  have hone : (lockOn s).bitCount + 1 ≤ s.cfg.thr.maxBit := by rw [lockOn_bitCount]; omega
  exact bsmTrack_locked_of_steady ((wf_iff _).1 hwf).2.2 hone rfl

/-- A searching block stays or locks. -/
theorem bsmClassified_phase_of_searching (v : Wave) {s : State} (hwf : s.cfg.wf = true) (h : phase s = .searching) :
    phase (bsmClassified v s).2 = .searching ∨ phase (bsmClassified v s).2 = .locked := by
  obtain ⟨hl, hv⟩ := (phase_eq_searching_iff s).1 h
  have hz := zdStep_frame v s
  rcases Bool.eq_false_or_eq_true (zdStep v s).1 with hlock | hlock
  · rw [bsmClassified_lock hl hlock, hz]
    exact .inr ((phase_eq_locked_iff _).2 (bsmTrack_lockOn_locked v hwf))
  · rw [bsmClassified_search hl hlock, hz]
    exact .inl ((phase_eq_searching_iff _).2 ⟨hl, hv⟩)

/-- The first classified sample locks nothing: the zero detector has no level to compare with (R165). -/
theorem bsmClassified_phase_of_first (v : Wave) {s : State} (h : phase s = .searching) (hz : s.zdLevel = .unknown) :
    phase (bsmClassified v s).2 = .searching := by
  obtain ⟨hl, hv⟩ := (phase_eq_searching_iff s).1 h
  rw [bsmClassified_search hl (by rw [zdStep_first hz]), zdStep_first hz]
  exact (phase_eq_searching_iff _).2 ⟨hl, hv⟩

/-- The row of R127 for a calibrating block. -/
theorem bsmStep_phase_of_calibrating {x : Int} {s : State} (h : Inv s) (hx : s.cfg.smin ≤ x ∧ x ≤ s.cfg.smax)
    (hp : phase s = .calibrating) :
    (s.calCount + 1 = 255 → phase (bsmStep x s).2 = .searching) ∧
      (s.calCount + 1 < 255 → phase (bsmStep x s).2 = .calibrating) := by
  obtain ⟨hl, hv⟩ := (phase_eq_calibrating_iff s).1 hp
  have hl' : (calPush x s).2.locked = false := (calPush_locked x s).trans hl
  constructor
  · intro hc
    have hv' := calPush_calValid_of_wrap h.toCalInv.toRingInv hx hc
    have hz' : (calPush x s).2.zdLevel = .unknown := (calPush_zdLevel x s).trans (h.calibrating hv).2.1
    obtain ⟨v, e⟩ := bsmStep_of_calValid hv'
    rw [e]
    exact bsmClassified_phase_of_first v ((phase_eq_searching_iff _).2 ⟨hl', hv'⟩) hz'
  · intro hc
    have hv' : (calPush x s).2.calValid = false := by rw [calPush_count (Nat.ne_of_lt hc), calStore_calValid, hv]
    rw [bsmStep_of_not_calValid hv']
    exact (phase_eq_calibrating_iff _).2 ⟨hl', hv'⟩

/-- The row of R127 for a searching block. -/
theorem bsmStep_phase_of_searching {x : Int} {s : State} (h : Inv s) (hx : s.cfg.smin ≤ x ∧ x ≤ s.cfg.smax)
    (hp : phase s = .searching) : phase (bsmStep x s).2 = .searching ∨ phase (bsmStep x s).2 = .locked := by
  obtain ⟨hl, hv⟩ := (phase_eq_searching_iff s).1 hp
  have hv' := calPush_keeps_calValid h.toCalInv.toRingInv hx hv
  obtain ⟨v, e⟩ := bsmStep_of_calValid hv'
  rw [e]
  exact bsmClassified_phase_of_searching v (calPush_inv h hx).cfg_wf
    ((phase_eq_searching_iff _).2 ⟨(calPush_locked x s).trans hl, hv'⟩)

/-- The row of R127 for a locked block. -/
theorem bsmStep_phase_of_locked {x : Int} {s : State} (h : Inv s) (hx : s.cfg.smin ≤ x ∧ x ≤ s.cfg.smax)
    (hp : phase s = .locked) : LockedOutcome (bsmStep x s) := by
  have hl := (phase_eq_locked_iff s).1 hp
  have hl' : (calPush x s).2.locked = true := (calPush_locked x s).trans hl
  obtain ⟨v, e⟩ := bsmStep_of_calValid (calPush_keeps_calValid h.toCalInv.toRingInv hx (h.calValid_of_locked hl))
  rw [e, bsmClassified_locked hl']
  exact bsmTrack_lockedOutcome v hl'

/-! ### PUSH_SAMPLE -/

/-- FA.SAMPLE_RECEIVED counts a sample only. -/
theorem faSampleReceived_phase (s : State) : phase (faSampleReceived s) = phase s := rfl

/-- The assembler does not take part in the phases. -/
theorem pushSample_phase (x : Int) (s : State) : phase (pushSample x s) = phase (bsmStep x (faSampleReceived s)).2 :=
  (congrArg phase (assemble_frame (bsmStep x (faSampleReceived s)).1.bit (bsmStep x (faSampleReceived s)).2) :)

theorem pushSample_anomaly (x : Int) (s : State) :
    (pushSample x s).out.anomaly = (bsmStep x (faSampleReceived s)).1.anomaly := rfl

/-- Settles O48, row by row of the table: a push's phase is that of its BSM.STEP, which starts in the phase of `s`. -/
theorem phaseTransitions : Obligations.PhaseTransitions := by
  intro s h
  refine ⟨⟨_, rfl, rfl⟩, ⟨_, rfl, rfl⟩, fun w => ⟨_, exec_pushSample w h.cursor_lt, ?_⟩⟩
  have hfa := h.faSampleReceived
  have hx := sampleInt_mem_range h.cfg_wf w
  rw [pushSample_phase, pushSample_anomaly, ← faSampleReceived_phase s, ← faSampleReceived_calCount s]
  exact ⟨bsmStep_phase_of_calibrating hfa hx, bsmStep_phase_of_searching hfa hx, bsmStep_phase_of_locked hfa hx⟩

end Sys2Proof.Machine
end

section
/-! The commands (40_commands.md R120 to R122, R126): what they write, and that no operation reads the model's own records
`out` and `ret` (logs 3 and 4). -/

namespace Sys2Proof.Machine

/-! ### RESET (R120) -/

/-- Settles O7: RESET has no case distinction, and `rst` alone selects it. -/
theorem resetErasesEveryState : Obligations.ResetErasesEveryState := by
  refine ⟨fun _ => rfl, fun _ => rfl, fun v w => ?_⟩
  rw [decodePorts_eq]
  rfl

/-! ### INVALIDATE (R126) -/

/-- Operations that complete and commute pairwise may run in any order. -/
theorem execAll_perm {parts l m : List Instr} (p : l.Perm m) (hl : l ⊆ parts)
    (comm : ∀ i ∈ parts, ∀ j ∈ parts, ∀ s, ∃ t, execAll [i, j] s = .next t ∧ execAll [j, i] s = .next t) (s : State) :
    execAll l s = execAll m s := by
  induction p generalizing s with
  | nil => rfl
  | cons i _ ih =>
    have ih := ih (List.subset_of_cons_subset hl)
    simp only [execAll, ih]
  | swap i j l =>
    obtain ⟨hj, hi, _⟩ : j ∈ parts ∧ i ∈ parts ∧ l ⊆ parts := by simpa using hl
    obtain ⟨t, hji, hij⟩ := comm j hj i hi s
    exact (execAll_append hji).trans (execAll_append hij).symm
  | trans p _ ih₁ ih₂ => exact (ih₁ hl s).trans (ih₂ (fun _ hi => hl (p.mem_iff.2 hi)) s)

/-- The three component invalidations, in the order of R126. -/
def invalidationParts : List Instr := [.calInvalidate, .bsmInvalidate, .faInvalidate]

theorem execAll_invalidationParts (s : State) : execAll invalidationParts s = exec .invalidate s := rfl

/-- "The three parts touch disjoint state" (R126). -/
theorem invalidationParts_comm : ∀ i ∈ invalidationParts, ∀ j ∈ invalidationParts, ∀ s,
    ∃ t, execAll [i, j] s = .next t ∧ execAll [j, i] s = .next t := by
  intro i hi j hj s
  simp only [invalidationParts, List.mem_cons, List.not_mem_nil, or_false] at hi hj
  rcases hi with rfl | rfl | rfl <;> rcases hj with rfl | rfl | rfl <;> exact ⟨_, rfl, rfl⟩

/-- Settles O12: any order runs as the rule's order, since the parts commute pairwise. -/
theorem invalidateIsTheUnionOfItsParts : Obligations.InvalidateIsTheUnionOfItsParts := fun s =>
  ⟨rfl, fun _ hl => (execAll_perm hl hl.subset invalidationParts_comm s).trans (execAll_invalidationParts s)⟩

/-! ### What a push reports -/

theorem bsmResolve_report (ev : Event) (c : Bool) (v : Wave) (s : State) :
    (bsmResolve ev c v s).1.anomaly ≠ .cal ∧
      ((bsmResolve ev c v s).1.bit.isSome = true → (bsmResolve ev c v s).1.anomaly = .none) := by
  rcases bsmResolve_cases ev c v s with ⟨e, _⟩ | ⟨e, _⟩ | ⟨e, _⟩ | ⟨e, _⟩ <;> simp [e, noBit]

/-- A classified sample is not reported as `A_CAL`, and a bit comes without anomaly. -/
theorem bsmClassified_report (v : Wave) (s : State) :
    (bsmClassified v s).1.anomaly ≠ .cal ∧
      ((bsmClassified v s).1.bit.isSome = true → (bsmClassified v s).1.anomaly = .none) := by
  rcases Bool.eq_false_or_eq_true s.locked with hl | hl
  · rw [bsmClassified_locked hl, bsmTrack_eq]
    exact bsmResolve_report ..
  · rcases Bool.eq_false_or_eq_true (zdStep v s).1 with hlock | hlock
    · rw [bsmClassified_lock hl hlock, bsmTrack_eq]
      exact bsmResolve_report ..
    · simp [bsmClassified_search hl hlock, noBit]

/-- What BSM.STEP may return (R180, R293, R297 (c)): `A_CAL` exactly on an unclassified sample, which gives no bit; a bit
only without anomaly. -/
structure BitResult.Consistent (r : BitResult) : Prop where
  cal_iff : r.anomaly = .cal ↔ r.level = .unknown
  bit_anomaly : r.bit.isSome = true → r.anomaly = .none
  unknown_bit : r.level = .unknown → r.bit = none

theorem bsmStep_consistent (x : Int) (s : State) : (bsmStep x s).1.Consistent := by
  rcases level_cases (calPush x s).1 with hl | ⟨v, hl⟩
  · rw [bsmStep_unknown hl]
    exact ⟨iff_of_true rfl rfl, nofun, fun _ => rfl⟩
  · have hknown : (bsmStep x s).1.level ≠ .unknown := by
      rw [bsmStep_level, hl]
      exact wave_level_ne_unknown v
    obtain ⟨hcal, hbit⟩ : (bsmStep x s).1.anomaly ≠ .cal ∧ _ := bsmStep_classified hl ▸ bsmClassified_report v _
    exact ⟨iff_of_false hcal hknown, hbit, fun hu => absurd hu hknown⟩

/-- A frame is polled for only when a bit was decoded (D16). -/
theorem assemble_frame_bit {b : Option Bool} {s : State} (h : (assemble b s).1.isSome = true) : b.isSome = true := by
  cases b with
  | none => cases h
  | some b => rfl

theorem pushSample_frame_bit {x : Int} {s : State} (h : (pushSample x s).out.frame.isSome = true) :
    (pushSample x s).out.bit.isSome = true := by
  simp only [pushSample, setOut_out, Option.isSome_map] at h ⊢
  exact assemble_frame_bit h

/-- The assembler leaves the lock of BSM.STEP. -/
theorem pushSample_locked (x : Int) (s : State) : (pushSample x s).locked = (bsmStep x (faSampleReceived s)).2.locked :=
  (congrArg State.locked (assemble_frame (bsmStep x (faSampleReceived s)).1.bit (bsmStep x (faSampleReceived s)).2) :)

/-- Settles O10: the reports are those of BSM.STEP, and the frame follows the bit. -/
theorem pushOutputsAreConsistent : Obligations.PushOutputsAreConsistent := by
  intro s w hc
  refine ⟨_, exec_pushSample w hc, pushSample_frame_bit, ?_⟩
  generalize sampleInt s.cfg w = x
  obtain ⟨hcal, hanomaly, hunknown⟩ := bsmStep_consistent x (faSampleReceived s)
  refine ⟨fun hb => ⟨hanomaly hb, ?_⟩, hcal, fun hu => ?_⟩
  · exact (pushSample_locked x s).trans (bsmStep_bit_locked hb)
  · have hbit : (pushSample x s).out.bit = none := hunknown hu
    exact ⟨hbit, Option.not_isSome_iff_eq_none.1 (mt pushSample_frame_bit (by simp [hbit]))⟩

/-! ### No operation of a push reads `out` or `ret` -/

/-- `s` with other records of the last command's outputs and the last operation's result. -/
def withRecords (o : Out) (r : Ret) (s : State) : State := { s with out := o, ret := r }

/-- The result of an operation, with other records in the state it leaves. -/
def resultWithRecords {α : Type} (o : Out) (r : Ret) (p : α × State) : α × State := (p.1, withRecords o r p.2)

theorem calPush_withRecords (x : Int) (o : Out) (r : Ret) (s : State) :
    calPush x (withRecords o r s) = resultWithRecords o r (calPush x s) := by
  have hstate : (calPush x (withRecords o r s)).2 = withRecords o r (calPush x s).2 := by
    by_cases hc : s.calCount + 1 = 255
    · rw [calPush_wrap hc, calPush_wrap (s := withRecords o r s) hc]; rfl
    · rw [calPush_count hc, calPush_count (s := withRecords o r s) hc]; rfl
  exact Prod.ext (congrArg (calClassify x) hstate :) hstate

theorem zdStep_withRecords (v : Wave) (o : Out) (r : Ret) (s : State) :
    zdStep v (withRecords o r s) = resultWithRecords o r (zdStep v s) := by
  rcases zdStep_cases v s with h | ⟨h, hc⟩ | ⟨h, hr⟩ | ⟨h, hr⟩
  · rw [zdStep_first h, zdStep_first (s := withRecords o r s) h]; rfl
  · rw [zdStep_change h hc, zdStep_change (s := withRecords o r s) h hc]; rfl
  · rw [zdStep_restart h hr, zdStep_restart (s := withRecords o r s) h hr]; rfl
  · rw [zdStep_steady h hr, zdStep_steady (s := withRecords o r s) h hr]; rfl

theorem bsmResolve_withRecords (ev : Event) (c : Bool) (v : Wave) (o : Out) (r : Ret) (s : State) :
    bsmResolve ev c v (withRecords o r s) = resultWithRecords o r (bsmResolve ev c v s) := by
  cases ev <;> cases c <;> rfl

theorem bsmTrack_withRecords (v : Wave) (o : Out) (r : Ret) (s : State) :
    bsmTrack v (withRecords o r s) = resultWithRecords o r (bsmTrack v s) :=
  bsmResolve_withRecords _ _ v o r { s with bitCount := s.bitCount + 1, lastLevel := v.level }

theorem bsmClassified_withRecords (v : Wave) (o : Out) (r : Ret) (s : State) :
    bsmClassified v (withRecords o r s) = resultWithRecords o r (bsmClassified v s) := by
  rcases Bool.eq_false_or_eq_true s.locked with hl | hl
  · rw [bsmClassified_locked hl, bsmClassified_locked (s := withRecords o r s) hl, bsmTrack_withRecords]
  · have hz := zdStep_withRecords v o r s
    rcases Bool.eq_false_or_eq_true (zdStep v s).1 with hlock | hlock
    · rw [bsmClassified_lock hl hlock, bsmClassified_lock (s := withRecords o r s) hl (by rw [hz]; exact hlock), hz]
      exact bsmTrack_withRecords v o r (lockOn (zdStep v s).2)
    · rw [bsmClassified_search hl hlock, bsmClassified_search (s := withRecords o r s) hl (by rw [hz]; exact hlock), hz]
      rfl

theorem bsmStep_withRecords (x : Int) (o : Out) (r : Ret) (s : State) :
    bsmStep x (withRecords o r s) = resultWithRecords o r (bsmStep x s) := by
  have hc := calPush_withRecords x o r s
  rcases level_cases (calPush x s).1 with hl | ⟨v, hl⟩
  · rw [bsmStep_unknown hl, bsmStep_unknown (by rw [hc]; exact hl), hc]; rfl
  · rw [bsmStep_classified hl, bsmStep_classified (by rw [hc]; exact hl), hc]
    exact bsmClassified_withRecords v o r _

/-- A push writes its outputs over those of the last command. -/
theorem pushSample_setOut (x : Int) (o : Out) (s : State) : pushSample x (setOut o s) = pushSample x s := by
  obtain ⟨-, -, -, hret⟩ := bsmStep_setting x (faSampleReceived s)
  have e : bsmStep x (faSampleReceived (setOut o s)) = resultWithRecords o s.ret (bsmStep x (faSampleReceived s)) :=
    bsmStep_withRecords x o s.ret (faSampleReceived s)
  rw [pushSample_eq, pushSample_eq, e, ← faSampleReceived_ret, ← hret]
  obtain ⟨⟨level, bit, anomaly⟩, u⟩ := bsmStep x (faSampleReceived s)
  cases bit <;> rfl

/-! ### IDLE (R122) -/

theorem run_one (s : State) : Host.Core.run core 1 s = step s := by
  have h : core.step s = step s := rfl
  simp only [Host.Core.run, h]
  cases step s <;> rfl

/-- A push writes over the outputs that an IDLE step leaves. -/
theorem step_push_setOut {s : State} {w : SampleWord} (h : s.cfg.wf = true) (hs : s.stimulus = pushes [w]) (o : Out) :
    step (setOut o s) = step s := by
  rw [step_push h hs, step_push (s := setOut o s) h hs]
  exact congrArg (writesRing s) (pushSample_setOut _ o { s with stimulus := [] })

/-- `s` with `k` IDLE commands to come before its own. -/
def idlesBefore (k : Nat) (s : State) : State :=
  { s with stimulus := List.replicate k { rst := false, sampleValid := false, sampleIn := 0 } ++ s.stimulus }

theorem step_idlesBefore_succ (k : Nat) {s : State} (h : s.cfg.wf = true) :
    step (idlesBefore (k + 1) s) = .next (idlesBefore k (setOut Out.quiet s)) :=
  step_idle (s := idlesBefore (k + 1) s) h rfl

/-- The IDLE steps before a push are dropped one by one. -/
theorem run_idlesBefore_push (k : Nat) {s : State} {w : SampleWord} (h : s.cfg.wf = true) (hs : s.stimulus = pushes [w]) :
    Host.Core.run core (k + 1) (idlesBefore k s) = step s := by
  induction k generalizing s with
  | zero => exact run_one s
  | succ k ih =>
    rw [run_succ (step_idlesBefore_succ k h), ih (s := setOut Out.quiet s) h hs]
    exact step_push_setOut h hs Out.quiet

/-- Settles O8: IDLE writes its outputs only, and the push after any number of them is the push alone. -/
theorem idleLeavesNoTrace : Obligations.IdleLeavesNoTrace :=
  ⟨fun _ => rfl,
    fun s k w h => (run_idlesBefore_push k (s := { s with stimulus := pushes [w] }) h rfl).trans (run_one _).symm⟩

/-! ### PUSH_SAMPLE as a sequence (R121) -/

theorem assembleAndReport_no_bit {r : BitResult × State} (h : r.1.bit = none) :
    assembleAndReport r =
      setOut { level := r.1.level, bit := none, anomaly := r.1.anomaly, frame := none } r.2 := by
  simp only [assembleAndReport, h, assemble_none, Option.map_none]

theorem assembleAndReport_bit {r : BitResult × State} {b : Bool} (h : r.1.bit = some b) :
    assembleAndReport r =
      setOut { level := r.1.level, bit := some b, anomaly := r.1.anomaly
               frame := (faGetData (faShiftBit b r.2)).map fun f => tcBuild r.2.cfg f.payload f.sampleCount }
        (faShiftBit b r.2) := by
  simp only [assembleAndReport, h, assemble, faShiftBit_cfg]

/-- BSM.STEP does not see what the operation before it returned. -/
theorem exec_bsmStep_setRet (r : Ret) {s : State} (w : SampleWord) (h : s.histCursor < 255) :
    exec (.bsmStep w) (setRet r s) = exec (.bsmStep w) s := by
  have e : bsmStep (sampleInt s.cfg w) (setRet r s) = resultWithRecords s.out r (bsmStep (sampleInt s.cfg w) s) :=
    bsmStep_withRecords _ s.out r s
  obtain ⟨-, -, hout, -⟩ := bsmStep_setting (sampleInt s.cfg w) s
  rw [exec_bsmStep w h, exec_bsmStep (s := setRet r s) w h, setRet_cfg, e, ← hout]
  rfl

/-- Settles O9: BSM.STEP does not see what FA.SAMPLE_RECEIVED returned, and what follows it is `assembleAndReport`, with
no bit or with one. -/
theorem pushSampleIsItsSequence : Obligations.PushSampleIsItsSequence := by
  intro s w hc
  have hpush : exec (.pushSample w) s =
      .next (assembleAndReport (bsmStep (sampleInt s.cfg w) (faSampleReceived s))) := exec_pushSample w hc
  have hbsm := (exec_bsmStep_setRet .unit (s := faSampleReceived s) w hc).trans (exec_bsmStep w hc)
  obtain ⟨-, -, -, hret⟩ := bsmStep_setting (sampleInt s.cfg w) (faSampleReceived s)
  rw [faSampleReceived_cfg] at hbsm
  rw [faSampleReceived_ret] at hret
  generalize bsmStep (sampleInt s.cfg w) (faSampleReceived s) = p at hpush hbsm hret
  rw [hpush, ← hret]
  refine ⟨_, _, p.1, rfl, hbsm, rfl, fun hb => ?_, fun b hb => ⟨setRet .unit (faShiftBit b p.2),
    setRet (.rawFrame (faGetData (faShiftBit b p.2))) (faShiftBit b p.2), faGetData (faShiftBit b p.2), rfl, rfl, rfl, ?_, ?_⟩⟩
  · rw [assembleAndReport_no_bit hb]
    rfl
  · intro hg
    rw [assembleAndReport_bit hb, hg]
    rfl
  · intro f hg
    refine ⟨_, tcBuild p.2.cfg f.payload f.sampleCount, rfl, rfl, ?_⟩
    rw [assembleAndReport_bit hb, hg]
    rfl

end Sys2Proof.Machine
end

section
/-! The amplitude calibrator, operation by operation (41_calibrator.md R140 to R143; R166, R185, R213). -/

namespace Sys2Proof.Machine

/-- Settles O11: each part of the cascade is a record update. -/
theorem invalidationOfEachComponent : Obligations.InvalidationOfEachComponent := fun _ => ⟨rfl, rfl, rfl, rfl⟩

/-! ### CAL.CLASSIFY (R142) -/

theorem calClassify_high {x : Int} {s : State} (hv : s.calValid = true) (hx : s.calThr < x) : calClassify x s = .high := by
  simp [calClassify, hv, hx]

theorem calClassify_low {x : Int} {s : State} (hv : s.calValid = true) (hx : x ≤ s.calThr) : calClassify x s = .low := by
  simp [calClassify, hv, Int.not_lt.2 hx]

theorem exec_calClassify (w : SampleWord) (s : State) :
    exec (.calClassify w) s = .next { s with ret := .level (calClassify (sampleInt s.cfg w) s) } := rfl

/-- Settles O17: the three outcomes of CAL.CLASSIFY. -/
theorem classifyComparesWithTheThreshold : Obligations.ClassifyComparesWithTheThreshold := by
  intro s w
  rw [exec_calClassify]
  exact ⟨fun hv => by rw [(calClassify_unknown_iff _ s).2 hv], fun hv hx => by rw [calClassify_high hv hx],
    fun hv hx => by rw [calClassify_low hv hx]⟩

/-! ### CAL.RECOMPUTE (R141) -/

/-- The bounds are the extremes of `xs` and the threshold is the sum of their halves, truncated toward zero (R9; log 14). -/
structure WindowOf (xs : List Int) (s : State) : Prop where
  min_mem : s.calMin ∈ xs
  min_le : ∀ x ∈ xs, s.calMin ≤ x
  max_mem : s.calMax ∈ xs
  le_max : ∀ x ∈ xs, x ≤ s.calMax
  thr : s.calThr = tdiv s.calMin 2 + tdiv s.calMax 2

theorem calRecompute_windowOf (s : State) : WindowOf (ringContents s.hist) (calRecompute s) where
  min_mem := listMin_mem (ringContents_ne_nil _)
  min_le _ := listMin_le
  max_mem := listMax_mem (ringContents_ne_nil _)
  le_max _ := le_listMax
  thr := rfl

/-- The order of the samples does not count, nor how often one occurs. -/
theorem WindowOf.of_mem_iff {xs ys : List Int} {s : State} (h : WindowOf xs s) (e : ∀ v, v ∈ xs ↔ v ∈ ys) :
    WindowOf ys s where
  min_mem := (e _).1 h.min_mem
  min_le x hx := h.min_le x ((e x).2 hx)
  max_mem := (e _).1 h.max_mem
  le_max x hx := h.le_max x ((e x).2 hx)
  thr := h.thr

theorem WindowOf.boundsInRange {xs : List Int} {s : State} (h : WindowOf xs s) (hwf : s.cfg.wf = true)
    (hx : ∀ x ∈ xs, s.cfg.smin ≤ x ∧ x ≤ s.cfg.smax) : boundsInRange s := by
  have hmin := hx _ h.min_mem
  have hmax := hx _ h.max_mem
  refine ⟨hmin, hmax, ?_⟩
  rw [h.thr]
  exact tdiv_add_tdiv_mem_range (zero_mem_range hwf) hmin hmax

/-- Two halves truncated toward zero add up to at most one unit outside the bounds they come from (D34). -/
theorem tdiv_add_tdiv_within_one {a b : Int} (h : a ≤ b) : a - 1 ≤ tdiv a 2 + tdiv b 2 ∧ tdiv a 2 + tdiv b 2 ≤ b + 1 := by
  rw [tdiv_two_floor, tdiv_two_floor]
  split <;> split <;> omega

theorem calRecompute_calValid (s : State) :
    (calRecompute s).calValid = decide ((s.cfg.smin ≤ (calRecompute s).calMin ∧ (calRecompute s).calMin ≤ s.cfg.smax) ∧
      (s.cfg.smin ≤ (calRecompute s).calMax ∧ (calRecompute s).calMax ≤ s.cfg.smax) ∧
      (s.cfg.smin ≤ (calRecompute s).calThr ∧ (calRecompute s).calThr ≤ s.cfg.smax)) := by
  rw [Bool.eq_iff_iff, calRecompute_calValid_iff, decide_eq_true_iff]
  rfl

/-- Settles O15: the ring's extremes are those of its 255 reads. -/
theorem recomputeTakesTheExtremes : Obligations.RecomputeTakesTheExtremes := by
  intro s
  have h := calRecompute_windowOf s
  refine ⟨(calRecompute s).calMin, (calRecompute s).calMax, (calRecompute s).calThr, mem_ringContents.1 h.min_mem,
    fun i hi => h.min_le _ (mem_ringContents.2 ⟨i, hi, rfl⟩), mem_ringContents.1 h.max_mem,
    fun i hi => h.le_max _ (mem_ringContents.2 ⟨i, hi, rfl⟩), ?_, ?_⟩
  · rw [h.thr, tdiv_two, tdiv_two]
  · rw [← calRecompute_calValid]
    rfl

/-- Settles O16: the extremes are samples and in order, which is all `tdiv_add_tdiv_mem_range` and
`tdiv_add_tdiv_within_one` need. -/
theorem everyRecomputationIsValid : Obligations.EveryRecomputationIsValid := by
  intro s hwf hr
  have h := calRecompute_windowOf s
  have hb := h.boundsInRange hwf fun _ => mem_ringContents_range hr
  have hle : (calRecompute s).calMin ≤ (calRecompute s).calMax := h.min_le _ h.max_mem
  have hthr := tdiv_add_tdiv_within_one hle
  rw [← h.thr] at hthr
  exact ⟨_, rfl, (calRecompute_calValid_iff s).2 hb, hb, hle, hthr⟩

/-! ### CAL.PUSH (R140) -/

/-- Settles O14: the ring written at the cursor, then the two cases of the count, `calPush_count` and `calPush_wrap`. -/
theorem calPushStoresCountsAndClassifies : Obligations.CalPushStoresCountsAndClassifies := by
  intro s w hm hc
  refine ⟨memWrite s.hist s.histCursor (sampleInt s.cfg w), _, (calPush (sampleInt s.cfg w) s).1,
    memRead_memWrite hm _, memWrite_wf hm hc _, fun hn => ?_, fun hw => ⟨_, rfl, ?_⟩, ?_, exec_calPush w hc, ?_⟩
  · rw [calPush_count hn]
    rfl
  · rw [calPush_wrap hw]
    rfl
  · rw [calPush_frame]
    rfl
  · rw [exec_calClassify, calPush_level, calPush_frame]
    rfl

end Sys2Proof.Machine
end

section
/-! The calibration window (41_calibrator.md R140, R145, R146; 10_state.md R48): 255 samples pushed from `cal_count = 0`
fill the ring, wherever its cursor stood, and are all that the recomputation they end in reads. -/

namespace Sys2Proof.Machine

/-! ### The last samples of a ring -/

/-- The last `n` samples pushed, the youngest first. -/
def recentSamples (n : Nat) (s : State) : List Int := (List.range n).map (sampleAged s)

theorem recentSamples_pushed {n : Nat} {x : Int} {s t : State} (h : ringPushed x s t) (hm : Memory.wf s.hist = true)
    (hc : s.histCursor < 255) (hn : n < 255) : recentSamples (n + 1) t = x :: recentSamples n s := by
  rw [recentSamples, List.range_succ_eq_map, List.map_cons, List.map_map, recentSamples,
    sampleAged_pushed h hm hc (by decide), if_pos rfl]
  refine congrArg (x :: ·) (List.map_congr_left fun k hk => ?_)
  rw [List.mem_range] at hk
  exact sampleAged_pushed h hm hc (by omega)

theorem mem_ringContents_iff_recent {s : State} (hc : s.histCursor < 255) {v : Int} :
    v ∈ ringContents s.hist ↔ v ∈ recentSamples 255 s := by
  simp only [mem_ringContents_iff_aged hc, recentSamples, List.mem_map, List.mem_range]

/-! ### Counting samples -/

/-- `xs` are the samples counted since `cal_count` was 0 and the cursor stood at `c`, the oldest first: the ring holds them as
its last ones. -/
structure Counted (c : Nat) (xs : List Int) (s : State) : Prop where
  mem_wf : Memory.wf s.hist = true
  cursor : s.histCursor = (c + xs.length) % 255
  recent : recentSamples xs.length s = xs.reverse
  count : s.calCount = xs.length

theorem Counted.cursor_lt {c : Nat} {xs : List Int} {s : State} (h : Counted c xs s) : s.histCursor < 255 := by
  rw [h.cursor]; exact Nat.mod_lt _ (by decide)

theorem counted_nil {s : State} (hm : Memory.wf s.hist = true) (hc : s.histCursor < 255) (h0 : s.calCount = 0) :
    Counted s.histCursor [] s :=
  ⟨hm, (Nat.mod_eq_of_lt hc).symm, rfl, h0⟩

theorem Counted.calStore {c : Nat} {xs : List Int} {s : State} (h : Counted c xs s) (hn : xs.length < 255) (x : Int) :
    Counted c (xs ++ [x]) (calStore x s) where
  mem_wf := memWrite_wf h.mem_wf h.cursor_lt x
  cursor := by
    rw [calStore_histCursor, h.cursor, cursorNext, Nat.mod_add_mod, List.length_append, Nat.add_assoc,
      List.length_singleton]
  recent := by
    rw [List.length_append, List.length_singleton, List.reverse_concat, ← h.recent]
    exact recentSamples_pushed ⟨rfl, rfl⟩ h.mem_wf h.cursor_lt hn
  count := by rw [calStore_calCount, h.count, List.length_append, List.length_singleton]

/-- FA.SAMPLE_RECEIVED, with which a push begins, does not touch the calibrator. -/
theorem Counted.faSampleReceived {c : Nat} {xs : List Int} {s : State} (h : Counted c xs s) :
    Counted c xs (faSampleReceived s) := { h with }

/-! ### The push that completes a window -/

/-- 255 counted samples are all that the ring holds. -/
theorem Counted.mem_ringContents_iff {c : Nat} {xs : List Int} {s : State} (h : Counted c xs s) (hn : xs.length = 255)
    (v : Int) : v ∈ ringContents s.hist ↔ v ∈ xs := by
  rw [mem_ringContents_iff_recent h.cursor_lt, ← hn, h.recent, List.mem_reverse]

section

/-! 254 samples counted, and one more. -/

variable {c : Nat} {k : Config} {ws : List SampleWord} {s : State}
  (h : Counted c (ws.map (sampleInt k)) s) (hn : ws.length = 254)
include h hn

theorem Counted.count_eq_254 : s.calCount + 1 = 255 := by
  rw [h.count, List.length_map, hn]

/-- The 255th push recomputes over its window, and over nothing that the ring held before. -/
theorem Counted.calPush_windowOf (w : SampleWord) :
    WindowOf ((ws ++ [w]).map (sampleInt k)) (calPush (sampleInt k w) s).2 := by
  have hs := h.calStore (by rw [List.length_map]; omega) (sampleInt k w)
  rw [calPush_wrap (h.count_eq_254 hn), List.map_append]
  exact (calRecompute_windowOf { Machine.calStore (sampleInt k w) s with calCount := 0 }).of_mem_iff
    (hs.mem_ringContents_iff (by rw [List.length_append, List.length_map, hn]; rfl))

/-- The window is of samples, so it makes the threshold valid (D34). -/
theorem Counted.calPush_calValid (hk : s.cfg = k) (hwf : k.wf = true) (w : SampleWord) :
    (calPush (sampleInt k w) s).2.calValid = true := by
  have hw := h.calPush_windowOf hn w
  subst hk
  rw [calPush_wrap (h.count_eq_254 hn)] at hw ⊢
  refine (calRecompute_calValid_iff _).2 (hw.boundsInRange hwf fun x hx => ?_)
  obtain ⟨v, -, rfl⟩ := List.mem_map.1 hx
  exact sampleInt_mem_range hwf v

theorem Counted.calPush_calCount (w : SampleWord) : (calPush (sampleInt k w) s).2.calCount = 0 := by
  rw [Machine.calPush_calCount, if_pos (h.count_eq_254 hn)]

/-- 255 pushes take the cursor once around the ring. -/
theorem Counted.calPush_cursor (hc : c < 255) (w : SampleWord) : (calPush (sampleInt k w) s).2.histCursor = c := by
  have hs := (h.calStore (by rw [List.length_map]; omega) (sampleInt k w)).cursor
  rw [List.length_append, List.length_map, hn] at hs
  calc (calPush (sampleInt k w) s).2.histCursor
      = cursorNext s.histCursor := (congrArg State.histCursor (calPush_frame ..) :)
    _ = (c + 255) % 255 := hs
    _ = c := (Nat.add_mod_right ..).trans (Nat.mod_eq_of_lt hc)

end

/-- The window's bounds, said of the sample words. -/
theorem WindowOf.words {c : Config} {ws : List SampleWord} {s : State} (h : WindowOf (ws.map (sampleInt c)) s) :
    (∃ w ∈ ws, s.calMin = sampleInt c w) ∧ (∀ w ∈ ws, s.calMin ≤ sampleInt c w) ∧
      (∃ w ∈ ws, s.calMax = sampleInt c w) ∧ (∀ w ∈ ws, sampleInt c w ≤ s.calMax) := by
  obtain ⟨v, hv, hmin⟩ := List.mem_map.1 h.min_mem
  obtain ⟨w, hw, hmax⟩ := List.mem_map.1 h.max_mem
  exact ⟨⟨v, hv, hmin.symm⟩, fun _ hx => h.min_le _ (List.mem_map_of_mem hx), ⟨w, hw, hmax.symm⟩,
    fun _ hx => h.le_max _ (List.mem_map_of_mem hx)⟩

/-! ### CAL.PUSH run on its own -/

/-- What CAL.PUSH run on its own leaves as it is: the registers outside the calibrator, and not `ret` (log 4). -/
def calibratorErased (s : State) : State :=
  { s with hist := [], histCursor := 0, calCount := 0, calMin := 0, calMax := 0, calThr := 0, calValid := false, ret := .unit }

theorem calibratorErased_calPush (x : Int) (s : State) : calibratorErased (calPush x s).2 = calibratorErased s := by
  rw [calPush_frame]
  rfl

theorem eq_of_calibratorErased {s t : State} (h : calibratorErased t = calibratorErased s) :
    t = { s with hist := t.hist, histCursor := t.histCursor, calCount := t.calCount, calMin := t.calMin, calMax := t.calMax
                 calThr := t.calThr, calValid := t.calValid, ret := t.ret } :=
  congrArg (fun r : State => { r with
    hist := t.hist, histCursor := t.histCursor, calCount := t.calCount, calMin := t.calMin, calMax := t.calMax
    calThr := t.calThr, calValid := t.calValid, ret := t.ret }) h

/-- Short of the 255th push CAL.PUSH counts its samples. -/
theorem execAll_calPush_counted {c : Nat} {xs : List Int} {ws : List SampleWord} {s : State} (h : Counted c xs s)
    (hn : xs.length + ws.length < 255) :
    ∃ t, execAll (ws.map .calPush) s = .next t ∧ Counted c (xs ++ ws.map (sampleInt s.cfg)) t ∧
      calibratorErased t = calibratorErased s := by
  induction ws generalizing xs s with
  | nil => exact ⟨s, rfl, by rwa [List.map_nil, List.append_nil], rfl⟩
  | cons w ws ih =>
    rw [List.length_cons] at hn
    have hcount : s.calCount + 1 ≠ 255 := by rw [h.count]; omega
    have hs := h.calStore (by omega) (sampleInt s.cfg w)
    have hexec := exec_calPush w h.cursor_lt
    rw [calPush_count hcount] at hexec
    generalize (calPush (sampleInt s.cfg w) s).1 = l at hexec
    obtain ⟨t, ht, htc, herased⟩ := ih (s := setRet (.level l) (calStore (sampleInt s.cfg w) s)) { hs with }
      (by rw [List.length_append, List.length_singleton]; omega)
    rw [List.append_assoc, List.singleton_append] at htc
    refine ⟨t, ?_, htc, herased⟩
    rw [List.map_cons, execAll, hexec]
    exact ht

/-- Settles O51: 254 pushes count their samples, the last recomputes over the window and takes the cursor once around. -/
theorem everyBlockOf255PushesIsItsWindow : Obligations.EveryBlockOf255PushesIsItsWindow := by
  intro s ws hwf hm hc h0 hlen
  obtain rfl | ⟨vs, w, rfl⟩ := List.eq_nil_or_concat' ws
  · cases hlen
  have hvs : vs.length = 254 := by simpa using hlen
  obtain ⟨u, hu, hcounted, herased⟩ := execAll_calPush_counted (ws := vs) (counted_nil hm hc h0) (by simp [hvs])
  have hcfg : u.cfg = s.cfg := (congrArg State.cfg herased :)
  have hwindow := hcounted.calPush_windowOf hvs w
  have hvalid := hcounted.calPush_calValid hvs hcfg hwf w
  have hcount := hcounted.calPush_calCount hvs w
  have hcursor := hcounted.calPush_cursor hvs hc w
  have hlast := (calibratorErased_calPush (sampleInt s.cfg w) u).trans herased
  have hexec := exec_calPush w hcounted.cursor_lt
  rw [hcfg] at hexec
  generalize (calPush (sampleInt s.cfg w) u).1 = l at hexec
  generalize (calPush (sampleInt s.cfg w) u).2 = v at hexec hwindow hvalid hcount hcursor hlast
  obtain ⟨hmin, hmin_le, hmax, hle_max⟩ := hwindow.words
  refine ⟨setRet (.level l) v, ?_, hmin, hmin_le, hmax, hle_max, ?_⟩
  · rw [List.map_append, execAll_append hu, List.map_singleton, execAll, hexec]
    rfl
  · have e := eq_of_calibratorErased (t := setRet (.level l) v) hlast
    rw [setRet_histCursor, hcursor, setRet_calCount, hcount, setRet_calThr, hwindow.thr, setRet_calValid, hvalid] at e
    exact e

/-! ### Pushes on a calibrating block -/

/-- A push on a calibrating block that does not complete the window (R293). -/
theorem pushSample_uncalibrated {x : Int} {s : State} (hv : s.calValid = false) (hn : s.calCount + 1 ≠ 255) :
    pushSample x s = setOut { level := .unknown, bit := none, anomaly := .cal, frame := none }
      (calStore x (faSampleReceived s)) := by
  have hp : (calPush x (faSampleReceived s)).2 = calStore x (faSampleReceived s) := calPush_count hn
  have hl : (calPush x (faSampleReceived s)).1 = .unknown := by
    rw [calPush_level, hp]
    exact (calClassify_unknown_iff _ _).2 hv
  rw [pushSample_eq, bsmStep_unknown hl, hp]
  rfl

/-- What pushes short of the 255th leave as it is on a calibrating block. -/
def sameCalibrating (s t : State) : Prop := t.cfg = s.cfg ∧ t.calValid = s.calValid ∧ t.locked = s.locked

/-- Short of the 255th push a calibrating block counts its samples. -/
theorem run_pushes_counted {c : Nat} {xs : List Int} {ws : List SampleWord} {rest : List Ports} {s : State}
    (hwf : s.cfg.wf = true) (h : Counted c xs s) (hv : s.calValid = false) (hn : xs.length + ws.length < 255)
    (hs : s.stimulus = pushes ws ++ rest) :
    ∃ t : State, Host.Core.run core ws.length s = .next t ∧ Counted c (xs ++ ws.map (sampleInt s.cfg)) t ∧
      t.stimulus = rest ∧ sameCalibrating s t := by
  induction ws generalizing xs s with
  | nil => exact ⟨s, rfl, by rwa [List.map_nil, List.append_nil], hs, rfl, rfl, rfl⟩
  | cons w ws ih =>
    rw [List.length_cons] at hn
    have hcount : s.calCount + 1 ≠ 255 := by rw [h.count]; omega
    have hstep : step s = .next (pushSample (sampleInt s.cfg w) { s with stimulus := pushes ws ++ rest }) :=
      (step_push hwf hs).trans (exec_pushSample w h.cursor_lt)
    have hstored := h.calStore (by omega) (sampleInt s.cfg w)
    rw [pushSample_uncalibrated (s := { s with stimulus := pushes ws ++ rest }) hv hcount] at hstep
    obtain ⟨t, ht, htc, hstim, hsame⟩ := ih (xs := xs ++ [sampleInt s.cfg w])
      (s := setOut _ (calStore (sampleInt s.cfg w) (faSampleReceived { s with stimulus := pushes ws ++ rest })))
      hwf { hstored with } hv (by rw [List.length_append, List.length_singleton]; omega) rfl
    rw [List.append_assoc, List.singleton_append] at htc
    exact ⟨t, (run_succ hstep).trans ht, htc, hstim, hsame⟩

/-- The last of at most 255 pushes from `cal_count = 0` on a calibrating block, and the state before it. -/
theorem run_pushes_concat {s : State} {vs : List SampleWord} (w : SampleWord) (hwf : s.cfg.wf = true)
    (hm : Memory.wf s.hist = true) (hc : s.histCursor < 255) (h0 : s.calCount = 0) (hv : s.calValid = false)
    (hn : vs.length < 255) :
    ∃ u : State, Host.Core.run core (vs ++ [w]).length { s with stimulus := pushes (vs ++ [w]) } =
        .next (pushSample (sampleInt s.cfg w) u) ∧
      Counted s.histCursor (vs.map (sampleInt s.cfg)) u ∧ sameCalibrating s u := by
  obtain ⟨t, ht, htc, hstim, hcfg, hsame⟩ :=
    run_pushes_counted (s := { s with stimulus := pushes (vs ++ [w]) }) (rest := pushes [w])
      hwf { counted_nil hm hc h0 with } hv (by simpa using hn) (List.map_append ..)
  have hcfg : t.cfg = s.cfg := hcfg
  refine ⟨{ t with stimulus := [] }, ?_, { htc with }, hcfg, hsame⟩
  rw [List.length_append, List.length_singleton, run_add ht, ← hcfg]
  exact ((run_one t).trans (step_push (hcfg ▸ hwf) hstim)).trans (exec_pushSample w htc.cursor_lt)

/-- Settles O19: a push short of the 255th is `pushSample_uncalibrated`; the 255th recomputes first, which makes the
threshold valid. -/
theorem deadTimeIs254Pushes : Obligations.DeadTimeIs254Pushes := by
  intro s ws hwf hm hc h0 hv hne hlen
  obtain rfl | ⟨vs, w, rfl⟩ := List.eq_nil_or_concat' ws
  · exact absurd rfl hne
  simp only [List.length_append, List.length_singleton] at hlen ⊢
  obtain ⟨u, hu, hcounted, hcfg, hvalid, -⟩ := run_pushes_concat w hwf hm hc h0 hv (vs := vs) (by omega)
  have hcount : u.calCount = vs.length := by rw [hcounted.count, List.length_map]
  rw [hv] at hvalid
  rw [List.length_append, List.length_singleton] at hu
  refine ⟨_, hu, fun hlt => ?_, fun hlast => ?_⟩
  · rw [pushSample_uncalibrated hvalid (by omega)]
    exact ⟨rfl, congrArg (· + 1) hcount, hvalid⟩
  · have hlevel : (pushSample (sampleInt s.cfg w) u).out.level = (calPush (sampleInt s.cfg w) (faSampleReceived u)).1 :=
      bsmStep_level ..
    have hready : (calPush (sampleInt s.cfg w) (faSampleReceived u)).2.calValid = true :=
      hcounted.faSampleReceived.calPush_calValid (by omega) hcfg hwf w
    rw [hlevel, calPush_level, Ne, calClassify_unknown_iff, hready]
    exact Bool.noConfusion

/-! ### The completing push on an unlocked block -/

/-- The calibrator's registers but the ring and its cursor. -/
def sameCalibrator (s t : State) : Prop :=
  t.calMin = s.calMin ∧ t.calMax = s.calMax ∧ t.calThr = s.calThr ∧ t.calValid = s.calValid ∧ t.calCount = s.calCount

theorem WindowOf.of_sameCalibrator {xs : List Int} {s t : State} (h : WindowOf xs s) (e : sameCalibrator s t) :
    WindowOf xs t := by
  obtain ⟨hmin, hmax, hthr, -, -⟩ := e
  exact
    { min_mem := hmin ▸ h.min_mem, min_le := hmin ▸ h.min_le, max_mem := hmax ▸ h.max_mem, le_max := hmax ▸ h.le_max
      thr := by rw [hthr, hmin, hmax, h.thr] }

/-- Steps 3 to 5 of BSM.STEP write the calibrator only where they invalidate, and then they unlock. -/
theorem bsmTrack_calibrator_of_locked {v : Wave} {s : State} (h : (bsmTrack v s).2.locked = true) :
    sameCalibrator s (bsmTrack v s).2 := by
  rw [bsmTrack_eq] at h ⊢
  rcases bsmResolve_cases (bsmExpect s.cfg.thr (s.bitCount + 1) s.midSeen) (levelChanged s.lastLevel v.level) v
    { s with bitCount := s.bitCount + 1, lastLevel := v.level } with ⟨e, _⟩ | ⟨e, _⟩ | ⟨e, _⟩ | ⟨e, _⟩ <;> rw [e] at h ⊢
  · cases h
  · cases h
  · exact ⟨rfl, rfl, rfl, rfl, rfl⟩
  · exact ⟨rfl, rfl, rfl, rfl, rfl⟩

theorem bsmClassified_calibrator_of_unlocked {v : Wave} {s : State} (hwf : s.cfg.wf = true) (hl : s.locked = false) :
    sameCalibrator s (bsmClassified v s).2 := by
  have hz := zdStep_frame v s
  rcases Bool.eq_false_or_eq_true (zdStep v s).1 with hlock | hlock
  · rw [bsmClassified_lock hl hlock, hz]
    exact bsmTrack_calibrator_of_locked (bsmTrack_lockOn_locked v hwf)
  · rw [bsmClassified_search hl hlock, hz]
    exact ⟨rfl, rfl, rfl, rfl, rfl⟩

/-- A push on an unlocked block does to the calibrator what its CAL.PUSH does: the sample that locks does not invalidate. -/
theorem pushSample_calibrator_of_unlocked {x : Int} {s : State} (hwf : s.cfg.wf = true) (hl : s.locked = false) :
    sameCalibrator (calPush x (faSampleReceived s)).2 (pushSample x s) := by
  have hbsm : sameCalibrator (calPush x (faSampleReceived s)).2 (bsmStep x (faSampleReceived s)).2 := by
    have hframe := calPush_frame x (faSampleReceived s)
    rcases level_cases (calPush x (faSampleReceived s)).1 with h | ⟨v, h⟩
    · rw [bsmStep_unknown h]
      exact ⟨rfl, rfl, rfl, rfl, rfl⟩
    · rw [bsmStep_classified h]
      exact bsmClassified_calibrator_of_unlocked (by rw [hframe]; exact hwf) ((calPush_locked ..).trans hl)
  rw [pushSample_eq]
  generalize bsmStep x (faSampleReceived s) = r at hbsm ⊢
  obtain ⟨⟨level, bit, anomaly⟩, t⟩ := r
  cases bit <;> exact hbsm

/-- Settles O20: the completing push finds the block unlocked, so its bounds are those of its CAL.PUSH. -/
theorem windowIsTheLast255Pushes : Obligations.WindowIsTheLast255Pushes := by
  intro s ws hwf hm hc h0 hv hl hlen
  obtain rfl | ⟨vs, w, rfl⟩ := List.eq_nil_or_concat' ws
  · cases hlen
  have hvs : vs.length = 254 := by simpa using hlen
  obtain ⟨u, hu, hcounted, hcfg, -, hlocked⟩ := run_pushes_concat w hwf hm hc h0 hv (vs := vs) (by omega)
  rw [hlen] at hu
  have hsame := pushSample_calibrator_of_unlocked (x := sampleInt s.cfg w) (hcfg ▸ hwf) (hlocked.trans hl)
  have hcal := hcounted.faSampleReceived
  have hwindow := (hcal.calPush_windowOf hvs w).of_sameCalibrator hsame
  obtain ⟨hmin, hmin_le, hmax, hle_max⟩ := hwindow.words
  obtain ⟨-, -, -, hvalid, hcount⟩ := hsame
  exact ⟨_, hu, hmin, hmin_le, hmax, hle_max, hwindow.thr, hvalid.trans (hcal.calPush_calValid hvs hcfg hwf w),
    hcount.trans (hcal.calPush_calCount hvs w)⟩

end Sys2Proof.Machine
end

section
/-! The thresholds and the zero detector (42_synchronizer.md R160 to R168): the derivation, a step, a steady stretch. -/

namespace Sys2Proof.Machine

/-! ### THR.DERIVE (R160, R161, R162) -/

theorem exec_thrDerive {fs : Rate} (h : fs.positive = true) (s : State) :
    exec (.thrDerive fs) s = .next { s with ret := .thresholds (thrDerive fs) } :=
  if_pos h

theorem exec_thrDerive_refused {fs : Rate} (h : ¬ fs.positive = true) (s : State) :
    exec (.thrDerive fs) s = .refused .rateNotPositive :=
  if_neg h

theorem floorScaled_mul_le (fs : Rate) (k d : Nat) : floorScaled fs k d * (fs.den * d) ≤ fs.num * k :=
  Nat.div_mul_le_self _ _

theorem le_ceilScaled_mul {fs : Rate} {d : Nat} (h : 0 < fs.den * d) (k : Nat) :
    fs.num * k ≤ ceilScaled fs k d * (fs.den * d) := by
  have hdiv : fs.num * k + (fs.den * d - 1) < fs.den * d * (ceilScaled fs k d + 1) := Nat.lt_mul_div_succ _ h
  rw [Nat.mul_succ, Nat.mul_comm (fs.den * d)] at hdiv
  omega

/-- Settles O22: a rate is positive exactly when both of its parts are. -/
theorem nonPositiveRateIsRefused : Obligations.NonPositiveRateIsRefused :=
  fun s _ h => exec_thrDerive_refused (mt (positive_iff _).1 h) s

/-- Settles O21: the rounding of `floorScaled` and `ceilScaled` at each of the two durations and their halves; natural
subtraction is the clamp. -/
theorem thresholdsAreRoundedOutward : Obligations.ThresholdsAreRoundedOutward := by
  intro s fs hn hd
  have hbit : 0 < fs.den * 3000000 := Nat.mul_pos hd (by decide)
  have hhalf : 0 < fs.den * 6000000 := Nat.mul_pos hd (by decide)
  simp only [Nat.mul_comm _ fs.den]
  refine ⟨thrDerive fs, floorScaled fs 1217 6000000, ceilScaled fs 1592 6000000,
    exec_thrDerive ((positive_iff fs).2 ⟨hn, hd⟩) s,
    floorScaled_mul_le fs 1217 3000000, lt_floorScaled_add_one_mul hbit 1217,
    le_ceilScaled_mul hbit 1592, ceilScaled_mul_lt hbit 1592,
    floorScaled_mul_le fs 1217 6000000, lt_floorScaled_add_one_mul hhalf 1217,
    le_ceilScaled_mul hhalf 1592, ceilScaled_mul_lt hhalf 1592, ?_, rfl⟩
  show ((floorScaled fs 1217 6000000 - 2 : Nat) : Int) = _
  omega

/-! ### ZD.STEP (R165) -/

theorem exec_zdStep (v : Wave) (s : State) :
    exec (.zdStep v) s = .next (setRet (.lock (zdStep v s).1) (zdStep v s).2) := rfl

/-- The test of R165 (b) as one proposition. -/
theorem fullBitRun_eq (c : Config) (n : Nat) :
    fullBitRun c n = decide (c.thr.minBit ≤ n ∧ n ≤ c.thr.maxBit) :=
  (Bool.decide_and _ _).symm

/-- Settles O24: the four cases of `zdStep`. -/
theorem zeroDetectorStep : Obligations.ZeroDetectorStep := by
  intro s v
  simp only [exec_zdStep]
  refine ⟨fun h => ?first, fun h hc => ?change, fun h hr => ?restart, fun h hr => ?steady⟩
  case first => rw [zdStep_first h]; rfl
  case change => rw [zdStep_change h hc, fullBitRun_eq]; rfl
  case restart => rw [zdStep_restart h hr]; rfl
  case steady => rw [zdStep_steady h hr]; rfl

/-! ### A steady stretch (R168, R334) -/

/-- Within a steady stretch the count runs modulo `max_bit + 1`. -/
theorem exec_zdStep_same {v : Wave} {s : State} (h : s.zdLevel = v.level) (hc : s.zdCount ≤ s.cfg.thr.maxBit) :
    exec (.zdStep v) s = .next { s with zdCount := (s.zdCount + 1) % (s.cfg.thr.maxBit + 1), ret := .lock false } := by
  rw [exec_zdStep]
  rcases Nat.lt_or_ge s.cfg.thr.maxBit (s.zdCount + 1) with hr | hr
  · rw [zdStep_restart h hr, show s.zdCount = s.cfg.thr.maxBit by omega, Nat.mod_self]
    rfl
  · rw [zdStep_steady h hr, Nat.mod_eq_of_lt (Nat.lt_succ_of_le hr)]
    rfl

/-- A run past `max_bit` has remainder 0, which is below `min_bit`; so the remainder alone decides. -/
theorem fullBitRun_eq_mod {c : Config} {n : Nat} (h : c.thr.ordered = true) (hn : n ≤ c.thr.maxBit + 1) :
    fullBitRun c n = decide (c.thr.minBit ≤ n % (c.thr.maxBit + 1)) := by
  obtain ⟨-, hmin, -⟩ := (ordered_iff _).1 h
  rw [fullBitRun_eq, decide_eq_decide]
  rcases Nat.lt_or_ge n (c.thr.maxBit + 1) with hlt | hge
  · rw [Nat.mod_eq_of_lt hlt]
    omega
  · rw [Nat.le_antisymm hn hge, Nat.mod_self]
    omega

/-- The change that ends a steady stretch. -/
theorem exec_zdStep_other {v : Wave} {s : State} (hwf : s.cfg.wf = true) (h : s.zdLevel = v.level)
    (hc : s.zdCount ≤ s.cfg.thr.maxBit) :
    exec (.zdStep (otherWave v)) s = .next
      { s with zdLevel := (otherWave v).level, zdCount := 0
               ret := .lock (decide (s.cfg.thr.minBit ≤ (s.zdCount + 1) % (s.cfg.thr.maxBit + 1))) } := by
  obtain ⟨-, -, hord⟩ := (wf_iff _).1 hwf
  have hne : (otherWave v).level ≠ s.zdLevel := h ▸ mt wave_level_inj.1 (otherWave_ne v)
  rw [exec_zdStep, zdStep_change (h ▸ wave_level_ne_unknown v) hne, fullBitRun_eq_mod hord (Nat.succ_le_succ hc)]
  rfl

/-- From any count: `n` steady samples and a change, the lock decided by the whole run's remainder. -/
theorem execAll_zdStep_stretch {v : Wave} {s : State} (hwf : s.cfg.wf = true) (h : s.zdLevel = v.level)
    (hc : s.zdCount ≤ s.cfg.thr.maxBit) (n : Nat) :
    execAll (List.replicate n (.zdStep v) ++ [.zdStep (otherWave v)]) s = .next
      { s with zdLevel := (otherWave v).level, zdCount := 0
               ret := .lock (decide (s.cfg.thr.minBit ≤ (s.zdCount + n + 1) % (s.cfg.thr.maxBit + 1))) } := by
  induction n generalizing s with
  | zero =>
    rw [List.replicate_zero, List.nil_append, execAll, exec_zdStep_other hwf h hc]
    rfl
  | succ n ih =>
    have hlt : (s.zdCount + 1) % (s.cfg.thr.maxBit + 1) < s.cfg.thr.maxBit + 1 := Nat.mod_lt _ (Nat.succ_pos _)
    rw [List.replicate_succ, List.cons_append, execAll, exec_zdStep_same h hc,
      show s.zdCount + (n + 1) + 1 = s.zdCount + 1 + (n + 1) by omega, ← Nat.mod_add_mod (s.zdCount + 1)]
    exact ih (s := { s with zdCount := _, ret := _ }) hwf h (Nat.le_of_lt_succ hlt)

/-- Settles O25: a stretch that starts with a cleared count. -/
theorem steadyStretchLocksByItsLength : Obligations.SteadyStretchLocksByItsLength := by
  intro s x len hwf hx h0 hlen
  have hrun : s.zdCount + (len - 1) + 1 = len := by omega
  have h := execAll_zdStep_stretch hwf hx (h0 ▸ Nat.zero_le _) (len - 1)
  rwa [hrun] at h

end Sys2Proof.Machine
end

section
/-! The bit state machine (43_bit_state_machine.md R180 to R190): the expected event, its resolution, a step as its five
parts, and the decoding of a clean stream. -/

namespace Sys2Proof.Machine

/-! ### BSM.EXPECT (R183) -/

/-- The counts, and the state of `mid_seen`, for which R183 expects the event. -/
def expectZone (t : Thresholds) (n : Nat) (mid : Bool) : Event → Prop
  | .overdue => t.maxBit < n
  | .canChangeInEnd => t.minBit ≤ n ∧ n ≤ t.maxBit
  | .canChangeInMiddle => (t.minHalf ≤ n ∧ n ≤ t.maxHalf) ∧ mid = false
  | .mustBeSteady =>
    n < t.minHalf ∨ ((t.minHalf ≤ n ∧ n ≤ t.maxHalf) ∧ mid = true) ∨ (t.maxHalf < n ∧ n < t.minBit)

/-- The zones leave no count out. -/
theorem exists_expectZone (t : Thresholds) (n : Nat) (mid : Bool) : ∃ e, expectZone t n mid e := by
  by_cases hover : t.maxBit < n
  · exact ⟨.overdue, hover⟩
  by_cases hend : t.minBit ≤ n
  · exact ⟨.canChangeInEnd, hend, Nat.not_lt.1 hover⟩
  by_cases hhalf : t.minHalf ≤ n ∧ n ≤ t.maxHalf
  · cases mid with
    | false => exact ⟨.canChangeInMiddle, hhalf, rfl⟩
    | true => exact ⟨.mustBeSteady, .inr (.inl ⟨hhalf, rfl⟩)⟩
  · exact ⟨.mustBeSteady, by simp only [expectZone]; omega⟩

/-- With ordered thresholds the tests of BSM.EXPECT find the event in whose zone the count lies. -/
theorem bsmExpect_of_zone {t : Thresholds} (h : t.ordered = true) {n : Nat} {mid : Bool} {e : Event}
    (hz : expectZone t n mid e) : bsmExpect t n mid = e := by
  obtain ⟨hhalf, hgap, hbit⟩ := (ordered_iff t).1 h
  cases e with
  | overdue =>
    have hn : t.maxBit < n := hz
    rw [bsmExpect, if_neg (by omega), if_neg (by omega), if_neg (by omega), if_neg (by omega)]
  | canChangeInEnd =>
    obtain ⟨hmin, hmax⟩ := hz
    rw [bsmExpect, if_neg (by omega), if_neg (by omega), if_neg (by omega), if_pos hmax]
  | canChangeInMiddle =>
    obtain ⟨⟨hmin, hmax⟩, rfl⟩ := hz
    rw [bsmExpect, if_neg (Nat.not_lt.2 hmin), if_pos hmax, if_neg Bool.false_ne_true]
  | mustBeSteady =>
    rcases hz with hlow | ⟨⟨hmin, hmax⟩, rfl⟩ | ⟨hmin, hmax⟩
    · rw [bsmExpect, if_pos hlow]
    · rw [bsmExpect, if_neg (Nat.not_lt.2 hmin), if_pos hmax, if_pos rfl]
    · rw [bsmExpect, if_neg (by omega), if_neg (by omega), if_pos hmax]

theorem bsmExpect_eq_iff {t : Thresholds} (h : t.ordered = true) {n : Nat} {mid : Bool} {e : Event} :
    bsmExpect t n mid = e ↔ expectZone t n mid e := by
  obtain ⟨e', he'⟩ := exists_expectZone t n mid
  refine ⟨?_, bsmExpect_of_zone h⟩
  rw [bsmExpect_of_zone h he']
  rintro rfl
  exact he'

/-- Settles O26: the tests are the definition's, and under `WF_CFG` each event has its own zone. -/
theorem expectedEventZones : Obligations.ExpectedEventZones := by
  intro s n mid
  refine ⟨bsmExpect s.cfg.thr n mid, rfl, rfl, fun hwf => ?_⟩
  obtain ⟨-, -, hord⟩ := (wf_iff _).1 hwf
  exact ⟨bsmExpect_eq_iff hord, bsmExpect_eq_iff hord, bsmExpect_eq_iff hord, bsmExpect_eq_iff hord⟩

/-! ### BSM.RESOLVE (R184) -/

/-- The state an operation leaves with its result recorded in `ret` (log 4). -/
def bitReported (r : BitResult × State) : State := setRet (.bitResult r.1) r.2

theorem exec_bsmResolve (ev : Event) (c : Bool) (v : Wave) (s : State) :
    exec (.bsmResolve ev c v) s = .next (bitReported (bsmResolve ev c v s)) := rfl

/-- Without a change nothing happens, unless the bit is overdue. -/
theorem bsmResolve_steady (ev : Event) (h : ev ≠ .overdue) (v : Wave) (s : State) :
    bsmResolve ev false v s = (noBit v, s) := by
  cases ev with
  | overdue => exact absurd rfl h
  | mustBeSteady => rfl
  | canChangeInMiddle => simp only [bsmResolve, midSeenAfter, Bool.or_false]
  | canChangeInEnd => rfl

/-- The middle change of a 1 bit is remembered. -/
theorem bsmResolve_middle (v : Wave) (s : State) :
    bsmResolve .canChangeInMiddle true v s = (noBit v, { s with midSeen := true }) := by
  simp only [bsmResolve, midSeenAfter, Bool.or_true]

/-- The change at the bit boundary gives the bit. -/
theorem bsmResolve_end (v : Wave) (s : State) :
    bsmResolve .canChangeInEnd true v s =
      ({ level := v.level, bit := some s.midSeen, anomaly := .none }, { s with bitCount := 0, midSeen := false }) := rfl

/-- Settles O27, row by row; `Overdue` does not look at `changed`. -/
theorem resolveTable : Obligations.ResolveTable := by
  intro s v changed
  simp only [exec_bsmResolve]
  refine ⟨rfl, rfl, ?_, ?_, ?_, rfl, ?_⟩
  · rw [bsmResolve_steady .mustBeSteady nofun]; rfl
  · rw [bsmResolve_middle]; rfl
  · rw [bsmResolve_steady .canChangeInMiddle nofun]; rfl
  · rw [bsmResolve_steady .canChangeInEnd nofun]; rfl

/-! ### BSM.STEP as its parts (R180 to R182) -/

/-- The reported state does not depend on what the operation before returned. -/
theorem bitReported_bsmClassified_setRet (v : Wave) (r : Ret) (s : State) :
    bitReported (bsmClassified v (setRet r s)) = bitReported (bsmClassified v s) := by
  obtain ⟨-, -, hout, -⟩ := bsmClassified_setting v s
  have e : bsmClassified v (setRet r s) = resultWithRecords s.out r (bsmClassified v s) :=
    bsmClassified_withRecords v s.out r s
  rw [e, ← hout]
  rfl

/-- CAL.PUSH returns the level that BSM.STEP reports, and does not lock. -/
theorem exec_calPush_result {s s1 : State} {w : SampleWord} (h : exec (.calPush w) s = .next s1) :
    s1.ret = .level (bsmStep (sampleInt s.cfg w) s).1.level ∧ s1.locked = s.locked := by
  obtain ⟨-, rfl⟩ := writesRing_next h
  exact ⟨congrArg Ret.level (bsmStep_level ..).symm, calPush_locked ..⟩

/-- BSM.STEP ends on an unclassified sample in the state its CAL.PUSH leaves. -/
theorem exec_bsmStep_of_unclassified {s s1 : State} {w : SampleWord} (h : exec (.calPush w) s = .next s1)
    (hl : s1.ret = .level .unknown) :
    exec (.bsmStep w) s = .next (bitReported ({ level := .unknown, bit := none, anomaly := .cal }, s1)) := by
  obtain ⟨hc, rfl⟩ := writesRing_next h
  rw [exec_bsmStep w hc, bsmStep_unknown (Ret.level.inj hl)]
  rfl

/-- BSM.STEP continues on a classified sample from the state its CAL.PUSH leaves. -/
theorem exec_bsmStep_of_classified {s s1 : State} {w : SampleWord} {v : Wave} (h : exec (.calPush w) s = .next s1)
    (hl : s1.ret = .level v.level) : exec (.bsmStep w) s = .next (bitReported (bsmClassified v s1)) := by
  obtain ⟨hc, rfl⟩ := writesRing_next h
  rw [exec_bsmStep w hc, bsmStep_classified (Ret.level.inj hl), bitReported_bsmClassified_setRet]
  rfl

/-- The state after COUNT_AND_COMPARE (R182) on a sample of level `v`. -/
def sampleCounted (v : Wave) (s : State) : State := { s with bitCount := s.bitCount + 1, lastLevel := v.level }

/-- The outcome `o` is that of BSM.EXPECT and BSM.RESOLVE run one after the other on a sample that COUNT_AND_COMPARE
counts in `s`. -/
def FinishesAs (o : Host.Outcome State Fault Refusal) (v : Wave) (s : State) : Prop :=
  ∃ e t, exec (.bsmExpect (s.bitCount + 1) s.midSeen) s = .next t ∧ t.ret = .event e ∧
    o = exec (.bsmResolve e (decide (s.lastLevel ≠ .unknown ∧ v.level ≠ s.lastLevel)) v) (sampleCounted v s)

/-- `changed` of R182 as one proposition. -/
theorem levelChanged_eq (last level : Level) :
    levelChanged last level = decide (last ≠ .unknown ∧ level ≠ last) :=
  (Bool.decide_and _ _).symm

theorem exec_bsmResolve_setRet (ev : Event) (c : Bool) (v : Wave) (r : Ret) (s : State) :
    exec (.bsmResolve ev c v) (setRet r s) = exec (.bsmResolve ev c v) s := by
  cases ev <;> cases c <;> rfl

/-- Steps 3 to 5 of BSM.STEP are those operations, whatever the operation before returned. -/
theorem finishesAs_bsmTrack (v : Wave) (r : Ret) (s : State) :
    FinishesAs (.next (bitReported (bsmTrack v s))) v (setRet r s) := by
  refine ⟨bsmExpect s.cfg.thr (s.bitCount + 1) s.midSeen, _, rfl, rfl, ?_⟩
  rw [← levelChanged_eq]
  exact (exec_bsmResolve_setRet _ _ v r (sampleCounted v s)).symm

/-- Settles O28: an unclassified sample ends the step; a classified one runs `bsmClassified`, which tracks it while locked
and else asks the zero detector. -/
theorem bitMachineStepIsItsFiveSteps : Obligations.BitMachineStepIsItsFiveSteps := by
  intro s w hc
  obtain ⟨s1, hpush⟩ : ∃ s1, exec (.calPush w) s = .next s1 := ⟨_, exec_calPush w hc⟩
  obtain ⟨hret, hlocked⟩ := exec_calPush_result hpush
  refine ⟨s1, _, _, _, hpush, hret, exec_bsmStep w hc, rfl, rfl, fun hl => ?unclassified, fun v hl => ?classified⟩
  case unclassified => exact exec_bsmStep_of_unclassified hpush (hl ▸ hret)
  case classified =>
    rw [exec_bsmStep_of_classified hpush (hl ▸ hret)]
    refine ⟨fun h => ?_, fun h => ⟨_, _, exec_zdStep v s1, rfl, fun hb => ?_, fun hb => ?_⟩⟩
    · rw [bsmClassified_locked (hlocked.trans h)]
      exact finishesAs_bsmTrack v s1.ret s1
    · rw [bsmClassified_search (hlocked.trans h) hb]
      rfl
    · rw [bsmClassified_lock (hlocked.trans h) hb]
      exact finishesAs_bsmTrack v (.lock (zdStep v s1).1) (lockOn (zdStep v s1).2)

/-! ### Decoding (R190) -/

/-- The classified samples `vs` take `s` to `t`, giving `bits` and no anomaly. -/
structure Decodes (vs : List Wave) (s : State) (bits : List Bool) (t : State) : Prop where
  bits : (classifiedRun vs s).1.filterMap (fun q => q.bit) = bits
  clean : ∀ q ∈ (classifiedRun vs s).1, q.anomaly = .none
  state : (classifiedRun vs s).2 = t

theorem Decodes.nil (s : State) : Decodes [] s [] s := ⟨rfl, nofun, rfl⟩

theorem Decodes.append {vs ws : List Wave} {s t u : State} {bs cs : List Bool} (h : Decodes vs s bs t)
    (h' : Decodes ws t cs u) : Decodes (vs ++ ws) s (bs ++ cs) u := by
  obtain ⟨hbits, hclean, rfl⟩ := h
  obtain ⟨hbits', hclean', hstate'⟩ := h'
  constructor <;> rw [classifiedRun_append]
  · rw [List.filterMap_append, hbits, hbits']
  · exact fun q hq => (List.mem_append.1 hq).elim (hclean q) (hclean' q)
  · exact hstate'

theorem Decodes.single {v : Wave} {s t : State} {r : BitResult} (h : bsmClassified v s = (r, t)) (hr : r.anomaly = .none) :
    Decodes [v] s r.bit.toList t where
  bits := by cases hb : r.bit <;> simp [classifiedRun, h, hb]
  clean := by simp [classifiedRun, h, hr]
  state := by simp [classifiedRun, h]

/-- `s` after sample number `n` of a bit, at level `x`, with the middle change seen or not. -/
def inBit (x : Wave) (n : Nat) (mid : Bool) (s : State) : State :=
  { s with lastLevel := x.level, bitCount := n, midSeen := mid }

theorem levelChanged_same (x : Wave) : levelChanged x.level x.level = false := by simp [levelChanged]

theorem levelChanged_other (x : Wave) : levelChanged x.level (otherWave x).level = true := by
  simp [levelChanged, wave_level_inj, otherWave_ne, -otherWave_level]

section
variable {s : State} (hwf : s.cfg.wf = true) (hl : s.locked = true)
include hl

/-- A sample within a bit: BSM.RESOLVE of the event expected at its number. -/
theorem bsmClassified_inBit (v x : Wave) (n : Nat) (mid : Bool) :
    bsmClassified v (inBit x n mid s) =
      bsmResolve (bsmExpect s.cfg.thr (n + 1) mid) (levelChanged x.level v.level) v (inBit v (n + 1) mid s) := by
  rw [bsmClassified_locked (s := inBit x n mid s) hl, bsmTrack_eq]
  rfl

include hwf

/-- A sample without change. -/
theorem decodes_steady (x : Wave) {n : Nat} (mid : Bool) (hn : n + 1 ≤ s.cfg.thr.maxBit) :
    Decodes [x] (inBit x n mid s) [] (inBit x (n + 1) mid s) := by
  obtain ⟨-, -, hord⟩ := (wf_iff _).1 hwf
  have hev : bsmExpect s.cfg.thr (n + 1) mid ≠ .overdue := mt (bsmExpect_eq_iff hord).1 (Nat.not_lt.2 hn)
  refine Decodes.single (r := noBit x) ?_ rfl
  rw [bsmClassified_inBit hl, levelChanged_same, bsmResolve_steady _ hev]

/-- The change inside the half-bit window. -/
theorem decodes_middle (x : Wave) {n : Nat} (hn : s.cfg.thr.minHalf ≤ n + 1 ∧ n + 1 ≤ s.cfg.thr.maxHalf) :
    Decodes [otherWave x] (inBit x n false s) [] (inBit (otherWave x) (n + 1) true s) := by
  obtain ⟨-, -, hord⟩ := (wf_iff _).1 hwf
  refine Decodes.single (r := noBit (otherWave x)) ?_ rfl
  rw [bsmClassified_inBit hl, levelChanged_other, bsmExpect_of_zone (e := .canChangeInMiddle) hord ⟨hn, rfl⟩, bsmResolve_middle]
  rfl

/-- The change at the bit boundary: a 1 bit exactly if the middle change was seen. -/
theorem decodes_end (x : Wave) {n : Nat} (mid : Bool) (hn : s.cfg.thr.minBit ≤ n + 1 ∧ n + 1 ≤ s.cfg.thr.maxBit) :
    Decodes [otherWave x] (inBit x n mid s) [mid] (inBit (otherWave x) 0 false s) := by
  obtain ⟨-, -, hord⟩ := (wf_iff _).1 hwf
  refine Decodes.single (r := { level := (otherWave x).level, bit := some mid, anomaly := .none }) ?_ rfl
  rw [bsmClassified_inBit hl, levelChanged_other, bsmExpect_of_zone (e := .canChangeInEnd) hord hn, bsmResolve_end]
  rfl

/-- A steady run that does not pass `max_bit`. -/
theorem decodes_replicate (x : Wave) {n : Nat} (mid : Bool) {k : Nat} (hn : n + k ≤ s.cfg.thr.maxBit) :
    Decodes (List.replicate k x) (inBit x n mid s) [] (inBit x (n + k) mid s) := by
  induction k with
  | zero => exact .nil _
  | succ k ih =>
    rw [List.replicate_succ']
    exact (ih (Nat.le_of_succ_le hn)).append (decodes_steady hwf hl x mid hn)

/-- One bit of legal length, from its first sample to that of the next bit. -/
theorem decodes_bit (x : Wave) {off : Nat} {b : BitShape} (h : b.legal s.cfg.thr off) :
    Decodes (b.rest x) (inBit x off false s) [b.value] (inBit (b.nextWave x) 0 false s) := by
  obtain ⟨-, hgap, -⟩ := wf_ordered hwf
  cases b with
  | zero len =>
    obtain ⟨hmin, hmax, hlen⟩ := h
    exact (decodes_replicate hwf hl x false (k := len - 1) (by omega)).append (decodes_end hwf hl x false (by omega))
  | one a b =>
    obtain ⟨hhalf, hbit, ha⟩ := h
    obtain ⟨b, rfl⟩ : ∃ b', b = b' + 1 := Nat.exists_eq_add_one.2 (by omega)
    have hfirst := decodes_replicate hwf hl x (n := off) false (k := a - 1) (by omega)
    have hmiddle := decodes_middle hwf hl x (n := off + (a - 1)) (by omega)
    have hsecond := decodes_replicate hwf hl (otherWave x) (n := off + (a - 1) + 1) true (k := b) (by omega)
    have hend := decodes_end hwf hl (otherWave x) (n := off + (a - 1) + 1 + b) true (by omega)
    rw [otherWave_otherWave] at hend
    exact (hfirst.append (hmiddle.append hsecond)).append hend

/-- A stream of bits of legal lengths, each counted from its first sample. -/
theorem decodes_bits (x : Wave) {bs : List BitShape} (h : ∀ b ∈ bs, b.legal s.cfg.thr 0) :
    Decodes (lineSamples x bs) (inBit x 0 false s) (bs.map BitShape.value) (inBit (lineEnd x bs) 0 false s) := by
  induction bs generalizing x with
  | nil => exact .nil _
  | cons b bs ih =>
    obtain ⟨hb, hbs⟩ := List.forall_mem_cons.1 h
    exact (decodes_bit hwf hl x hb).append (ih _ hbs)

end

/-- Settles O31: the first bit from the count it is measured with, the others from 0. -/
theorem cleanStreamDecodesToItsBits : Obligations.CleanStreamDecodesToItsBits := by
  refine ⟨fun s s1 w v => exec_bsmStep_of_classified, fun s x first more hwf hl hmid hlast hfirst hmore => ?_⟩
  have hstart : s = inBit x s.bitCount false s := by rw [inBit, ← hmid, ← hlast]
  obtain ⟨hbits, hclean, hstate⟩ := (decodes_bit hwf hl x hfirst).append (decodes_bits hwf hl (first.nextWave x) hmore)
  rw [← hstart] at hbits hclean hstate
  refine ⟨hbits, hclean, hstate.trans ?_⟩
  rw [inBit, ← hmid]
  rfl

end Sys2Proof.Machine
end

section
/-! The frame assembler (44_frame_assembler.md R210 to R216): the sample count, the 80-bit shift chain, the recognition of
a frame. -/

namespace Sys2Proof.Machine

/-! ### FA.SAMPLE_RECEIVED and FA.GET_DATA (R210, R212) -/

theorem exec_faSampleReceived (s : State) :
    exec .faSampleReceived s = .next { s with fdsc := if sig s.data then 0 else s.fdsc + 1, ret := .unit } := rfl

theorem exec_faGetData (s : State) : exec .faGetData s = .next { s with ret := .rawFrame (faGetData s) } := rfl

theorem faGetData_of_sync {s : State} (h : s.syncWord = syncConstant) :
    faGetData s = some { payload := s.data, sampleCount := s.fdsc } := if_pos h

theorem faGetData_of_no_sync {s : State} (h : s.syncWord ≠ syncConstant) : faGetData s = none := if_neg h

theorem faGetData_isSome_iff (s : State) : (faGetData s).isSome = true ↔ s.syncWord = syncConstant := by
  by_cases h : s.syncWord = syncConstant
  · simp [faGetData_of_sync h, h]
  · simp [faGetData_of_no_sync h, h]

theorem faGetData_eq_some {s : State} {f : RawFrame} (h : faGetData s = some f) :
    f = { payload := s.data, sampleCount := s.fdsc } := by
  rw [faGetData_of_sync ((faGetData_isSome_iff s).1 (h ▸ rfl))] at h
  exact (Option.some.inj h).symm

/-- Settles O33: the signature test is `sig_iff`, the sync test that of `faGetData` on numbers. -/
theorem sampleCountAndFramePoll : Obligations.SampleCountAndFramePoll := by
  intro s
  rw [exec_faSampleReceived, exec_faGetData]
  refine ⟨fun h => ?_, fun h => ?_, fun h => ?_, fun h => ?_⟩
  · rw [if_pos ((sig_iff _).2 h)]
  · rw [if_neg (mt (sig_iff _).1 h)]
  · rw [faGetData_of_sync (BitVec.eq_of_toNat_eq h)]
  · rw [faGetData_of_no_sync fun hsync => h (congrArg BitVec.toNat hsync)]

/-! ### The shift chain (R211, R64) -/

/-- FA.SHIFT_BIT run on its own. -/
def shifted (b : Bool) (s : State) : State := setRet .unit (faShiftBit b s)

theorem exec_faShiftBit (b : Bool) (s : State) : exec (.faShiftBit b) s = .next (shifted b s) := rfl

/-- The two registers as one chain, `data[0]` its bit 0 (R64). -/
def chain (s : State) : BitVec (16 + 64) := s.syncWord ++ s.data

theorem chain_data_bit (s : State) {i : Nat} (hi : i < 64) : (chain s).getLsbD i = s.data.getLsbD i := by
  rw [chain, BitVec.getLsbD_append, if_pos hi]

theorem chain_sync_bit (s : State) (i : Nat) : (chain s).getLsbD (64 + i) = s.syncWord.getLsbD i := by
  rw [chain, BitVec.getLsbD_append, if_neg (by omega), Nat.add_sub_cancel_left]

/-- A shift moves the chain one position up across the border of the registers. -/
theorem chain_shifted_bit (b : Bool) (s : State) {i : Nat} (hi : i < 80) :
    (chain (shifted b s)).getLsbD i = if i = 0 then b else (chain s).getLsbD (i - 1) := by
  rcases Nat.lt_or_ge i 64 with hdata | hsync
  · rw [chain_data_bit _ hdata, chain_data_bit _ (by omega)]
    exact faShiftBit_data_bit b s hdata
  · obtain ⟨j, rfl⟩ := Nat.exists_eq_add_of_le hsync
    rw [chain_sync_bit, if_neg (by omega)]
    refine (faShiftBit_sync_bit b s (by omega)).trans ?_
    split
    case isTrue h => rw [h, chain_data_bit _ (by decide)]
    case isFalse h => rw [← chain_sync_bit, show 64 + (j - 1) = 64 + j - 1 by omega]

/-- The chain of `t` is that of `s` with the bits `bs` shifted in, the last at position 0. -/
def ChainAfter (s : State) (bs : List Bool) (t : State) : Prop :=
  ∀ i < 80, (chain t).getLsbD i =
    if i < bs.length then bs.reverse.getD i false else (chain s).getLsbD (i - bs.length)

/-- One shift before the others. -/
theorem ChainAfter.cons {s t : State} {b : Bool} {bs : List Bool} (h : ChainAfter (shifted b s) bs t) :
    ChainAfter s (b :: bs) t := by
  intro i hi
  rw [h i hi, List.reverse_cons, List.length_cons]
  rcases Nat.lt_trichotomy i bs.length with hlt | rfl | hgt
  · rw [if_pos hlt, if_pos (Nat.lt_succ_of_lt hlt), List.getD_append _ _ _ _ (by rwa [List.length_reverse])]
  · rw [if_neg (Nat.lt_irrefl _), if_pos (Nat.lt_succ_self _), chain_shifted_bit b s (by omega), Nat.sub_self,
      List.getD_append_right _ _ _ _ (by rw [List.length_reverse]), List.length_reverse, Nat.sub_self]
    rfl
  · rw [if_neg (by omega), if_neg (by omega), chain_shifted_bit b s (by omega), if_neg (by omega), Nat.sub_sub]

/-- Any number of shifts moves the chain only. -/
theorem execAll_faShiftBit (bs : List Bool) (s : State) : ∃ t, execAll (bs.map .faShiftBit) s = .next t ∧
    t = { s with data := t.data, syncWord := t.syncWord, ret := t.ret } ∧ ChainAfter s bs t := by
  induction bs generalizing s with
  | nil => exact ⟨s, rfl, rfl, fun i _ => rfl⟩
  | cons b bs ih =>
    obtain ⟨t, hexec, hframe, hchain⟩ := ih (shifted b s)
    refine ⟨t, ?_, hframe, hchain.cons⟩
    rw [List.map_cons, execAll, exec_faShiftBit]
    exact hexec

/-- Settles O34: one shift bit by bit, and any number by induction on the bits. -/
theorem shiftChainHoldsTheLastEightyBits : Obligations.ShiftChainHoldsTheLastEightyBits :=
  ⟨fun s b => ⟨_, _, exec_faShiftBit b s, fun _ => faShiftBit_data_bit b s, fun _ => faShiftBit_sync_bit b s⟩,
    fun s bs => execAll_faShiftBit bs s⟩

/-! ### Frame recognition (R216) -/

/-- After 80 shifts nothing of the old chain is left, and the first bit stands at the top. -/
theorem ChainAfter.bit_of_eighty {s t : State} {bs : List Bool} (h : ChainAfter s bs t) (hlen : bs.length = 80) {i : Nat}
    (hi : i < 80) : (chain t).getLsbD i = bs.getD (79 - i) false := by
  rw [h i hi, hlen, if_pos hi, List.getD_reverse i (hlen ▸ hi), hlen]

/-- The sync constant's bits are sent from the top down (R89). -/
theorem syncConstant_bit : ∀ i < 16, syncConstant.getMsbD i = syncBits.getD i false := by decide

/-- The first 16 bits of a list are the sync word exactly if they agree with it one by one. -/
theorem take_eq_syncBits_iff {bs : List Bool} (hlen : 16 ≤ bs.length) :
    bs.take 16 = syncBits ↔ ∀ i < 16, bs.getD i false = syncBits.getD i false := by
  have htake : ∀ i < 16, (bs.take 16).getD i false = bs.getD i false := fun i hi => by
    rw [List.getD_eq_getElem?_getD, List.getD_eq_getElem?_getD, List.getElem?_take_of_lt hi]
  constructor
  · intro h i hi
    rw [← htake i hi, h]
  · intro h
    have hlength : (bs.take 16).length = syncBits.length := by rw [List.length_take, Nat.min_eq_left hlen]; rfl
    refine List.ext_getElem hlength fun i hi hi' => ?_
    rw [← List.getD_eq_getElem _ false hi, ← List.getD_eq_getElem _ false hi', htake i hi', h i hi']

/-- The sync register matches exactly if the first 16 of the 80 bits are the sync word. -/
theorem ChainAfter.sync_iff {s t : State} {bs : List Bool} (h : ChainAfter s bs t) (hlen : bs.length = 80) :
    t.syncWord = syncConstant ↔ bs.take 16 = syncBits := by
  have hbit : ∀ i < 16, t.syncWord.getMsbD i = bs.getD i false := fun i hi => by
    rw [BitVec.getMsbD, decide_eq_true hi, Bool.true_and, ← chain_sync_bit, h.bit_of_eighty hlen (by omega),
      show 79 - (64 + (16 - 1 - i)) = i by omega]
  rw [take_eq_syncBits_iff (by omega)]
  constructor
  · intro hsync i hi
    rw [← hbit i hi, hsync, syncConstant_bit i hi]
  · intro hbits
    refine BitVec.eq_of_getMsbD_eq fun i hi => ?_
    rw [hbit i hi, syncConstant_bit i hi, hbits i hi]

/-- The payload word holds the 64 bits after the sync word in the order of their arrival (R65). -/
theorem ChainAfter.payload_bit {s t : State} {bs : List Bool} (h : ChainAfter s bs t) (hlen : bs.length = 80) {k : Nat}
    (hk : k < 64) : (rev64 t.data).getLsbD k = bs.getD (16 + k) false := by
  rw [rev64_bit _ hk, ← chain_data_bit t (by omega), h.bit_of_eighty hlen (by omega), show 79 - (63 - k) = 16 + k by omega]

/-- Settles O35: the chain after 80 shifts holds their bits, the sync word's in `sync_word` and the payload's in `data`. -/
theorem frameIsSyncWordThenPayload : Obligations.FrameIsSyncWordThenPayload := by
  intro s bs hlen
  obtain ⟨t, hexec, hframe, hchain⟩ := execAll_faShiftBit bs s
  have hfdsc : t.fdsc = s.fdsc := by rw [hframe]
  refine ⟨t, faGetData t, hexec, exec_faGetData t, (faGetData_isSome_iff t).trans (hchain.sync_iff hlen), fun f hf => ?_⟩
  obtain rfl := faGetData_eq_some hf
  exact ⟨hfdsc, rfl, fun k hk => hchain.payload_bit hlen hk⟩

end Sys2Proof.Machine
end

section
/-! The field codec (45_field_codec.md R230 to R265): what a getter reads, what a setter writes bit by bit, and the round
trip as the writing of a list of disjoint fields. -/

namespace Sys2Proof.Machine

/-! ### The getters (R232 to R247) -/

/-- A digit pair on the payload's number. -/
theorem digitsGet_toNat_eq (p : Payload) (lo hi : Nat) {w : Nat} (hw : w ≤ 3) :
    (digitsGet p lo hi w).toNat = p.toNat / 2 ^ lo % 2 ^ 4 + 10 * (p.toNat / 2 ^ hi % 2 ^ w) := by
  rw [digitsGet_toNat p lo hi hw, fieldGet_eq, fieldGet_eq]

/-- The greatest digit pair has all units and all tens bits set. -/
theorem digitsGet_toNat_le (p : Payload) (lo hi : Nat) {w : Nat} (hw : w ≤ 3) :
    (digitsGet p lo hi w).toNat ≤ 15 + 10 * (2 ^ w - 1) := by
  have hunits := fieldGet_lt p lo 4
  have htens := fieldGet_lt p hi w
  rw [digitsGet_toNat p lo hi hw]
  omega

/-- Settles O36: every getter is `digitsGet` at its own two fields. -/
theorem digitGettersReadTheirFields : Obligations.DigitGettersReadTheirFields := by
  intro s p
  have hframes : (ffcGetFrames p).toNat = p.toNat % 2 ^ 4 + 10 * (p.toNat / 2 ^ 8 % 2 ^ 2) := by
    rw [ffcGetFrames, digitsGet_toNat_eq p 0 8 (by decide), Nat.pow_zero, Nat.div_one]
  exact ⟨ffcGetFrames p, ffcGetSeconds p, ffcGetMinutes p, ffcGetHours p,
    rfl, hframes,
    rfl, digitsGet_toNat_eq p 16 24 (by decide),
    rfl, digitsGet_toNat_eq p 32 40 (by decide),
    rfl, digitsGet_toNat_eq p 48 56 (by decide),
    digitsGet_toNat_le p 0 8 (by decide), digitsGet_toNat_le p 16 24 (by decide),
    digitsGet_toNat_le p 32 40 (by decide), digitsGet_toNat_le p 48 56 (by decide)⟩

/-- A user nibble on the payload's number. -/
theorem nibbleGet_toNat_eq (p : Payload) (lo : Nat) : (nibbleGet p lo).toNat = p.toNat / 2 ^ lo % 16 :=
  fieldGet_eq p lo 4

/-- Settles O37: every getter is `nibbleGet` at its own field. -/
theorem nibbleGettersReadTheirFields : Obligations.NibbleGettersReadTheirFields := fun _ p =>
  ⟨ffcGetUb1 p, ffcGetUb2 p, ffcGetUb3 p, ffcGetUb4 p, ffcGetUb5 p, ffcGetUb6 p, ffcGetUb7 p, ffcGetUb8 p,
    ⟨rfl, nibbleGet_toNat_eq p 4⟩, ⟨rfl, nibbleGet_toNat_eq p 12⟩, ⟨rfl, nibbleGet_toNat_eq p 20⟩,
    ⟨rfl, nibbleGet_toNat_eq p 28⟩, ⟨rfl, nibbleGet_toNat_eq p 36⟩, ⟨rfl, nibbleGet_toNat_eq p 44⟩,
    ⟨rfl, nibbleGet_toNat_eq p 52⟩, ⟨rfl, nibbleGet_toNat_eq p 60⟩⟩

/-! ### What a digit pair keeps of a value (R94, R249) -/

/-- The value read back from a digit pair with `w` tens bits after `v` was written to it. -/
def keptDigits (w v : Nat) : Nat := splitUnits v + 10 * (splitTens v % 2 ^ w)

theorem keptDigits_eq (w v : Nat) : keptDigits w v = v % 10 + 10 * (v / 10 % 2 ^ w) := by
  rw [keptDigits, splitUnits, splitTens_eq]

/-- The whole value, as long as its tens fit their field. -/
theorem keptDigits_of_lt {w v : Nat} (h : v < 10 * 2 ^ w) : keptDigits w v = v := by
  rw [keptDigits_eq, Nat.mod_eq_of_lt (Nat.div_lt_of_lt_mul h), Nat.mod_add_div]

/-- A pair whose fields hold the split of `v`, each cut to its width, reads as what it keeps of `v`. -/
theorem digitsGet_of_fields {q : Payload} {lo hi w v : Nat} (hw : w ≤ 3)
    (hunits : fieldGet q lo 4 = splitUnits v % 2 ^ 4) (htens : fieldGet q hi w = splitTens v % 2 ^ w) :
    (digitsGet q lo hi w).toNat = keptDigits w v := by
  have hdigit : splitUnits v < 10 := Nat.mod_lt _ (by decide)
  rw [digitsGet_toNat q lo hi hw, hunits, htens, keptDigits, Nat.mod_eq_of_lt (by omega)]

/-! ### The setters (R250 to R262) -/

/-- The two fields of a digit pair: units below tens, both in the payload, the tens at most three bits (R94). -/
structure DigitPair (lo hi w : Nat) : Prop where
  units_below_tens : lo + 4 ≤ hi
  in_payload : hi + w ≤ 64
  tens_width : w ≤ 3

theorem framesPair : DigitPair 0 8 2 := ⟨by decide, by decide, by decide⟩
theorem secondsPair : DigitPair 16 24 3 := ⟨by decide, by decide, by decide⟩
theorem minutesPair : DigitPair 32 40 3 := ⟨by decide, by decide, by decide⟩
theorem hoursPair : DigitPair 48 56 2 := ⟨by decide, by decide, by decide⟩

/-- The units' bits are those of `units`, as the later set of the tens does not reach them; all bits outside the two
fields are the old ones. -/
theorem digitsSet_bit {lo hi w : Nat} (h : DigitPair lo hi w) (p : Payload) (v : Nat) {i : Nat} (hi64 : i < 64) :
    (digitsSet p lo hi w v).getLsbD i =
      if lo ≤ i ∧ i < lo + 4 then (splitUnits v).testBit (i - lo)
      else if hi ≤ i ∧ i < hi + w then (splitTens v).testBit (i - hi) else p.getLsbD i := by
  obtain ⟨hbelow, hin, -⟩ := h
  rw [digitsSet, fieldSet_bit _ _ hin hi64, fieldSet_bit _ _ (by omega) hi64]
  by_cases hunits : lo ≤ i ∧ i < lo + 4
  · rw [if_neg (by omega), if_pos hunits, if_pos hunits]
  · rw [if_neg hunits, if_neg hunits]

theorem digitsGet_digitsSet {lo hi w : Nat} (h : DigitPair lo hi w) (p : Payload) (v : Nat) :
    (digitsGet (digitsSet p lo hi w v) lo hi w).toNat = keptDigits w v := by
  obtain ⟨hbelow, hin, hw⟩ := h
  refine digitsGet_of_fields hw ?_ (fieldGet_fieldSet_same _ _ hin)
  rw [digitsSet, fieldGet_fieldSet_other _ _ hin (by omega) (Or.inr hbelow), fieldGet_fieldSet_same _ _ (by omega)]

/-- A digit pair reads back whole up to its greatest two-digit value. -/
theorem digitsGet_digitsSet_of_lt {lo hi w : Nat} (h : DigitPair lo hi w) (p : Payload) {v : Nat} (hv : v < 10 * 2 ^ w) :
    (digitsGet (digitsSet p lo hi w v) lo hi w).toNat = v :=
  (digitsGet_digitsSet h p v).trans (keptDigits_of_lt hv)

/-- Settles O38: every setter is `digitsSet` at its own pair of fields. -/
theorem digitSettersWriteTheirFields : Obligations.DigitSettersWriteTheirFields := by
  intro s p v digitBits readsBack
  exact ⟨⟨ffcSetFrames p v, ffcGetFrames (ffcSetFrames p v), rfl, fun _ => digitsSet_bit framesPair p v,
      rfl, digitsGet_digitsSet framesPair p v, fun hv => digitsGet_digitsSet_of_lt framesPair p (Nat.lt_succ_of_le hv)⟩,
    ⟨ffcSetSeconds p v, ffcGetSeconds (ffcSetSeconds p v), rfl, fun _ => digitsSet_bit secondsPair p v,
      rfl, digitsGet_digitsSet secondsPair p v, fun hv => digitsGet_digitsSet_of_lt secondsPair p (Nat.lt_succ_of_le hv)⟩,
    ⟨ffcSetMinutes p v, ffcGetMinutes (ffcSetMinutes p v), rfl, fun _ => digitsSet_bit minutesPair p v,
      rfl, digitsGet_digitsSet minutesPair p v, fun hv => digitsGet_digitsSet_of_lt minutesPair p (Nat.lt_succ_of_le hv)⟩,
    ⟨ffcSetHours p v, ffcGetHours (ffcSetHours p v), rfl, fun _ => digitsSet_bit hoursPair p v,
      rfl, digitsGet_digitsSet hoursPair p v, fun hv => digitsGet_digitsSet_of_lt hoursPair p (Nat.lt_succ_of_le hv)⟩⟩

/-- Settles O39: every setter is `fieldSet` of four bits at its own position. -/
theorem nibbleSettersWriteTheirFields : Obligations.NibbleSettersWriteTheirFields := by
  intro s p v nibbleBits
  have hbits : ∀ lo, lo + 4 ≤ 64 → nibbleBits lo (fieldSet p lo 4 v) := fun _ hlo _ => fieldSet_bit p v hlo
  exact ⟨⟨ffcSetUb1 p v, rfl, hbits 4 (by decide)⟩, ⟨ffcSetUb2 p v, rfl, hbits 12 (by decide)⟩,
    ⟨ffcSetUb3 p v, rfl, hbits 20 (by decide)⟩, ⟨ffcSetUb4 p v, rfl, hbits 28 (by decide)⟩,
    ⟨ffcSetUb5 p v, rfl, hbits 36 (by decide)⟩, ⟨ffcSetUb6 p v, rfl, hbits 44 (by decide)⟩,
    ⟨ffcSetUb7 p v, rfl, hbits 52 (by decide)⟩, ⟨ffcSetUb8 p v, rfl, hbits 60 (by decide)⟩⟩

/-! ### Writing a list of fields (R231) -/

/-- The place of a field in the payload word. -/
structure PayloadField where
  lo : Nat
  w : Nat

/-- The field lies in the payload word. -/
abbrev PayloadField.Fits (a : PayloadField) : Prop := a.lo + a.w ≤ 64

/-- The two fields share no bit. -/
abbrev PayloadField.Disjoint (a b : PayloadField) : Prop := a.lo + a.w ≤ b.lo ∨ b.lo + b.w ≤ a.lo

/-- FIELD_SET of each value to its field, the first of the list first. -/
def writeFields (p : Payload) : List (PayloadField × Nat) → Payload
  | [] => p
  | (a, v) :: writes => writeFields (fieldSet p a.lo a.w v) writes

/-- A field disjoint from all written ones keeps its content. -/
theorem fieldGet_writeFields_other {a : PayloadField} (ha : a.Fits) (p : Payload) (writes : List (PayloadField × Nat))
    (hfits : ∀ b ∈ writes.map Prod.fst, b.Fits) (hdisj : ∀ b ∈ writes.map Prod.fst, a.Disjoint b) :
    fieldGet (writeFields p writes) a.lo a.w = fieldGet p a.lo a.w := by
  induction writes generalizing p with
  | nil => rfl
  | cons write writes ih =>
    obtain ⟨hb, hrest⟩ := List.forall_mem_cons.1 hfits
    obtain ⟨hab, hlater⟩ := List.forall_mem_cons.1 hdisj
    rw [writeFields, ih _ hrest hlater, fieldGet_fieldSet_other p _ hb ha hab.symm]

/-- Of pairwise disjoint fields each holds its own value in the end, cut to its width: no later write reaches it. -/
theorem fieldGet_writeFields_mem {a : PayloadField} {v : Nat} (p : Payload) (writes : List (PayloadField × Nat))
    (hfits : ∀ b ∈ writes.map Prod.fst, b.Fits) (hdisj : (writes.map Prod.fst).Pairwise PayloadField.Disjoint)
    (h : (a, v) ∈ writes) : fieldGet (writeFields p writes) a.lo a.w = v % 2 ^ a.w := by
  induction writes generalizing p with
  | nil => exact absurd h List.not_mem_nil
  | cons write writes ih =>
    obtain ⟨hb, hrest⟩ := List.forall_mem_cons.1 hfits
    obtain ⟨hfirst, hlater⟩ := List.pairwise_cons.1 hdisj
    rcases List.mem_cons.1 h with rfl | h
    · exact (fieldGet_writeFields_other hb _ writes hrest hfirst).trans (fieldGet_fieldSet_same p v hb)
    · exact ih _ hrest hlater h

/-! ### The round trip (R265) -/

/-- The fields of R91: the four digit pairs, units before tens, and the eight user nibbles. -/
def payloadFields : List PayloadField :=
  [⟨0, 4⟩, ⟨8, 2⟩, ⟨16, 4⟩, ⟨24, 3⟩, ⟨32, 4⟩, ⟨40, 3⟩, ⟨48, 4⟩, ⟨56, 2⟩,
    ⟨4, 4⟩, ⟨12, 4⟩, ⟨20, 4⟩, ⟨28, 4⟩, ⟨36, 4⟩, ⟨44, 4⟩, ⟨52, 4⟩, ⟨60, 4⟩]

theorem payloadFields_fit : ∀ a ∈ payloadFields, a.Fits := by decide

theorem payloadFields_disjoint : payloadFields.Pairwise PayloadField.Disjoint := by decide

/-- Each of `values` written to its field of `payloadFields`, in that order. -/
def encodeFields (values : List Nat) : Payload := writeFields 0 (payloadFields.zip values)

/-- Each field of the payload holds its own one of `values`, cut to its width. -/
def HoldsFields (p : Payload) (values : List Nat) : Prop :=
  ∀ (i : Nat) (a : PayloadField) (v : Nat), (payloadFields.zip values)[i]? = some (a, v) → fieldGet p a.lo a.w = v % 2 ^ a.w

theorem encodeFields_holdsFields {values : List Nat} (hlen : values.length = payloadFields.length) :
    HoldsFields (encodeFields values) values := by
  have hfields : (payloadFields.zip values).map Prod.fst = payloadFields := List.map_fst_zip hlen.ge
  intro i a v h
  refine fieldGet_writeFields_mem 0 (payloadFields.zip values) ?_ ?_ (List.mem_of_getElem? h)
  · rw [hfields]; exact payloadFields_fit
  · rw [hfields]; exact payloadFields_disjoint

/-- Two neighbours of the list that hold the split of `v` are a digit pair. -/
theorem HoldsFields.digitPair {p : Payload} {values : List Nat} (h : HoldsFields p values) (i : Nat) {lo hi w v : Nat}
    (hw : w ≤ 3) (hunits : (payloadFields.zip values)[i]? = some (⟨lo, 4⟩, splitUnits v))
    (htens : (payloadFields.zip values)[i + 1]? = some (⟨hi, w⟩, splitTens v)) :
    (digitsGet p lo hi w).toNat = keptDigits w v :=
  digitsGet_of_fields hw (h _ _ _ hunits) (h _ _ _ htens)

theorem HoldsFields.nibble {p : Payload} {values : List Nat} (h : HoldsFields p values) (i : Nat) {lo : Nat} {n : Nibble}
    (hn : (payloadFields.zip values)[i]? = some (⟨lo, 4⟩, n.toNat)) : nibbleGet p lo = n :=
  BitVec.eq_of_toNat_eq ((h _ _ _ hn).trans (Nat.mod_eq_of_lt n.isLt))

/-- The values that the twelve setters write, in the order of `payloadFields`. -/
def codecValues (h m sec f : Nat) (ub : UserBits) : List Nat :=
  [splitUnits f, splitTens f, splitUnits sec, splitTens sec, splitUnits m, splitTens m, splitUnits h, splitTens h,
    ub.ub1.toNat, ub.ub2.toNat, ub.ub3.toNat, ub.ub4.toNat, ub.ub5.toNat, ub.ub6.toNat, ub.ub7.toNat, ub.ub8.toNat]

/-- Settles O40: the twelve setters write `codecValues` to the pairwise disjoint `payloadFields`. -/
theorem codecRoundTrip : Obligations.CodecRoundTrip := by
  intro h m sec f n1 n2 n3 n4 n5 n6 n7 n8 digits low p
  have hset : p = encodeFields (codecValues h m sec f ⟨n1, n2, n3, n4, n5, n6, n7, n8⟩) := rfl
  have hp : HoldsFields p (codecValues h m sec f ⟨n1, n2, n3, n4, n5, n6, n7, n8⟩) :=
    hset ▸ encodeFields_holdsFields rfl
  have hours : (ffcGetHours p).toNat = keptDigits 2 h := hp.digitPair 6 (by decide) rfl rfl
  have minutes : (ffcGetMinutes p).toNat = keptDigits 3 m := hp.digitPair 4 (by decide) rfl rfl
  have seconds : (ffcGetSeconds p).toNat = keptDigits 3 sec := hp.digitPair 2 (by decide) rfl rfl
  have frames : (ffcGetFrames p).toNat = keptDigits 2 f := hp.digitPair 0 (by decide) rfl rfl
  exact ⟨hours.trans (keptDigits_eq 2 h), minutes.trans (keptDigits_eq 3 m), seconds.trans (keptDigits_eq 3 sec),
    frames.trans (keptDigits_eq 2 f), fun hh => hours.trans (keptDigits_of_lt (Nat.lt_succ_of_le hh)),
    fun hm => minutes.trans (keptDigits_of_lt (Nat.lt_succ_of_le hm)),
    fun hs => seconds.trans (keptDigits_of_lt (Nat.lt_succ_of_le hs)),
    fun hf => frames.trans (keptDigits_of_lt (Nat.lt_succ_of_le hf)),
    hp.nibble 8 rfl, hp.nibble 9 rfl, hp.nibble 10 rfl, hp.nibble 11 rfl,
    hp.nibble 12 rfl, hp.nibble 13 rfl, hp.nibble 14 rfl, hp.nibble 15 rfl⟩

end Sys2Proof.Machine
end

section
/-! The frame rate and the timecode value (46_frame_rate_timecode.md R271 to R280): the band of a count, the fields of a
built frame, and TC.ADVANCE as one carry repeated from field to field. -/

namespace Sys2Proof.Machine

/-! ### FPS.CLASSIFY (R271) -/

theorem exec_fpsClassify (count : Nat) (s : State) :
    exec (.fpsClassify count) s = .next { s with ret := .fps (fpsClassify s.cfg count) } := rfl

theorem inBand_iff {fs : Rate} {count r : Nat} : inBand fs count r = true ↔
    784 * fs.num ≤ 1000 * count * r * fs.den ∧ 1000 * count * r * fs.den ≤ 816 * fs.num := by
  simp only [inBand, bandLow, bandHigh, Bool.and_eq_true, decide_eq_true_eq]

/-- Two bands of one sampling rate are disjoint as soon as their rates lie apart by more than the bands are wide. -/
theorem not_inBand_of_inBand {fs : Rate} {count q r : Nat} (hn : 0 < fs.num) (hqr : 816 * q < 784 * r)
    (hq : inBand fs count q = true) : ¬ inBand fs count r = true := by
  intro hr
  have hlow := (inBand_iff.1 hq).1
  have hhigh := (inBand_iff.1 hr).2
  have hle : 784 * r * fs.num ≤ 816 * q * fs.num := by
    calc 784 * r * fs.num = 784 * fs.num * r := by ring
      _ ≤ 1000 * count * q * fs.den * r := Nat.mul_le_mul_right r hlow
      _ = 1000 * count * r * fs.den * q := by ring
      _ ≤ 816 * fs.num * q := Nat.mul_le_mul_right q hhigh
      _ = 816 * q * fs.num := by ring
  exact absurd (Nat.le_of_mul_le_mul_right hle hn) (Nat.not_le_of_lt hqr)

/-- The three tests of FPS.CLASSIFY exclude each other, so their order does not matter. -/
theorem fpsClassify_iff {c : Config} (hn : 0 < c.fs.num) (count : Nat) :
    (fpsClassify c count = .fps24 ↔ inBand c.fs count 24 = true) ∧
    (fpsClassify c count = .fps25 ↔ inBand c.fs count 25 = true) ∧
    (fpsClassify c count = .fps30 ↔ inBand c.fs count 30 = true) ∧
    (fpsClassify c count = .unknown ↔
      ¬ inBand c.fs count 24 = true ∧ ¬ inBand c.fs count 25 = true ∧ ¬ inBand c.fs count 30 = true) := by
  by_cases h24 : inBand c.fs count 24 = true
  · have h25 := not_inBand_of_inBand hn (r := 25) (by decide) h24
    have h30 := not_inBand_of_inBand hn (r := 30) (by decide) h24
    simp [fpsClassify, h24, h25, h30]
  · by_cases h25 : inBand c.fs count 25 = true
    · have h30 := not_inBand_of_inBand hn (r := 30) (by decide) h25
      simp [fpsClassify, h24, h25, h30]
    · by_cases h30 : inBand c.fs count 30 = true <;> simp [fpsClassify, h24, h25, h30]

/-- Settles O41: the bands of 24, 25 and 30 lie far enough apart to be disjoint. -/
theorem rateIsTheBandOfTheCount : Obligations.RateIsTheBandOfTheCount := by
  intro s count hn _
  refine ⟨fpsClassify s.cfg count, exec_fpsClassify count s, ?_⟩
  simpa only [inBand_iff] using fpsClassify_iff hn count

/-! ### TC.BUILD (R275) -/

/-- Settles O42: `tcBuild` is the record of the getters' answers on `rev64` of the payload. -/
theorem buildCollectsTheFields : Obligations.BuildCollectsTheFields := fun s d count =>
  ⟨tcBuild s.cfg d count, rev64 d, fun _ => rev64_bit d, rfl, rfl, rfl, rfl, rfl, exec_fpsClassify count s,
    rfl, rfl, rfl, rfl, rfl, rfl, rfl, rfl, rfl, rfl⟩

/-! ### TC.ADVANCE (R280) -/

theorem fpsModulus_eq_some_iff {f : Fps} {r : Nat} :
    fpsModulus f = some r ↔ (f = .fps24 ∧ r = 24) ∨ (f = .fps25 ∧ r = 25) ∨ (f = .fps30 ∧ r = 30) := by
  cases f <;> simp [fpsModulus, eq_comm]

theorem byte_succ_toNat {v : Byte} (h : v.toNat < 255) : (BitVec.ofNat 8 (v.toNat + 1)).toNat = v.toNat + 1 := by
  rw [BitVec.toNat_ofNat, Nat.mod_eq_of_lt (by omega)]

theorem digitInc_of_lt {v : Byte} (h : v.toNat < 255) : digitInc v = some (BitVec.ofNat 8 (v.toNat + 1)) := by
  have hsucc : v + 1 = BitVec.ofNat 8 (v.toNat + 1) := by
    rw [BitVec.ofNat_add, BitVec.ofNat_toNat, BitVec.setWidth_eq, BitVec.ofNat_eq_ofNat]
  rw [digitInc, if_pos (Nat.le_of_lt_succ h), hsucc]

theorem digitInc_of_full {v : Byte} (h : v.toNat = 255) : digitInc v = none :=
  if_neg (by omega)

/-- One field of TC.ADVANCE: increment it, and where it reaches its modulus leave the answer to the next field. -/
def digitCarry (v : Byte) (modulus : Option Nat) (stay : Byte → TimecodeFrame) (carry : Option TimecodeFrame) :
    Option TimecodeFrame :=
  match digitInc v with
  | none => none
  | some d => if modulus ≠ some d.toNat then some (stay d) else carry

section
variable {v : Byte} {modulus : Option Nat} {stay : Byte → TimecodeFrame} {carry : Option TimecodeFrame}

theorem digitCarry_full (h : v.toNat = 255) : digitCarry v modulus stay carry = none := by
  rw [digitCarry, digitInc_of_full h]

theorem digitCarry_stay (h : v.toNat < 255) (hm : modulus ≠ some (v.toNat + 1)) :
    digitCarry v modulus stay carry = some (stay (BitVec.ofNat 8 (v.toNat + 1))) := by
  simp only [digitCarry, digitInc_of_lt h, byte_succ_toNat h, if_pos hm]

theorem digitCarry_carry (h : v.toNat < 255) (hm : modulus = some (v.toNat + 1)) :
    digitCarry v modulus stay carry = carry := by
  simp only [digitCarry, digitInc_of_lt h, byte_succ_toNat h, if_neg (not_not_intro hm)]

end

/-- TC.ADVANCE is the same carry at every field, hours with no modulus. -/
theorem tcAdvance_eq (t : TimecodeFrame) : tcAdvance t =
    digitCarry t.frames (fpsModulus t.fps) (fun f => { t with frames := f })
      (digitCarry t.seconds (some 60) (fun sec => { t with frames := 0, seconds := sec })
        (digitCarry t.minutes (some 60) (fun m => { t with frames := 0, seconds := 0, minutes := m })
          (digitCarry t.hours none (fun h => { t with frames := 0, seconds := 0, minutes := 0, hours := h }) none))) := by
  simp only [tcAdvance, digitCarry, ne_eq, Option.some.injEq, eq_comm (a := 60), reduceCtorEq, not_false_eq_true,
    if_true] <;> rfl

theorem exec_tcAdvance_of_some {t u : TimecodeFrame} (h : tcAdvance t = some u) (s : State) :
    exec (.tcAdvance t) s = .next { s with ret := .frame u } := by
  simp only [exec, execTcAdvance, h, setRet]

theorem exec_tcAdvance_of_none {t : TimecodeFrame} (h : tcAdvance t = none) (s : State) :
    exec (.tcAdvance t) s = .refused .advanceOutsideDomain := by
  simp only [exec, execTcAdvance, h]

/-- Settles O43: at each field in turn, full, stay or carry. -/
theorem advanceCarries : Obligations.AdvanceCarries := by
  intro s t rolls
  have hrolls : fpsModulus t.fps = some (t.frames.toNat + 1) ↔ rolls := fpsModulus_eq_some_iff
  have frames (h : rolls) : tcAdvance t = _ :=
    (tcAdvance_eq t).trans (digitCarry_carry (by omega) (hrolls.2 h))
  have seconds (h : rolls) (hs : t.seconds.toNat + 1 = 60) : tcAdvance t = _ :=
    (frames h).trans (digitCarry_carry (by omega) (congrArg some hs.symm))
  have minutes (h : rolls) (hs : t.seconds.toNat + 1 = 60) (hm : t.minutes.toNat + 1 = 60) : tcAdvance t = _ :=
    (seconds h hs).trans (digitCarry_carry (by omega) (congrArg some hm.symm))
  refine ⟨fun hf => ?_, fun hf h => ?_, fun h hs => ?_, fun h hs hs' => ?_, fun h hs hm => ?_, fun h hs hm hm' => ?_,
    fun h hs hm hh => ?_, fun h hs hm hh => ?_⟩
  · exact exec_tcAdvance_of_none ((tcAdvance_eq t).trans (digitCarry_full hf)) s
  · exact exec_tcAdvance_of_some ((tcAdvance_eq t).trans (digitCarry_stay hf (mt hrolls.1 h))) s
  · exact exec_tcAdvance_of_none ((frames h).trans (digitCarry_full hs)) s
  · exact exec_tcAdvance_of_some ((frames h).trans (digitCarry_stay hs (by simpa using Ne.symm hs'))) s
  · exact exec_tcAdvance_of_none ((seconds h hs).trans (digitCarry_full hm)) s
  · exact exec_tcAdvance_of_some ((seconds h hs).trans (digitCarry_stay hm (by simpa using Ne.symm hm'))) s
  · exact exec_tcAdvance_of_none ((minutes h hs hm).trans (digitCarry_full hh)) s
  · exact exec_tcAdvance_of_some ((minutes h hs hm).trans (digitCarry_stay hh nofun)) s

theorem byte_zero_toNat : (0 : Byte).toNat = 0 := rfl

/-- Settles O44: a field that rolls over held one less than its modulus, so the carry is worth what it clears. -/
theorem advanceAddsOneFrame : Obligations.AdvanceAddsOneFrame := by
  intro s t r hr hf hs hm hh
  obtain ⟨-, stay, -, second, -, minute, -, hour⟩ := advanceCarries s t
  by_cases hroll : t.frames.toNat + 1 = r
  · subst hroll
    by_cases hs60 : t.seconds.toNat + 1 = 60
    · have hs59 : t.seconds.toNat = 59 := Nat.succ.inj hs60
      by_cases hm60 : t.minutes.toNat + 1 = 60
      · have hm59 : t.minutes.toNat = 59 := Nat.succ.inj hm60
        refine ⟨_, hour hr hs60 hm60 hh, ?_, Nat.succ_pos _, Nat.succ_pos _, Nat.succ_pos _, rfl, rfl, rfl, rfl⟩
        rw [byte_succ_toNat hh, byte_zero_toNat, hs59, hm59]
        ring
      · have hm' := byte_succ_toNat (v := t.minutes) (by omega)
        refine ⟨_, minute hr hs60 (by omega) hm60, ?_, Nat.succ_pos _, Nat.succ_pos _, hm'.trans_lt (by omega),
          rfl, rfl, rfl, rfl⟩
        rw [hm', byte_zero_toNat, hs59]
        ring
    · have hs' := byte_succ_toNat (v := t.seconds) (by omega)
      refine ⟨_, second hr (by omega) hs60, ?_, Nat.succ_pos _, hs'.trans_lt (by omega), hm, rfl, rfl, rfl, rfl⟩
      rw [hs', byte_zero_toNat]
      ring
  · have hf' := byte_succ_toNat (v := t.frames) (by omega)
    refine ⟨_, stay (by omega) fun h => hroll ?_, by rw [hf', Nat.add_assoc], hf'.trans_lt (by omega), hs, hm,
      rfl, rfl, rfl, rfl⟩
    exact Option.some.inj ((fpsModulus_eq_some_iff.2 h).symm.trans (fpsModulus_eq_some_iff.2 hr))

end Sys2Proof.Machine
end

section
/-! The exceptions (60_exceptions.md R290 to R299): no step stops; what a push does while calibrating, while the block is not
locked, and where a locked block invalidates. -/

namespace Sys2Proof.Machine

/-! ### No step stops (R290) -/

/-- Settles O6: RESET and IDLE always complete, and a push with the cursor in the ring writes one location and advances the
cursor around the ring. -/
theorem everyStepCompletes : Obligations.EveryStepCompletes := by
  intro s hwf hc
  rw [step_of_wf hwf]
  rcases decodePorts_cases (currentPorts s) with e | e | e <;> rw [e]
  · exact ⟨_, rfl, rfl, rfl, Nat.zero_lt_succ _⟩
  · obtain ⟨hcfg, hstim, -⟩ := pushSample_setting (sampleInt s.cfg (currentPorts s).sampleIn) (advanceStimulus s)
    obtain ⟨-, hcursor⟩ := pushSample_ring (sampleInt s.cfg (currentPorts s).sampleIn) (advanceStimulus s)
    exact ⟨_, exec_pushSample _ hc, hcfg, hstim, hcursor ▸ cursorNext_lt _⟩
  · exact ⟨_, rfl, rfl, rfl, hc⟩

/-! ### Calibration not ready (R293) -/

/-- With no bit shifted in there is no half-sync signature, so FA.SAMPLE_RECEIVED counts. -/
theorem faSampleReceived_of_data_zero {s : State} (h : s.data = 0) : faSampleReceived s = { s with fdsc := s.fdsc + 1 } := by
  have hsig : sig s.data = false := by rw [h]; rfl
  simp only [faSampleReceived, hsig, Bool.false_eq_true, if_false]

/-- Settles O18: a calibrating block has decoded nothing, so its push stores and counts the sample and no more. -/
theorem unclassifiedPushOnlyRecordsTheSample : Obligations.UnclassifiedPushOnlyRecordsTheSample := by
  intro s w h hv hn
  obtain ⟨hl, -⟩ := h.calibrating hv
  obtain ⟨-, -, -, hdata, -⟩ := h.unlocked hl
  refine ⟨memWrite s.hist s.histCursor (sampleInt s.cfg w), memRead_memWrite h.mem_wf _, ?_⟩
  rw [exec_pushSample w h.cursor_lt, pushSample_uncalibrated hv (Nat.ne_of_lt hn), faSampleReceived_of_data_zero hdata]
  rfl

/-! ### A block that is not locked does not invalidate (R292) -/

/-- The sample that locks is counted as number 1, and with no level on record before it there is no change (R181, R182). -/
theorem bsmTrack_lockOn (v : Wave) {s : State} (hwf : s.cfg.wf = true) :
    bsmTrack v (lockOn s) = (noBit v, sampleCounted v (lockOn s)) := by
  obtain ⟨-, hgap, hbit⟩ := wf_ordered hwf
  have hone : bsmExpect s.cfg.thr 1 s.midSeen ≠ .overdue := by
    rw [Ne, bsmExpect_overdue_iff ((wf_iff _).1 hwf).2.2]
    omega
  exact bsmResolve_steady _ hone v (sampleCounted v (lockOn s))

/-- A classified sample on an unlocked block gives no bit and no anomaly, whether or not it locks. -/
theorem bsmClassified_of_unlocked (v : Wave) {s : State} (hwf : s.cfg.wf = true) (hl : s.locked = false) :
    bsmClassified v s = (noBit v, (zdStep v s).2) ∨
      bsmClassified v s = (noBit v, sampleCounted v (lockOn (zdStep v s).2)) := by
  rcases Bool.eq_false_or_eq_true (zdStep v s).1 with hlock | hlock
  · right
    rw [bsmClassified_lock hl hlock, bsmTrack_lockOn]
    rw [zdStep_frame]
    exact hwf
  · exact .inl (bsmClassified_search hl hlock)

/-- What BSM.STEP may answer on the unlocked block `s` (R292). -/
structure UnlockedOutcome (s : State) (r : BitResult × State) : Prop where
  not_illegal : r.1.anomaly ≠ .illegal
  not_overdue : r.1.anomaly ≠ .overdue
  no_bit : r.1.bit = none
  keeps_calValid : s.calValid = true → r.2.calValid = true
  lock_sample : r.2.locked = true → r.2.bitCount = 1 ∧ r.2.lastLevel = r.1.level ∧ r.2.midSeen = false

theorem bsmClassified_unlockedOutcome (v : Wave) {s : State} (hwf : s.cfg.wf = true) (hl : s.locked = false)
    (hmid : s.midSeen = false) : UnlockedOutcome s (bsmClassified v s) := by
  have hz := zdStep_frame v s
  rcases bsmClassified_of_unlocked v hwf hl with e | e <;> rw [e, hz]
  · exact ⟨nofun, nofun, rfl, id, fun h => absurd h (by simp [hl])⟩
  · exact ⟨nofun, nofun, rfl, id, fun _ => ⟨rfl, rfl, hmid⟩⟩

theorem bsmStep_unlockedOutcome {x : Int} {s : State} (h : Inv s) (hx : s.cfg.smin ≤ x ∧ x ≤ s.cfg.smax)
    (hl : s.locked = false) : UnlockedOutcome s (bsmStep x s) := by
  have hp := calPush_inv h hx
  have hpl : (calPush x s).2.locked = false := (calPush_locked x s).trans hl
  have hkeeps : s.calValid = true → (calPush x s).2.calValid = true := calPush_keeps_calValid h.toCalInv.toRingInv hx
  rcases level_cases (calPush x s).1 with hu | ⟨v, hv⟩
  · rw [bsmStep_unknown hu]
    exact ⟨nofun, nofun, rfl, hkeeps, fun hlock => absurd hlock (by simp [hpl])⟩
  · obtain ⟨-, hmid, -⟩ := hp.unlocked hpl
    have hc := bsmClassified_unlockedOutcome v hp.cfg_wf hpl hmid
    rw [bsmStep_classified hv]
    exact { hc with keeps_calValid := fun hs => hc.keeps_calValid (hkeeps hs) }

/-- Settles O30: a push without a bit reports and leaves what its BSM.STEP does. -/
theorem nothingInvalidatesBeforeLock : Obligations.NothingInvalidatesBeforeLock := by
  intro s w h hl
  have hr := bsmStep_unlockedOutcome h.faSampleReceived (sampleInt_mem_range h.cfg_wf w) hl
  refine ⟨_, exec_pushSample w h.cursor_lt, ?_⟩
  rw [pushSample_eq, assembleAndReport_no_bit hr.no_bit]
  exact ⟨hr.not_illegal, hr.not_overdue, rfl, hr.keeps_calValid, hr.lock_sample⟩

/-! ### Where a locked block invalidates (R294, R295, R299) -/

/-- Past `max_bit` the sample is late, changed or not. -/
theorem bsmTrack_overdue (v : Wave) {s : State} (hord : s.cfg.thr.ordered = true)
    (hn : s.cfg.thr.maxBit < s.bitCount + 1) : bsmTrack v s = raiseInvalidate .overdue v.level s := by
  rw [bsmTrack_eq, bsmExpect_of_zone hord (e := .overdue) hn]
  rfl

/-- A change where the line must be steady is illegal. -/
theorem bsmTrack_illegal {v : Wave} {s : State} (hord : s.cfg.thr.ordered = true)
    (hn : expectZone s.cfg.thr (s.bitCount + 1) s.midSeen .mustBeSteady)
    (hc : levelChanged s.lastLevel v.level = true) : bsmTrack v s = raiseInvalidate .illegal v.level s := by
  rw [bsmTrack_eq, bsmExpect_of_zone hord hn, hc]
  rfl

/-- CAL.PUSH neither reads nor writes what FA.SAMPLE_RECEIVED does. -/
theorem calPush_faSampleReceived (x : Int) (s : State) :
    calPush x (faSampleReceived s) = ((calPush x s).1, faSampleReceived (calPush x s).2) := by
  have hstate : (calPush x (faSampleReceived s)).2 = faSampleReceived (calPush x s).2 := by
    by_cases hc : s.calCount + 1 = 255
    · rw [calPush_wrap hc, calPush_wrap (s := faSampleReceived s) hc]
      rfl
    · rw [calPush_count hc, calPush_count (s := faSampleReceived s) hc]
      rfl
  refine Prod.ext ?_ hstate
  rw [calPush_level, hstate]
  rfl

/-- CAL.PUSH leaves what the bit machine tracks a sample with. -/
theorem calPush_tracking (x : Int) (s : State) :
    (calPush x s).2.cfg = s.cfg ∧ (calPush x s).2.bitCount = s.bitCount ∧ (calPush x s).2.lastLevel = s.lastLevel ∧
      (calPush x s).2.midSeen = s.midSeen := by
  rw [calPush_frame]
  exact ⟨rfl, rfl, rfl, rfl⟩

/-- A push whose sample makes a locked block invalidate: the sample stays in the ring, every other register is at its
INVALIDATE value (R299), and the code is reported. -/
theorem exec_pushSample_invalidates {s s1 : State} {w : SampleWord} {v : Wave} {code : Anomaly} (hl : s.locked = true)
    (hpush : exec (.calPush w) s = .next s1) (hv : s1.ret = .level v.level)
    (htrack : bsmTrack v (faSampleReceived (calPush (sampleInt s.cfg w) s).2) =
      raiseInvalidate code v.level (faSampleReceived (calPush (sampleInt s.cfg w) s).2)) :
    exec (.pushSample w) s = .next
      { invalidated s1 with ret := s.ret, out := { level := v.level, bit := none, anomaly := code, frame := none } } := by
  obtain ⟨hc, rfl⟩ := writesRing_next hpush
  have hcal := calPush_faSampleReceived (sampleInt s.cfg w) s
  have hlevel : (calPush (sampleInt s.cfg w) (faSampleReceived s)).1 = v.level := by
    rw [hcal]
    exact Ret.level.inj hv
  have hlocked : (faSampleReceived (calPush (sampleInt s.cfg w) s).2).locked = true := (calPush_locked ..).trans hl
  have hret : (calPush (sampleInt s.cfg w) s).2.ret = s.ret := (congrArg State.ret (calPush_frame ..) :)
  rw [exec_pushSample w hc, pushSample_eq, bsmStep_classified hlevel, hcal, bsmClassified_locked hlocked, htrack, ← hret]
  rfl

/-- Settles O29: in either zone steps 3 to 5 of BSM.STEP raise Invalidate on the state CAL.PUSH leaves. -/
theorem illegalOrLateChangeInvalidates : Obligations.IllegalOrLateChangeInvalidates := by
  intro s s1 w v hl hpush hv
  obtain ⟨hcfg, hcount, hlast, hmid⟩ := calPush_tracking (sampleInt s.cfg w) s
  have hord (hwf : s.cfg.wf = true) : (calPush (sampleInt s.cfg w) s).2.cfg.thr.ordered = true := by
    rw [hcfg]
    exact ((wf_iff _).1 hwf).2.2
  refine ⟨fun hwf hn => exec_pushSample_invalidates hl hpush hv (bsmTrack_overdue v (hord hwf) ?late),
    fun hwf _ hknown hne hzone =>
      exec_pushSample_invalidates hl hpush hv (bsmTrack_illegal (hord hwf) ?steady ?changed)⟩
  case late =>
    rw [faSampleReceived_cfg, faSampleReceived_bitCount, hcfg, hcount]
    exact hn
  case steady =>
    rw [faSampleReceived_cfg, faSampleReceived_bitCount, faSampleReceived_midSeen, hcfg, hcount, hmid]
    exact hzone
  case changed =>
    rw [faSampleReceived_lastLevel, hlast, levelChanged_eq]
    exact decide_eq_true ⟨hknown, hne.symm⟩

end Sys2Proof.Machine
end
